-- ==== Sys2Proof/Word.lean ====
section
/-! DEFINITION. The widths of the block's values (00_scope.md R6, R7): bit 0 is the least significant, and every
value is an unsigned integer of a stated width. -/

namespace Sys2Proof

/-- A 32-bit register value: `RESULT`, `FINFO`, `STATUS`, the `ARG` of a command (R6: `WMAX` = 32). -/
abbrev Word := BitVec 32

/-- The data unit, `DW` = 8 bits (R6). -/
abbrev Byte := BitVec 8

/-- A command word: the one 64-bit format C64 (30_encoding.md R90). -/
abbrev CmdWord := BitVec 64

end Sys2Proof
end

