-- ==== Sys2Proof/Syntax.lean ====
section
/-! DEFINITION. The ten commands (30_encoding.md R95), the names their operands use, and the six host transactions
that drive the block (00_scope.md R11). -/

namespace Sys2Proof

/-- The four ordering slots a `PERMUTE` can select (R91, R31). -/
inductive Slot where
  | aord
  | dord
  | eord
  | gord
deriving DecidableEq, Repr

/-- The block's instructions are its ten commands, one constructor per row of the opcode table (R90, R95). -/
inductive Instr where
  /-- `COMMIT` (45_control.md R240). -/
  | commit
  /-- `PERMUTE sel, val` (40_permute.md R124). -/
  | permute (sel : Slot) (val : Word)
  /-- `DECODE la` (41_scheme.md R146). -/
  | decode (la : Word)
  /-- `ENCODE la` (41_scheme.md R147). -/
  | encode (la : Word)
  /-- `DECSW` (43_reencode.md R201). -/
  | decsw
  /-- `REENC` (43_reencode.md R200). -/
  | reenc
  /-- `CDELIN` (44_color.md R217). -/
  | cdelin
  /-- `CNARROW` (44_color.md R219). -/
  | cnarrow
  /-- `CSPLIT` (44_color.md R222). -/
  | csplit
  /-- `CREPACK` (44_color.md R224). -/
  | crepack
deriving DecidableEq, Repr

/-- The five byte memories, each its own address space (10_state.md R35, 20_memory.md R60). -/
inductive MemId where
  | src
  | dst
  | cin
  | cmb
  | cout
deriving DecidableEq, Repr

/-- The six host transactions (00_scope.md R11). `Cmd(w)` is `RegWrite(0x00, w)`. The value of a `RegWrite` is
carried in 64 bits, the width of the widest port (`CMD`, R28); an address is the number on the address port. -/
inductive Txn where
  | regWrite (n : BitVec 8) (v : BitVec 64)
  | regRead (n : BitVec 8)
  | memWrite (m : MemId) (a : Nat) (b : Byte)
  | memRead (m : MemId) (a : Nat)
  | cmd (w : CmdWord)
  | reset
deriving DecidableEq, Repr

/-- What a read transaction returns to the host: the value of a register, or a byte of a memory (R11). -/
inductive Reply where
  | reg (v : Word)
  | byte (b : Byte)
deriving DecidableEq, Repr

end Sys2Proof
end

