-- ==== Sys2Proof/Config.lean ====
section
/-! DEFINITION. What an implementation fixes (00_scope.md R6, 10_state.md R41) and the free values the spec leaves
unspecified (93_implementation_defined.md U11, U12). -/

namespace Sys2Proof

/-- The OPEN parameters of the block, arguments of the model (R6, R41). `AW` ranges over 1 .. 31, so it is held as
`AW - 1 < 31`: no value of this type is outside the range the spec gives. -/
structure Params where
  /-- `AW - 1`. -/
  awIndex : Fin 31
  /-- `HP_LOW`: which nibble of a high-plane byte carries the sample (44_color.md R228). -/
  hpLow : Bool
deriving DecidableEq, Repr

/-- `AW`, the width in bits of a program-bus address, 1 ≤ AW ≤ 31 (R6). -/
def Params.aw (p : Params) : Nat := p.awIndex.val + 1

/-- The parameters of `State.reset`. DESIGN CHOICE (log 1), unsafe: the spec leaves `AW` OPEN with no default; 15 fits the source's one
example bus of 32768 bytes (R6). `HP_LOW` = false is the spec's decided default (R6). -/
def Params.default : Params := ⟨14, false⟩

/-- `WMAX`, the largest input width and length of an ordering (R6). -/
def wmax : Nat := 32

/-- `CSAMPLES`, the logical colour entries (R6). -/
def csamples : Nat := 256

/-- `CPHYS`, the bytes of a colour physical image (R6). -/
def cphysBytes : Nat := 512

/-- The byte at address `a` of memory `m` that nothing has written since reset number `epoch`: unspecified, the
same at every read until it is written (20_memory.md R65, 70_reset_and_hazards.md R303). A free value (log 2). -/
opaque Config.powerOnByte (epoch : Nat) (m : MemId) (a : Nat) : Byte

/-- The byte of `DST` at index `i` after a sweep with opcode `op` that faulted: any byte (43_reencode.md R204).
A free value (log 3). -/
opaque Config.sweepFaultByte (epoch : Nat) (op : Byte) (i : Nat) : Byte

end Sys2Proof
end

