-- ==== Sys2Proof/WellFormed.lean ====
section
/-! DEFINITION. Well-formedness: the invariants a BitOrdering must or may satisfy (10_state.md R32, 40_permute.md
R127, R129), a whole scheme's ordering shapes (R31), and the instructions. -/

namespace Sys2Proof

/-- "each index in range [0, input width)" (R32). -/
def orderingInRange (win : Nat) (o : List Nat) : Bool := o.all (fun e => decide (e < win))

/-- `o` is bijective on its own length: the entries are 0 .. n−1, each exactly once (R127). -/
def orderingBijective (o : List Nat) : Bool :=
  orderingInRange o.length o && (List.range o.length).all (fun p => decide (o.count p = 1))

/-- `o` is self-inverse: for every j in 0 .. n−1, `o[n − 1 − o[j]]` = n − 1 − j (R129). -/
def orderingSelfInverse (o : List Nat) : Bool :=
  orderingInRange o.length o &&
    (List.range o.length).all
      (fun j => decide (o[o.length - 1 - o.getD j 0]? = some (o.length - 1 - j)))

/-- Every operand of an instruction is typed at exactly the width of its C64 field (`SEL` names one of four slots,
`ARG` is 32 bits, R91, R92), so every `Instr` is well-formed: there is no operand value to refuse. A malformed
command is a WORD that no instruction encodes (R97), and `decode` refuses it by name. -/
def Instr.wellFormed : Instr → Bool
  | .commit => true
  | .permute _ _ => true
  | .decode _ => true
  | .encode _ => true
  | .decsw => true
  | .reenc => true
  | .cdelin => true
  | .cnarrow => true
  | .csplit => true
  | .crepack => true

end Sys2Proof
end

