-- ==== Sys2Proof/Decode.lean ====
section
/-! DEFINITION. The command encoding: format C64 (30_encoding.md R91), the opcode map (R95) as one table, the decoder
that refuses every other word by name (R97), and the encoder. -/

namespace Sys2Proof

/-- `OP`, bits 7:0 (R91). -/
def opField (w : CmdWord) : BitVec 8 := w.extractLsb' 0 8

/-- `SEL`, bits 9:8 (R91). -/
def selField (w : CmdWord) : BitVec 2 := w.extractLsb' 8 2

/-- `RSV`, bits 31:10 (R91). -/
def rsvField (w : CmdWord) : BitVec 22 := w.extractLsb' 10 22

/-- `ARG`, bits 63:32 (R91). -/
def argField (w : CmdWord) : Word := w.extractLsb' 32 32

/-- `SEL`: 0 `AORD`, 1 `DORD`, 2 `EORD`, 3 `GORD` (R91). -/
def slotOfSel (sel : BitVec 2) : Slot :=
  if sel = 0#2 then .aord
  else if sel = 1#2 then .dord
  else if sel = 2#2 then .eord
  else .gord

/-- The `SEL` value of a slot (R91). -/
def selOfSlot : Slot → BitVec 2
  | .aord => 0#2
  | .dord => 1#2
  | .eord => 2#2
  | .gord => 3#2

/-- One row of the opcode map (R95). `usesSel` and `usesArg` say which fields are operands; the others must be 0. -/
structure OpRow where
  op : BitVec 8
  mnemonic : String
  mask : CmdWord
  pattern : CmdWord
  usesSel : Bool
  usesArg : Bool

/-- The opcode map (R95), a row's `mask` and `match` as the table prints them. -/
def rowOf : Instr → OpRow
  | .commit => ⟨0x01, "COMMIT", 0xFFFFFFFFFFFFFFFF, 0x0000000000000001, false, false⟩
  | .permute _ _ => ⟨0x10, "PERMUTE", 0x00000000FFFFFCFF, 0x0000000000000010, true, true⟩
  | .decode _ => ⟨0x20, "DECODE", 0x00000000FFFFFFFF, 0x0000000000000020, false, true⟩
  | .encode _ => ⟨0x21, "ENCODE", 0x00000000FFFFFFFF, 0x0000000000000021, false, true⟩
  | .decsw => ⟨0x28, "DECSW", 0xFFFFFFFFFFFFFFFF, 0x0000000000000028, false, false⟩
  | .reenc => ⟨0x29, "REENC", 0xFFFFFFFFFFFFFFFF, 0x0000000000000029, false, false⟩
  | .cdelin => ⟨0x30, "CDELIN", 0xFFFFFFFFFFFFFFFF, 0x0000000000000030, false, false⟩
  | .cnarrow => ⟨0x31, "CNARROW", 0xFFFFFFFFFFFFFFFF, 0x0000000000000031, false, false⟩
  | .csplit => ⟨0x32, "CSPLIT", 0xFFFFFFFFFFFFFFFF, 0x0000000000000032, false, false⟩
  | .crepack => ⟨0x33, "CREPACK", 0xFFFFFFFFFFFFFFFF, 0x0000000000000033, false, false⟩

/-- The instruction whose opcode byte is `op` and whose operand fields read `sel` and `arg` (R95), if `op` is one
of the ten. -/
def instrOfOp (op : BitVec 8) (sel : BitVec 2) (arg : Word) : Option Instr :=
  if op = 0x01#8 then some .commit
  else if op = 0x10#8 then some (.permute (slotOfSel sel) arg)
  else if op = 0x20#8 then some (.decode arg)
  else if op = 0x21#8 then some (.encode arg)
  else if op = 0x28#8 then some .decsw
  else if op = 0x29#8 then some .reenc
  else if op = 0x30#8 then some .cdelin
  else if op = 0x31#8 then some .cnarrow
  else if op = 0x32#8 then some .csplit
  else if op = 0x33#8 then some .crepack
  else none

/-- Why a 64-bit word is no command (R97). Each is reported by the block as the same `IllegalCommandError`
sub-code 1. -/
inductive DecodeError where
  /-- `OP` is none of the ten values. -/
  | unknownOp
  /-- `RSV` is not 0. -/
  | rsvNotZero
  /-- `SEL` is not 0 outside `PERMUTE`. -/
  | selNotZero
  /-- `ARG` is not 0 outside `PERMUTE`, `DECODE` and `ENCODE`. -/
  | argNotZero
deriving DecidableEq, Repr

/-- The decoder, total on every 64-bit word (R95, R97). -/
def decode (w : CmdWord) : Except DecodeError Instr :=
  match instrOfOp (opField w) (selField w) (argField w) with
  | none => .error .unknownOp
  | some i =>
    if rsvField w ≠ 0#22 then .error .rsvNotZero
    else if (rowOf i).usesSel = false ∧ selField w ≠ 0#2 then .error .selNotZero
    else if (rowOf i).usesArg = false ∧ argField w ≠ 0#32 then .error .argNotZero
    else .ok i

/-- A C64 word from its fields (R91). -/
def packCmd (arg : Word) (sel : BitVec 2) (op : BitVec 8) : CmdWord :=
  (arg ++ (0#22 ++ (sel ++ op) : BitVec 32) : BitVec 64)

/-- The encoder: the word of an instruction (R91, R95; the words of R100). -/
def encode : Instr → CmdWord
  | .commit => packCmd 0 0 0x01
  | .permute sel val => packCmd val (selOfSlot sel) 0x10
  | .decode la => packCmd la 0 0x20
  | .encode la => packCmd la 0 0x21
  | .decsw => packCmd 0 0 0x28
  | .reenc => packCmd 0 0 0x29
  | .cdelin => packCmd 0 0 0x30
  | .cnarrow => packCmd 0 0 0x31
  | .csplit => packCmd 0 0 0x32
  | .crepack => packCmd 0 0 0x33

/-- The 64-bit command word whose low `nbits` bits are those of `w` and whose other bits are 0. A command word is a
value carried whole by one `Cmd` transaction (20_memory.md R62, R74), so no byte order enters. -/
def tableWord (nbits w : Nat) : CmdWord := BitVec.ofNat 64 (w % 2 ^ nbits)

/-- The instruction the decoder reads from a word numbered as the opcode table numbers it. A command has one
length, 64 bits (R90). -/
def decodeTableWord (nbits w : Nat) : Option Instr :=
  if nbits ≤ 64 then (decode (tableWord nbits w)).toOption else none

end Sys2Proof
end

