-- ==== Sys2Proof/Machine/State.lean ====
section
/-! DEFINITION. The whole state of the block (10_state.md R20) as plain data, the reasons a step can stop, and the
state after reset (70_reset_and_hazards.md R300 to R303). -/

namespace Sys2Proof.Machine

/-- The three phases (R25); the field value 3 never occurs. -/
inductive Phase where
  | config
  | run
  | fault
deriving DecidableEq, Repr

/-- The error codes of R261 that have a name. `loadError` and `saveError` are the host's and never stand in
`STATUS.ERR`. -/
inductive ErrCode where
  | none
  | configurationError
  | loadError
  | saveError
  | outOfRangeError
  | physRangeError
  | illegalCommandError
deriving DecidableEq, Repr

/-- A register with its written mark (R21): when the mark is clear the register holds no value, and `val` is never
shown to the host. -/
structure Reg (w : Nat) where
  val : BitVec w
  written : Bool
deriving DecidableEq, Repr

/-- An unwritten register. The bits under a clear mark are 0: DESIGN CHOICE (log 6), unsafe. -/
def Reg.unwritten (w : Nat) : Reg w := ⟨0, false⟩

/-- A memory: the bytes written since reset, as (address, byte) pairs with the addresses strictly rising. An address
that is not listed has not been written since reset. -/
abbrev Memory := List Host.Cell

/-- `m` is in canonical form and lists no address below `lo`. -/
def Memory.risingFrom : Nat → Memory → Bool
  | _, [] => true
  | lo, c :: m => decide (lo ≤ c.1) && Memory.risingFrom (c.1 + 1) m

/-- The canonical form: addresses strictly rising. An unlisted address reads as no written byte, so no entry can
equal what an unlisted address reads as (log 2). -/
def Memory.wf (m : Memory) : Bool := Memory.risingFrom 0 m

/-- The state of the block and, after it, the model's own four fields. -/
structure State where
  /-- `STATUS.PHASE` (R25). -/
  phase : Phase
  /-- `STATUS.ERR` (R26, R261). -/
  err : ErrCode
  /-- `STATUS.FOP` (R26). -/
  fop : BitVec 8
  /-- `FINFO` (R27). -/
  finfo : Word
  /-- `RESULT`; its written mark is `STATUS.RVALID` (R21, R22). -/
  result : Reg 32
  /-- `AMASK`, AW bits (R29). -/
  amask : Reg 32
  /-- `BUSSIZE`, AW+1 bits (R29). -/
  bussize : Reg 32
  /-- `SRCLEN`, AW+1 bits (R29). -/
  srclen : Reg 32
  /-- `DCTL`, bit 0 `DSHARE` (R29). -/
  dctl : Reg 1
  /-- `CMODE`, bit 0 `NARROW` (R29). -/
  cmode : Reg 1
  /-- `GWIN` (R29). -/
  gwin : Reg 6
  /-- `GLEN` (R29). -/
  glen : Reg 6
  /-- `AORD[k]`; only k < AW exist (R31). -/
  aord : Vector (Reg 8) 31
  /-- `DORD[k]` (R31). -/
  dord : Vector (Reg 8) 8
  /-- `EORD[k]` (R31). -/
  eord : Vector (Reg 8) 8
  /-- `GORD[k]` (R31). -/
  gord : Vector (Reg 8) 32
  /-- `SRC` (R35). -/
  src : Memory
  /-- `DST` (R35). -/
  dst : Memory
  /-- `CIN` (R35). -/
  cin : Memory
  /-- `CMB` (R35). -/
  cmb : Memory
  /-- `COUT` (R35). -/
  cout : Memory
  /-- The model's arguments AW and `HP_LOW` (R6, R41; log 1). -/
  params : Params
  /-- How many resets there have been; the free values are applied to it (log 7). -/
  epoch : Nat
  /-- The host transactions still to come, the next one first (log 4). -/
  pending : List Txn
  /-- What read transactions have returned to the host, newest first (log 5). -/
  replies : List Reply
deriving DecidableEq, Repr

/-- Why a step stops with a fault. Every error of the BLOCK is a next state (fault entry, R270); these name
transactions that cannot reach it. -/
inductive Fault where
  /-- `MemRead` or `MemWrite` raises it for an address at or above the memory's size: "an address outside the memory
  cannot be presented" (R61). Safe: the hardware never sees the transaction. -/
  | addressOutsideMemory (m : MemId) (a : Nat)
  /-- `RegWrite` raises it for a value wider than the register's port: "a value that does not fit cannot be
  presented" (R29). Safe: the hardware never sees the transaction. -/
  | valueWiderThanPort (n : BitVec 8)
deriving DecidableEq, Repr

/-- Why a step, or a conversion run of the host, is refused. -/
inductive Refusal where
  /-- `exec` raises it for an instruction that has no meaning yet; no arm does. Safe. -/
  | notModelled (mnemonic : String)
  /-- `RegRead` raises it for an existing register whose written mark is clear: "the spec gives it no result, and a
  model must refuse it" (R38). Safe: nothing is claimed of the read. -/
  | unwrittenRegister (n : BitVec 8)
  /-- `RegRead` in `FAULT` raises it for a number that names no register: "it is ignored and returns no value (a
  model refuses it)" (R39). Safe: nothing is claimed of the read. -/
  | noRegisterInFault (n : BitVec 8)
  /-- The host's save raises it for a slot whose offset is inside the buffer and whose window runs past its end
  (93_implementation_defined.md U6: refuse). Safe: nothing is claimed of the save. -/
  | saveWindowPastEnd (name : String)
deriving DecidableEq, Repr

/-- The state `Reset` leaves (R301 to R303), for the parameters and the reset count given: `CONFIG`, no error, every
written mark clear, nothing in any memory written. -/
def State.afterReset (p : Params) (epoch : Nat) : State where
  phase := .config
  err := .none
  fop := 0
  finfo := 0
  result := Reg.unwritten 32
  amask := Reg.unwritten 32
  bussize := Reg.unwritten 32
  srclen := Reg.unwritten 32
  dctl := Reg.unwritten 1
  cmode := Reg.unwritten 1
  gwin := Reg.unwritten 6
  glen := Reg.unwritten 6
  aord := Vector.replicate 31 (Reg.unwritten 8)
  dord := Vector.replicate 8 (Reg.unwritten 8)
  eord := Vector.replicate 8 (Reg.unwritten 8)
  gord := Vector.replicate 32 (Reg.unwritten 8)
  src := []
  dst := []
  cin := []
  cmb := []
  cout := []
  params := p
  epoch := epoch
  pending := []
  replies := []

/-- The machine right after reset (R301 to R303), with the default parameters (log 1) and no transaction pending: the
block executes nothing until the host sends a command (R304). -/
def State.reset : State := State.afterReset Params.default 0

end Sys2Proof.Machine
end

