-- ==== Sys2Proof/Machine/Operands.lean ====
section
/-! DEFINITION. Every operand form: the bit-permutation primitive and the orderings it runs on, the map of register
numbers with the width of each port, and what the host can present (10_state.md, 40_permute.md, 20_memory.md). -/

namespace Sys2Proof.Machine

/-- PERM (R120): the n-bit value whose bit n − 1 − k is bit `o[k]` of `v`, for an ordering `o` of length n. Entry 0 is
the source of the most significant result bit (R9); an empty ordering gives the 0-bit value (R121). -/
def permute {w : Nat} (v : BitVec w) : (o : List Nat) → BitVec o.length
  | [] => 0#0
  | e :: o => BitVec.cons (v.getLsbD e) (permute v o)

/-- `permute` with its result put into `n` bits: the bits above the ordering's length are 0 (R121). -/
def permuteTo {w : Nat} (n : Nat) (v : BitVec w) (o : List Nat) : BitVec n := (permute v o).setWidth n

/-- The identity ordering of width n, `[n−1, ..., 1, 0]` (R126). -/
def identityOrdering (n : Nat) : List Nat := (List.range n).map (fun k => n - 1 - k)

/-- `inverse(o)` of a bijective ordering: `q[j] = n − 1 − idx_o(n − 1 − j)` (R127). A function of the spec that the
host uses; no command computes it. A non-bijective ordering has no inverse (R128); the list given for one, with 0 for an
index that does not occur, is a DESIGN CHOICE (log 15). -/
def inverseOrdering (o : List Nat) : List Nat :=
  (List.range o.length).map (fun j => o.length - 1 - o.idxOf (o.length - 1 - j))

/-- The one ordering that does `o1` and then `o2`: `o3[k] = o1[len(o1) − 1 − o2[k]]` (R130),
provided every `o2[k]` is below `len(o1)`; what is given otherwise is a DESIGN CHOICE (log 15). -/
def composeOrderings (o1 o2 : List Nat) : List Nat := o2.map (fun e => o1.getD (o1.length - 1 - e) 0)

/-- The entries of a slot's first `n` registers, as the ordering they hold (R31, R98). -/
def orderingOf (regs : List (Reg 8)) (n : Nat) : List Nat := (regs.take n).map (fun r => r.val.toNat)

/-- The address ordering, all AW entries of `AORD` (R31). -/
def State.addressOrdering (s : State) : List Nat := orderingOf s.aord.toList s.params.aw

/-- The decode data ordering, all 8 entries of `DORD` (R31). -/
def State.decodeOrdering (s : State) : List Nat := orderingOf s.dord.toList 8

/-- `DCTL.DSHARE` (R29). -/
def State.dshare (s : State) : Bool := decide (s.dctl.val = 1#1)

/-- `CMODE.NARROW` (R29, R218). -/
def State.narrow (s : State) : Bool := decide (s.cmode.val = 1#1)

/-- `EEFF`, the encode data ordering: `DORD` when `DSHARE` = 1, else `EORD` (R145, R148). -/
def State.encodeOrdering (s : State) : List Nat :=
  if s.dshare then s.decodeOrdering else orderingOf s.eord.toList 8

/-- The input width and the ordering of the slot a `PERMUTE` selects (R124). -/
def State.slotOperand (s : State) : Slot → Nat × List Nat
  | .aord => (s.params.aw, s.addressOrdering)
  | .dord => (8, s.decodeOrdering)
  | .eord => (8, orderingOf s.eord.toList 8)
  | .gord => (s.gwin.val.toNat, orderingOf s.gord.toList s.glen.val.toNat)

/-- The registers that exist (R40). An index of `AORD` is below AW where `regOfNumber` gives one. -/
inductive RegId where
  | cmd
  | status
  | finfo
  | result
  | amask
  | bussize
  | srclen
  | dctl
  | cmode
  | gwin
  | glen
  | aord (k : Fin 31)
  | dord (k : Fin 8)
  | eord (k : Fin 8)
  | gord (k : Fin 32)
deriving DecidableEq, Repr

/-- The registers outside the ordering slots, by number (R40). -/
def scalarOfNumber (n : BitVec 8) : Option RegId :=
  if n = 0x00#8 then some .cmd
  else if n = 0x01#8 then some .status
  else if n = 0x02#8 then some .finfo
  else if n = 0x03#8 then some .result
  else if n = 0x10#8 then some .amask
  else if n = 0x11#8 then some .bussize
  else if n = 0x12#8 then some .srclen
  else if n = 0x13#8 then some .dctl
  else if n = 0x14#8 then some .cmode
  else if n = 0x15#8 then some .gwin
  else if n = 0x16#8 then some .glen
  else none

/-- The ordering entries, by number: 0x20 .. 0x20+AW−1, 0x40 .. 0x47, 0x48 .. 0x4F, 0x60 .. 0x7F (R31, R40). -/
def entryOfNumber (p : Params) (n : BitVec 8) : Option RegId :=
  if h : 0x20 ≤ n.toNat ∧ n.toNat < 0x20 + p.aw then
    some (.aord ⟨n.toNat - 0x20, by have := p.awIndex.isLt; unfold Params.aw at h; omega⟩)
  else if h : 0x40 ≤ n.toNat ∧ n.toNat < 0x48 then some (.dord ⟨n.toNat - 0x40, by omega⟩)
  else if h : 0x48 ≤ n.toNat ∧ n.toNat < 0x50 then some (.eord ⟨n.toNat - 0x48, by omega⟩)
  else if h : 0x60 ≤ n.toNat ∧ n.toNat < 0x80 then some (.gord ⟨n.toNat - 0x60, by omega⟩)
  else none

/-- The register a number names, if any: "Every other number names no register" (R40). -/
def regOfNumber (p : Params) (n : BitVec 8) : Option RegId := (scalarOfNumber n).or (entryOfNumber p n)

/-- The number of a register (R40, R98). -/
def numberOfReg : RegId → BitVec 8
  | .cmd => 0x00
  | .status => 0x01
  | .finfo => 0x02
  | .result => 0x03
  | .amask => 0x10
  | .bussize => 0x11
  | .srclen => 0x12
  | .dctl => 0x13
  | .cmode => 0x14
  | .gwin => 0x15
  | .glen => 0x16
  | .aord k => BitVec.ofNat 8 (0x20 + k.val)
  | .dord k => BitVec.ofNat 8 (0x40 + k.val)
  | .eord k => BitVec.ofNat 8 (0x48 + k.val)
  | .gord k => BitVec.ofNat 8 (0x60 + k.val)

/-- A configuration register: the host may write it in `CONFIG` (R36). -/
def RegId.isConfig : RegId → Bool
  | .cmd => false
  | .status => false
  | .finfo => false
  | .result => false
  | .amask => true
  | .bussize => true
  | .srclen => true
  | .dctl => true
  | .cmode => true
  | .gwin => true
  | .glen => true
  | .aord _ => true
  | .dord _ => true
  | .eord _ => true
  | .gord _ => true

/-- The width of a configuration register, which is the width of its port (R29, R31); 64 for `CMD` (R28). A write of a
read-only register or of no register raises whatever the value (R36), so those are given the widest port. -/
def portWidth (p : Params) (n : BitVec 8) : Nat :=
  match regOfNumber p n with
  | some .amask => p.aw
  | some .bussize => p.aw + 1
  | some .srclen => p.aw + 1
  | some .dctl => 1
  | some .cmode => 1
  | some .gwin => 6
  | some .glen => 6
  | some (.aord _) => 8
  | some (.dord _) => 8
  | some (.eord _) => 8
  | some (.gord _) => 8
  | some .cmd => 64
  | some .status => 64
  | some .finfo => 64
  | some .result => 64
  | none => 64

/-- The bytes of a memory (R35). -/
def memSize (p : Params) : MemId → Nat
  | .src => 2 ^ p.aw
  | .dst => 2 ^ p.aw
  | .cin => cphysBytes
  | .cmb => csamples
  | .cout => cphysBytes

/-- Why a transaction cannot be presented at all, if it cannot: a value that does not fit the register's port (R29), an
address outside the memory (R61). The model stops there (log 8). -/
def presentationFault (p : Params) : Txn → Option Fault
  | .regWrite n v => if v.toNat < 2 ^ portWidth p n then none else some (.valueWiderThanPort n)
  | .regRead _ => none
  | .memWrite m a _ => if a < memSize p m then none else some (.addressOutsideMemory m a)
  | .memRead m a => if a < memSize p m then none else some (.addressOutsideMemory m a)
  | .cmd _ => none
  | .reset => none

/-- What the host can present (R29, R61). -/
def presentable (p : Params) (t : Txn) : Bool := (presentationFault p t).isNone

end Sys2Proof.Machine
end

