-- ==== Sys2Proof/Machine/Flags.lean ====
section
/-! DEFINITION. The status bits. The block has no condition codes (10_state.md R24); the only flags are the fields of
`STATUS` (R26) and the `fault` output (60_exceptions.md R276). -/

namespace Sys2Proof.Machine

/-- The value of `STATUS.PHASE` (R25). -/
def Phase.code : Phase → BitVec 2
  | .config => 0
  | .run => 1
  | .fault => 2

/-- The value of `STATUS.ERR` (R261). -/
def ErrCode.code : ErrCode → BitVec 4
  | .none => 0
  | .configurationError => 1
  | .loadError => 2
  | .saveError => 3
  | .outOfRangeError => 4
  | .physRangeError => 5
  | .illegalCommandError => 6

/-- `STATUS.RVALID` is the written mark of `RESULT` (R21, R26). -/
def State.rvalid (s : State) : Bool := s.result.written

/-- The 32-bit `STATUS` word (R26): reserved 31:16, `FOP` 15:8, `ERR` 7:4, reserved 3, `RVALID` 2, `PHASE` 1:0. -/
def State.statusWord (s : State) : Word :=
  (0#16 ++ (s.fop ++ (s.err.code ++ (0#1 ++ (BitVec.ofBool s.rvalid ++ s.phase.code))))  : BitVec 32)

/-- The level output `fault`, equal to (`STATUS.ERR` ≠ 0) (R276). -/
def State.faultOutput (s : State) : Bool := decide (s.err.code ≠ 0#4)

end Sys2Proof.Machine
end

