-- ==== Sys2Proof/Machine/Ops.lean ====
section
/-! DEFINITION. The named operations over memories and registers, fault entry, and `Reset`, the one way out of a
fault. -/

namespace Sys2Proof.Machine

/-- The byte written at address `a` since reset, if any. -/
def Memory.lookup : Memory → Nat → Option Byte
  | [], _ => none
  | c :: m, a => if c.1 = a then some c.2 else Memory.lookup m a

/-- The bytes `bs` as cells at consecutive addresses from `lo`. -/
def Memory.cellsFrom : Nat → List Byte → Memory
  | _, [] => []
  | lo, b :: bs => (lo, b) :: Memory.cellsFrom (lo + 1) bs

/-- Writes the bytes `bs` at the addresses from `lo` on, each byte its own one-byte write (R62, R64), and no other. -/
def Memory.writeBlock (m : Memory) (lo : Nat) (bs : List Byte) : Memory :=
  m.filter (fun c => decide (c.1 < lo)) ++
    (Memory.cellsFrom lo bs ++ m.filter (fun c => decide (lo + bs.length ≤ c.1)))

/-- One of the five memories (R35). -/
def State.mem (s : State) : MemId → Memory
  | .src => s.src
  | .dst => s.dst
  | .cin => s.cin
  | .cmb => s.cmb
  | .cout => s.cout

/-- The state with one memory replaced. -/
def State.setMem (s : State) (m : MemId) (v : Memory) : State :=
  match m with
  | .src => { s with src := v }
  | .dst => { s with dst := v }
  | .cin => { s with cin := v }
  | .cmb => { s with cmb := v }
  | .cout => { s with cout := v }

/-- Reads one byte; a byte nothing has written since reset is a free value, the same at every read (R65; log 2). -/
def State.readByte (s : State) (m : MemId) (a : Nat) : Byte :=
  ((s.mem m).lookup a).getD (Config.powerOnByte s.epoch m a)

/-- Writes bytes at consecutive addresses of one memory. -/
def State.writeBytes (s : State) (m : MemId) (lo : Nat) (bs : List Byte) : State :=
  s.setMem m ((s.mem m).writeBlock lo bs)

/-- `RESULT <- v`, which sets `RVALID` (R21, R22). -/
def State.setResult (s : State) (v : Word) : State := { s with result := ⟨v, true⟩ }

/-- The value of a register with a written mark, zero-extended; none when the mark is clear (R21, R38). -/
def readMarked {w : Nat} (r : Reg w) : Option Word :=
  if r.written then some (r.val.setWidth 32) else none

/-- The value `RegRead` returns for a register (R37), or none where it holds none (R38). `CMD` is write-only (R28). -/
def State.readReg (s : State) : RegId → Option Word
  | .cmd => none
  | .status => some s.statusWord
  | .finfo => some s.finfo
  | .result => readMarked s.result
  | .amask => readMarked s.amask
  | .bussize => readMarked s.bussize
  | .srclen => readMarked s.srclen
  | .dctl => readMarked s.dctl
  | .cmode => readMarked s.cmode
  | .gwin => readMarked s.gwin
  | .glen => readMarked s.glen
  | .aord k => readMarked s.aord[k]
  | .dord k => readMarked s.dord[k]
  | .eord k => readMarked s.eord[k]
  | .gord k => readMarked s.gord[k]

/-- A register that has just been written: it takes the value and its written mark is set (R36). -/
def Reg.write {w : Nat} (v : BitVec 64) : Reg w := ⟨v.setWidth w, true⟩

/-- The configuration register takes the value and its written mark is set (R36). The other registers are not
written. -/
def State.writeReg (s : State) (r : RegId) (v : BitVec 64) : State :=
  match r with
  | .cmd => s
  | .status => s
  | .finfo => s
  | .result => s
  | .amask => { s with amask := Reg.write v }
  | .bussize => { s with bussize := Reg.write v }
  | .srclen => { s with srclen := Reg.write v }
  | .dctl => { s with dctl := Reg.write v }
  | .cmode => { s with cmode := Reg.write v }
  | .gwin => { s with gwin := Reg.write v }
  | .glen => { s with glen := Reg.write v }
  | .aord k => { s with aord := s.aord.set k (Reg.write v) }
  | .dord k => { s with dord := s.dord.set k (Reg.write v) }
  | .eord k => { s with eord := s.eord.set k (Reg.write v) }
  | .gord k => { s with gord := s.gord.set k (Reg.write v) }

/-- What `raise E(info)` carries (R10). -/
structure Raise where
  err : ErrCode
  info : Word
deriving DecidableEq, Repr

/-- The `info` of a `ConfigurationError`: sub-code, register number, entry index, entry value (R262). -/
def configInfo (sub reg k value : BitVec 8) : Word := (sub ++ (reg ++ (k ++ value)) : BitVec 32)

/-- `raise IllegalCommandError`: sub-code in bits 31:24, detail in bits 23:0 (R262, R266). -/
def illegalCommand (sub : BitVec 8) (detail : BitVec 24) : Raise :=
  ⟨.illegalCommandError, (sub ++ detail : BitVec 32)⟩

/-- Fault entry (R270): `ERR`, `FOP`, `FINFO` and `PHASE` are written and nothing else. `fop` is the `OP` byte of the
command, or 0xFF when the transaction is not a command. -/
def State.raise (s : State) (fop : BitVec 8) (r : Raise) : State :=
  { s with phase := .fault, err := r.err, fop := fop, finfo := r.info }

/-- The `Reset` transaction (R300 to R303), the only way out of `FAULT` (R273): nothing of the block's state survives;
the model's arguments, the transactions still to come and the values already returned are not the block's. -/
def State.doReset (s : State) : State :=
  { State.afterReset s.params (s.epoch + 1) with pending := s.pending, replies := s.replies }

/-- The state with `v` returned to the host (log 5). -/
def State.reply (s : State) (v : Reply) : State := { s with replies := v :: s.replies }

/-- How a command word that has matched a row is taken (R96, steps 1, 3 and 4): ignored in `FAULT`; sub-code 2 with the
`OP` byte when `PHASE` is not the row's phase; else the command's own rule. -/
def inPhase (legal : Phase) (op : BitVec 8) (s : State)
    (body : Host.Outcome State Fault Refusal) : Host.Outcome State Fault Refusal :=
  if s.phase = .fault then .next s
  else if s.phase ≠ legal then .next (s.raise op (illegalCommand 2 (op.setWidth 24)))
  else body

end Sys2Proof.Machine
end

