-- ==== Sys2Proof/Machine/Color.lean ====
section
/-! DEFINITION. CPU4, the colour-plane unit (44_color.md R215 to R228): one operation per step of the source's
repacker, a command for each, and the three together. -/

namespace Sys2Proof.Machine

/-- The physical index `(i and 0x3F) or ((i and 0x20) << 1)` (R215). -/
def cphys (i : Nat) : Nat := (i &&& 0x3F) ||| ((i &&& 0x20) <<< 1)

/-- `low4(b)`: bits 3:0 (R216). -/
def low4 (b : Byte) : BitVec 4 := b.extractLsb' 0 4

/-- `high4(b)`: bits 7:4 (R216). -/
def high4 (b : Byte) : BitVec 4 := b.extractLsb' 4 4

/-- The nibble of a high-plane byte that carries the sample: bits 7:4, or bits 3:0 when `HP_LOW` (R216, R228). -/
def highSample (hpLow : Bool) (b : Byte) : BitVec 4 := if hpLow then low4 b else high4 b

/-- The high-plane byte that carries a nibble, its other nibble 0: bits 7:4, or bits 3:0 when `HP_LOW` (R221, R228). -/
def highPlaneByte (hpLow : Bool) (n : BitVec 4) : Byte := if hpLow then 0#4 ++ n else n ++ 0#4

/-- `combined(i)` (R216): the low nibble of the low-plane byte and the sample of the high-plane byte. -/
def combined (s : State) (i : Nat) : Byte :=
  highSample s.params.hpLow (s.readByte .cin (cphys i + 0x100)) ++ low4 (s.readByte .cin (cphys i))

/-- Step 1, delinearize: `CMB[i] <- combined(i)` for i in 0 .. 255 (R217). -/
def delinearize (s : State) : State := s.writeBytes .cmb 0 ((List.range csamples).map (combined s))

/-- Step 2, narrowing: when `NARROW` = 1, `CMB[0x20 .. 0x5F]` and `CMB[0x80 .. 0xFF]` become 0 (R219). -/
def narrowing (s : State) : State :=
  if s.narrow then
    (s.writeBytes .cmb 0x20 (List.replicate 0x40 0#8)).writeBytes .cmb 0x80 (List.replicate 0x80 0#8)
  else s

/-- The low-plane byte of entry i: its low nibble, high nibble 0 (R221). -/
def lowPlaneOf (s : State) (i : Nat) : Byte := 0#4 ++ low4 (s.readByte .cmb i)

/-- The high-plane byte of entry i: its high nibble, the other nibble 0 (R221, R228). -/
def highPlaneOf (s : State) (i : Nat) : Byte := highPlaneByte s.params.hpLow (high4 (s.readByte .cmb i))

/-- Step 3, re-split: `COUT[i]` and `COUT[i + 256]` from entry i, not address-permuted (R221, R222, R223). -/
def resplit (s : State) : State :=
  s.writeBytes .cout 0
    ((List.range csamples).map (lowPlaneOf s) ++ (List.range csamples).map (highPlaneOf s))

/-- `CDELIN` (R217). -/
def execCdelin (s : State) : Host.Outcome State Fault Refusal :=
  inPhase .run 0x30 s (.next (delinearize s))

/-- `CNARROW` (R219). -/
def execCnarrow (s : State) : Host.Outcome State Fault Refusal :=
  inPhase .run 0x31 s (.next (narrowing s))

/-- `CSPLIT` (R222). -/
def execCsplit (s : State) : Host.Outcome State Fault Refusal :=
  inPhase .run 0x32 s (.next (resplit s))

/-- `CREPACK` (R224): the three steps in order, each complete before the next. -/
def execCrepack (s : State) : Host.Outcome State Fault Refusal :=
  inPhase .run 0x33 s (.next (resplit (narrowing (delinearize s))))

end Sys2Proof.Machine
end

