-- ==== Sys2Proof/Machine/Commit.lean ====
section
/-! DEFINITION. `COMMIT` and its six checks in order (45_control.md R240 to R246). A check answers the `info` of the
`ConfigurationError` it raises, or none when it passes. -/

namespace Sys2Proof.Machine

/-- Check 1 (R241): the first unwritten scalar, in ascending register number. -/
def checkScalarsWritten (s : State) : Option Word :=
  [(0x10#8, s.amask.written), (0x11#8, s.bussize.written), (0x12#8, s.srclen.written), (0x13#8, s.dctl.written),
    (0x14#8, s.cmode.written), (0x15#8, s.gwin.written), (0x16#8, s.glen.written)].findSome?
    (fun r => if r.2 then none else some (configInfo 1 r.1 0 0))

/-- Check 2 (R242): `GWIN` and `GLEN` are at most `WMAX` = 32. -/
def checkGeneralShape (s : State) : Option Word :=
  if wmax < s.gwin.val.toNat then some (configInfo 3 0x15 0 0)
  else if wmax < s.glen.val.toNat then some (configInfo 3 0x16 0 0)
  else none

/-- Check 3 (R243): `BUSSIZE` and `SRCLEN` are at most 2^AW. -/
def checkSizes (s : State) : Option Word :=
  if 2 ^ s.params.aw < s.bussize.val.toNat then some (configInfo 4 0x11 0 0)
  else if 2 ^ s.params.aw < s.srclen.val.toNat then some (configInfo 4 0x12 0 0)
  else none

/-- An ordering entry a check looks at: its register number, its index in its slot, its slot's input width and its
register. -/
structure Entry where
  number : BitVec 8
  index : Nat
  win : Nat
  reg : Reg 8
deriving DecidableEq, Repr

/-- The first `n` entries of a slot whose entry 0 is register `base` and whose input width is `win`. -/
def slotEntries (base win n : Nat) (regs : List (Reg 8)) : List Entry :=
  (regs.take n).zipIdx.map (fun r => ⟨BitVec.ofNat 8 (base + r.2), r.2, win, r.1⟩)

/-- The required entries in ascending register number (R244): `AORD[0 .. AW−1]`, `DORD`, `EORD` when `DSHARE` = 0,
`GORD[0 .. GLEN−1]`. -/
def requiredEntries (s : State) : List Entry :=
  slotEntries 0x20 s.params.aw s.params.aw s.aord.toList ++
    (slotEntries 0x40 8 8 s.dord.toList ++
      ((if s.dshare then [] else slotEntries 0x48 8 8 s.eord.toList) ++
        slotEntries 0x60 s.gwin.val.toNat s.glen.val.toNat s.gord.toList))

/-- Check 4 (R244): the first required entry that is unwritten. -/
def checkEntriesWritten (s : State) : Option Word :=
  (requiredEntries s).findSome? (fun e => if e.reg.written then none else some (configInfo 1 e.number 0 0))

/-- Check 5 (R245): the first required entry that is not below its slot's input width. -/
def checkIndexRange (s : State) : Option Word :=
  (requiredEntries s).findSome?
    (fun e => if e.reg.val.toNat < e.win then none
      else some (configInfo 2 e.number (BitVec.ofNat 8 e.index) e.reg.val))

/-- Check 6 (R246): when `DSHARE` = 1, `DORD[7 − DORD[j]]` = 7 − j for j = 0 .. 7 ascending. -/
def checkSelfInverse (s : State) : Option Word :=
  if s.dshare then
    (List.range 8).findSome?
      (fun j => if s.decodeOrdering.getD (7 - s.decodeOrdering.getD j 0) 0 = 7 - j then none
        else some (configInfo 5 (BitVec.ofNat 8 (0x40 + j)) (BitVec.ofNat 8 j)
          (BitVec.ofNat 8 (s.decodeOrdering.getD j 0))))
  else none

/-- The `info` of the first check that fails, or none when all pass (R240, R275). -/
def configurationDefect (s : State) : Option Word :=
  [checkScalarsWritten s, checkGeneralShape s, checkSizes s, checkEntriesWritten s, checkIndexRange s,
    checkSelfInverse s].findSome? id

/-- `COMMIT` (R240): `PHASE <- RUN` when every check passes, else `ConfigurationError` from the first that fails. -/
def execCommit (s : State) : Host.Outcome State Fault Refusal :=
  inPhase .config 0x01 s
    (match configurationDefect s with
      | none => .next { s with phase := .run }
      | some info => .next (s.raise 0x01 ⟨.configurationError, info⟩))

end Sys2Proof.Machine
end

