-- ==== Sys2Proof/Machine/Permute.lean ====
section
/-! DEFINITION. PERM's command, `PERMUTE` (40_permute.md R124). -/

namespace Sys2Proof.Machine

/-- `permute(val[win−1:0], o)` zero-extended to 32 bits, for the slot selected (R121, R122, R124). -/
def permuteResult (s : State) (sel : Slot) (val : Word) : Word :=
  permuteTo 32 (val.setWidth (s.slotOperand sel).1) (s.slotOperand sel).2

/-- `PERMUTE sel, val` (R124). `SEL` = 2 while `DSHARE` = 1 raises `IllegalCommandError` sub-code 3, whose detail is
the word's low 24 bits, 0x000210 (R266). -/
def execPermute (sel : Slot) (val : Word) (s : State) : Host.Outcome State Fault Refusal :=
  inPhase .run 0x10 s
    (if sel = .eord ∧ s.dshare = true then .next (s.raise 0x10 (illegalCommand 3 0x000210))
     else .next (s.setResult (permuteResult s sel val)))

end Sys2Proof.Machine
end

