-- ==== Sys2Proof/Machine/Scheme.lean ====
section
/-! DEFINITION. APIPE and DXBAR: the encoding-scheme path (41_scheme.md R140 to R148), its two single-address commands
and the two whole-buffer sweeps (43_reencode.md R200 to R206). -/

namespace Sys2Proof.Machine

/-- Stages 2 and 3 of APIPE: `permute(la[AW−1:0] xor AMASK, AORD)`, the scrambled (physical) address (R142, R143). -/
def physicalAddress (s : State) (la : Word) : Nat :=
  (permute (la.setWidth s.params.aw ^^^ s.amask.val.setWidth s.params.aw) s.addressOrdering).toNat

/-- `scramble(la)` (R148): the logical range check (R141), the mask, the address ordering, then the physical range
check (R144). -/
def scramble (s : State) (la : Word) : Except Raise Nat :=
  if s.bussize.val.toNat ≤ la.toNat then .error ⟨.outOfRangeError, la⟩
  else if s.srclen.val.toNat ≤ physicalAddress s la then .error ⟨.physRangeError, la⟩
  else .ok (physicalAddress s la)

/-- The fetch and DXBAR (R145): the byte of `SRC` at the scrambled address, through a data ordering. -/
def fetchThrough (s : State) (o : List Nat) (la : Word) : Except Raise Byte :=
  match scramble s la with
  | .error r => .error r
  | .ok pa => .ok (permuteTo 8 (s.readByte .src pa) o)

/-- `dec(la)` (R148). -/
def decByte (s : State) (la : Word) : Except Raise Byte := fetchThrough s s.decodeOrdering la

/-- `enc(la)` (R148). -/
def encByte (s : State) (la : Word) : Except Raise Byte := fetchThrough s s.encodeOrdering la

/-- `RESULT <- zext_32(byte)`, or fault entry with the raise (R146, R147). -/
def returnByte (s : State) (op : BitVec 8) (r : Except Raise Byte) : State :=
  match r with
  | .error e => s.raise op e
  | .ok b => s.setResult (b.setWidth 32)

/-- `DECODE la` (R146). -/
def execDecode (la : Word) (s : State) : Host.Outcome State Fault Refusal :=
  inPhase .run 0x20 s (.next (returnByte s 0x20 (decByte s la)))

/-- `ENCODE la` (R147). -/
def execEncode (la : Word) (s : State) : Host.Outcome State Fault Refusal :=
  inPhase .run 0x21 s (.next (returnByte s 0x21 (encByte s la)))

/-- The bytes of `n` indices from `i` on, in ascending order, or what the least raising index raises (R203, R204;
log 10). -/
def sweepBytes (path : Word → Except Raise Byte) (i : Nat) : Nat → Except Raise (List Byte)
  | 0 => .ok []
  | n + 1 =>
    match path (BitVec.ofNat 32 i) with
    | .error r => .error r
    | .ok b =>
      match sweepBytes path (i + 1) n with
      | .error r => .error r
      | .ok bs => .ok (b :: bs)

/-- `DST[0 .. SRCLEN−1]` after a sweep that faulted: unspecified bytes (R204; log 3). -/
def unspecifiedDst (s : State) (op : BitVec 8) : List Byte :=
  (List.range s.srclen.val.toNat).map (Config.sweepFaultByte s.epoch op)

/-- A sweep: `DST[i] <- path(i)` for every i below `SRCLEN`, or one fault entry with what the least raising index
raises, after which `DST[0 .. SRCLEN−1]` is unspecified (R200, R201, R204). -/
def sweep (s : State) (op : BitVec 8) (path : Word → Except Raise Byte) : State :=
  match sweepBytes path 0 s.srclen.val.toNat with
  | .ok bs => s.writeBytes .dst 0 bs
  | .error r => (s.writeBytes .dst 0 (unspecifiedDst s op)).raise op r

/-- `DECSW` (R201). -/
def execDecsw (s : State) : Host.Outcome State Fault Refusal :=
  inPhase .run 0x28 s (.next (sweep s 0x28 (decByte s)))

/-- `REENC` (R200). -/
def execReenc (s : State) : Host.Outcome State Fault Refusal :=
  inPhase .run 0x29 s (.next (sweep s 0x29 (encByte s)))

end Sys2Proof.Machine
end

