-- ==== Sys2Proof/Machine/Dispatch.lean ====
section
/-! DEFINITION. `exec`: one arm per command of the opcode table (30_encoding.md R95). -/

namespace Sys2Proof.Machine

def exec (i : Instr) (s : State) : Host.Outcome State Fault Refusal :=
  match i with
  | .commit => Sys2Proof.Machine.execCommit s
  | .permute sel val => Sys2Proof.Machine.execPermute sel val s
  | .decode la => Sys2Proof.Machine.execDecode la s
  | .encode la => Sys2Proof.Machine.execEncode la s
  | .decsw => Sys2Proof.Machine.execDecsw s
  | .reenc => Sys2Proof.Machine.execReenc s
  | .cdelin => Sys2Proof.Machine.execCdelin s
  | .cnarrow => Sys2Proof.Machine.execCnarrow s
  | .csplit => Sys2Proof.Machine.execCsplit s
  | .crepack => Sys2Proof.Machine.execCrepack s

end Sys2Proof.Machine
end

