-- ==== Sys2Proof/Machine/Transactions.lean ====
section
/-! DEFINITION. The six host transactions (00_scope.md R11), each whole in one step (20_memory.md R70), by phase
(60_exceptions.md R280). -/

namespace Sys2Proof.Machine

/-- `Cmd(w)` (R96): ignored in `FAULT`; a word that matches no row raises sub-code 1 with the word's low 24 bits, `FOP`
its low 8; else the command runs. -/
def runCmd (w : CmdWord) (s : State) : Host.Outcome State Fault Refusal :=
  if s.phase = .fault then .next s
  else
    match decode w with
    | .error _ => .next (s.raise (opField w) (illegalCommand 1 (w.extractLsb' 0 24)))
    | .ok i => exec i s

/-- `RegWrite(n, v)` (R28, R36): `CMD` executes the command; a configuration register is written in `CONFIG`; any other
write outside `FAULT` raises sub-code 4 with the number, `FOP` = 0xFF (R266). -/
def runRegWrite (n : BitVec 8) (v : BitVec 64) (s : State) : Host.Outcome State Fault Refusal :=
  match regOfNumber s.params n with
  | some .cmd => runCmd v s
  | some r =>
    if s.phase = .fault then .next s
    else if r.isConfig = true ∧ s.phase = .config then .next (s.writeReg r v)
    else .next (s.raise 0xFF (illegalCommand 4 (n.setWidth 24)))
  | none =>
    if s.phase = .fault then .next s
    else .next (s.raise 0xFF (illegalCommand 4 (n.setWidth 24)))

/-- `RegRead(n)` of a number that names no register, or of `CMD` (R39, R266): sub-code 5 with the number; in `FAULT` it
is ignored and returns no value, which a model refuses. -/
def readNoRegister (n : BitVec 8) (s : State) : Host.Outcome State Fault Refusal :=
  if s.phase = .fault then .refused (.noRegisterInFault n)
  else .next (s.raise 0xFF (illegalCommand 5 (n.setWidth 24)))

/-- `RegRead(n)` (R37 to R39): the value, with no change of the block's state; an existing unwritten register has no
result and is refused. -/
def runRegRead (n : BitVec 8) (s : State) : Host.Outcome State Fault Refusal :=
  match regOfNumber s.params n with
  | none => readNoRegister n s
  | some .cmd => readNoRegister n s
  | some r =>
    match s.readReg r with
    | some v => .next (s.reply (.reg v))
    | none => .refused (.unwrittenRegister n)

/-- `MemWrite(m, a, b)` (R61): stored in `CONFIG` and `RUN`, ignored in `FAULT`. -/
def runMemWrite (m : MemId) (a : Nat) (b : Byte) (s : State) : Host.Outcome State Fault Refusal :=
  if s.phase = .fault then .next s else .next (s.writeBytes m a [b])

/-- `MemRead(m, a)` (R61): the byte, in any phase; no state of the block changes. -/
def runMemRead (m : MemId) (a : Nat) (s : State) : Host.Outcome State Fault Refusal :=
  .next (s.reply (.byte (s.readByte m a)))

/-- What a transaction does once it is presented. -/
def runPresented (t : Txn) (s : State) : Host.Outcome State Fault Refusal :=
  match t with
  | .regWrite n v => runRegWrite n v s
  | .regRead n => runRegRead n s
  | .memWrite m a b => runMemWrite m a b s
  | .memRead m a => runMemRead m a s
  | .cmd w => runCmd w s
  | .reset => .next s.doReset

/-- One host transaction, from beginning to end (R70); one that cannot be presented stops the model (log 8). -/
def runTxn (t : Txn) (s : State) : Host.Outcome State Fault Refusal :=
  match presentationFault s.params t with
  | some f => .fault f
  | none => runPresented t s

/-- The next transaction of the host, if one is pending; the block executes nothing until the host sends one (R304;
log 4). -/
def takeTxn (s : State) : Host.Outcome State Fault Refusal :=
  match s.pending with
  | [] => .next s
  | t :: rest => runTxn t { s with pending := rest }

/-- Puts a transaction where the next step takes it, before those already pending. -/
def State.withNextTxn (s : State) (t : Txn) : State := { s with pending := t :: s.pending }

/-- The host's transactions in order, stopping at the first that does not answer a next state. -/
def runTxns : List Txn → State → Host.Outcome State Fault Refusal
  | [], s => .next s
  | t :: ts, s =>
    match runTxn t s with
    | .next s' => runTxns ts s'
    | .fault r => .fault r
    | .refused r => .refused r

end Sys2Proof.Machine
end

