-- ==== Sys2Proof/Machine/Step.lean ====
section
/-! DEFINITION. One step of the machine: one host transaction (20_memory.md R70; log 4). -/

namespace Sys2Proof.Machine

def step (s : State) : Host.Outcome State Fault Refusal := takeTxn s

/-- `s` with the command word `w`, its bits above `nbits` zero, as the next transaction: `Cmd(w)` (R90; log 4). Nothing
else changes: a command is taken from the `Cmd` transaction itself (R74). -/
def State.withFetchWord (s : State) (nbits w : Nat) : State := s.withNextTxn (.cmd (tableWord nbits w))

end Sys2Proof.Machine
end

