-- ==== Sys2Proof/Machine/Layout.lean ====
section
/-! DEFINITION. The host side (42_host_layout.md): buses, chip slots, layouts, the load of a bus into a buffer and the
save of a buffer to named files. It is not hardware; it is the software that fills and drains the block's memories. -/

namespace Sys2Proof.Machine

/-- The seven roles of a Bus, the whole enumeration (R170). -/
inductive Role where
  | programROM
  | tileROM
  | objectROM
  | tileColorPROM
  | backgroundColorPROM
  | objectColorPROM
  | timingPROM
deriving DecidableEq, Repr

/-- A chip slot is a name: a non-empty name is a file reference, and the empty name means "not populated" in the first
slot and "duplicate of previous device" elsewhere (R171). -/
abbrev ChipSlot := String

/-- A Bus (R170). -/
structure Bus where
  role : Role
  chipSize : Nat
  slots : List ChipSlot
deriving DecidableEq, Repr

/-- "total logical bus size = per-chip size × slot count" (R172). -/
def Bus.size (b : Bus) : Nat := b.chipSize * b.slots.length

/-- A Layout: an ordered set of Bus entries, keyed by role, so no role has two of them (R173). A layout need not have a
bus for every role. -/
structure Layout where
  buses : List Bus
  oneBusPerRole : (buses.map Bus.role).Nodup
deriving DecidableEq, Repr

/-- The bus of a role, if the layout has one (R173). -/
def Layout.bus (l : Layout) (r : Role) : Option Bus := l.buses.find? (fun b => decide (b.role = r))

/-- A named file and its bytes. -/
abbrev NamedFile := String × List Byte

/-- The host's errors (R185): a missing or short source file, and a write that cannot complete. -/
inductive HostError where
  | loadError (name : String)
  | saveError (name : String)
deriving DecidableEq, Repr

/-- The code of a host error (60_exceptions.md R261). -/
def HostError.code : HostError → BitVec 4
  | .loadError _ => ErrCode.code .loadError
  | .saveError _ => ErrCode.code .saveError

/-- Replaces the bytes of a buffer from `off` on by `bs`. -/
def overlay (buf : List Byte) (off : Nat) (bs : List Byte) : List Byte :=
  buf.take off ++ (bs ++ buf.drop (off + bs.length))

/-- One slot of the walk, at offset `off`: the first of the four cases that applies (R174): the all-ones window (R175), a
file reference (R177), an empty name at offset 0 (R177), an empty name elsewhere (R178). -/
def loadSlot (files : List NamedFile) (ffwinOff : Option Nat) (b : Bus) (off : Nat) (slot : ChipSlot)
    (buf : List Byte) : Except HostError (List Byte) :=
  if b.role = .programROM ∧ ffwinOff = some off then .ok (overlay buf off (List.replicate b.chipSize 0xFF#8))
  else if slot ≠ "" then
    match files.lookup slot with
    | none => .error (.loadError slot)
    | some bs =>
      if bs.length < b.chipSize then .error (.loadError slot)
      else .ok (overlay buf off (bs.take b.chipSize))
  else if off = 0 then .ok buf
  else .ok (overlay buf off ((buf.drop (off - b.chipSize)).take b.chipSize))

/-- The walk over the chip slots in declared order, from slot number `k` (R174, R179). -/
def loadSlots (files : List NamedFile) (ffwinOff : Option Nat) (b : Bus) :
    Nat → List ChipSlot → List Byte → Except HostError (List Byte)
  | _, [], buf => .ok buf
  | k, slot :: rest, buf =>
    match loadSlot files ffwinOff b (k * b.chipSize) slot buf with
    | .error e => .error e
    | .ok buf' => loadSlots files ffwinOff b (k + 1) rest buf'

/-- The load of one Bus: a zero-filled BusBuffer of the declared total size, then the walk (R174). -/
def loadBus (files : List NamedFile) (ffwinOff : Option Nat) (b : Bus) : Except HostError (List Byte) :=
  loadSlots files ffwinOff b 0 b.slots (List.replicate b.size 0#8)

/-- The load of buses one after another; the first LoadError stops it (R177). -/
def loadBuses (files : List NamedFile) (ffwinOff : Option Nat) :
    List Bus → Except HostError (List (Role × List Byte))
  | [] => .ok []
  | b :: rest =>
    match loadBus files ffwinOff b with
    | .error e => .error e
    | .ok buf =>
      match loadBuses files ffwinOff rest with
      | .error e => .error e
      | .ok bufs => .ok ((b.role, buf) :: bufs)

/-- The load of a Layout: every bus, in order (R183 step 2). -/
def loadLayout (files : List NamedFile) (ffwinOff : Option Nat) (l : Layout) :
    Except HostError (List (Role × List Byte)) := loadBuses files ffwinOff l.buses

/-- Why a save stops: a host error, or a window past the buffer's end, which a model refuses (U6). -/
inductive SaveStop where
  | hostError (e : HostError)
  | windowPastEnd (name : String)
deriving DecidableEq, Repr

/-- One save after another: the files of both, in order, or the first stop. A save that stops leaves no file: "any I/O failure
is fatal and aborts the whole run before any output file is written" (R185). -/
def saveThen (r q : Except SaveStop (List NamedFile)) : Except SaveStop (List NamedFile) :=
  match r, q with
  | .error e, _ => .error e
  | .ok _, .error e => .error e
  | .ok fs, .ok gs => .ok (fs ++ gs)

/-- One slot of the save, at offset `off` (R180): the file to write under the prefix, none for an empty reference or an offset
past the buffer's end, or why the save stops. A write to a name in `unwritable` cannot complete. -/
def saveSlot (pre : String) (unwritable : List String) (chipSize : Nat) (buf : List Byte) (off : Nat)
    (slot : ChipSlot) : Except SaveStop (List NamedFile) :=
  if slot = "" ∨ buf.length ≤ off then .ok []
  else if buf.length < off + chipSize then .error (.windowPastEnd (pre ++ slot))
  else if unwritable.contains (pre ++ slot) then .error (.hostError (.saveError (pre ++ slot)))
  else .ok [(pre ++ slot, (buf.drop off).take chipSize)]

/-- The save of slots in declared order, from slot number `k` (R180): the files it writes, in order, or the first stop. -/
def saveSlots (pre : String) (unwritable : List String) (chipSize : Nat) (buf : List Byte) :
    Nat → List ChipSlot → Except SaveStop (List NamedFile)
  | _, [] => .ok []
  | k, slot :: rest =>
    saveThen (saveSlot pre unwritable chipSize buf (k * chipSize) slot)
      (saveSlots pre unwritable chipSize buf (k + 1) rest)

/-- The save of one Bus of the target layout (R180). -/
def saveBus (pre : String) (unwritable : List String) (b : Bus) (buf : List Byte) :
    Except SaveStop (List NamedFile) := saveSlots pre unwritable b.chipSize buf 0 b.slots

/-- The save of buses one after another: each takes the buffer of its role (R173). A bus whose role has no buffer is not
written: DESIGN CHOICE (log 13). -/
def saveBuses (pre : String) (unwritable : List String) (bufs : List (Role × List Byte)) :
    List Bus → Except SaveStop (List NamedFile)
  | [] => .ok []
  | b :: rest =>
    saveThen (((bufs.lookup b.role).map (saveBus pre unwritable b)).getD (.ok []))
      (saveBuses pre unwritable bufs rest)

/-- The save of the target layout: every bus, in order (R183 step 7). -/
def saveLayout (pre : String) (unwritable : List String) (bufs : List (Role × List Byte)) (l : Layout) :
    Except SaveStop (List NamedFile) := saveBuses pre unwritable bufs l.buses

end Sys2Proof.Machine
end

