-- ==== Sys2Proof/Machine/Script.lean ====
section
/-! DEFINITION. The script notation's lines and pseudo-instructions as lists of transactions (30_encoding.md R98 to
R101), and an encoding scheme as configuration data (R99, 41_scheme.md R152, R154). -/

namespace Sys2Proof.Machine

/-- `WR <reg>, <value>` (R100). A value of 2^64 or more fits no port (R29), so the spec has no such line; here it is taken
modulo 2^64: DESIGN CHOICE (log 14). -/
def wr (r : RegId) (v : Nat) : Txn := .regWrite (numberOfReg r) (BitVec.ofNat 64 v)

/-- `RD <reg>` (R100). -/
def rd (r : RegId) : Txn := .regRead (numberOfReg r)

/-- A command line of the script: `Cmd(w)` with the command's word (R100). -/
def cmdLine (i : Instr) : Txn := .cmd (encode i)

/-- The register number of entry 0 of a slot (R98). -/
def slotBase : Slot → Nat
  | .aord => 0x20
  | .dord => 0x40
  | .eord => 0x48
  | .gord => 0x60

/-- `ORD <slot>, [o0, ..., o(n−1)]`: ascending k (R98, R101). The spec has no line with more entries than its slot has
registers, or an entry of 2^64 or more; here register numbers go on counting modulo 256, into the registers that follow the
slot, and a value is taken modulo 2^64: DESIGN CHOICE (log 14). -/
def ordTxns (slot : Slot) (o : List Nat) : List Txn :=
  o.zipIdx.map (fun e => .regWrite (BitVec.ofNat 8 (slotBase slot + e.2)) (BitVec.ofNat 64 e.1))

/-- `GNONE` (R101). -/
def gnoneTxns : List Txn := [wr .gwin 0, wr .glen 0]

/-- `GORDER <win>, [o0, ..., o(n−1)]` (R101). -/
def gorderTxns (win : Nat) (o : List Nat) : List Txn := wr .gwin win :: wr .glen o.length :: ordTxns .gord o

/-- `SCHEME_NO` (R101). -/
def schemeNoTxns (aw : Nat) : List Txn :=
  ordTxns .aord (identityOrdering aw) ++ (wr .amask 0 :: (ordTxns .dord (identityOrdering 8) ++ [wr .dctl 1]))

/-- `SIZES <n>` (R101). -/
def sizesTxns (n : Nat) : List Txn := [wr .bussize n, wr .srclen n]

/-- `FILL <mem>, <addr>, [b0, b1, ...]` (R101). -/
def fillTxns (m : MemId) (a : Nat) (bs : List Byte) : List Txn :=
  bs.zipIdx.map (fun b => .memWrite m (a + b.2) b.1)

/-- A line of the script: a line of R100, or a pseudo-instruction of R101. A command line carries its instruction. -/
inductive ScriptLine where
  | wr (r : RegId) (v : Nat)
  | rd (r : RegId)
  | mw (m : MemId) (a : Nat) (b : Byte)
  | mr (m : MemId) (a : Nat)
  | command (i : Instr)
  | reset
  | ord (slot : Slot) (o : List Nat)
  | gnone
  | gorder (win : Nat) (o : List Nat)
  | schemeNo
  | sizes (n : Nat)
  | fill (m : MemId) (a : Nat) (bs : List Byte)
deriving DecidableEq, Repr

/-- The transactions a line stands for, for an address width `aw` (R100, R101). -/
def lineTxns (aw : Nat) : ScriptLine → List Txn
  | .wr r v => [Sys2Proof.Machine.wr r v]
  | .rd r => [Sys2Proof.Machine.rd r]
  | .mw m a b => [.memWrite m a b]
  | .mr m a => [.memRead m a]
  | .command i => [cmdLine i]
  | .reset => [.reset]
  | .ord slot o => ordTxns slot o
  | .gnone => gnoneTxns
  | .gorder win o => gorderTxns win o
  | .schemeNo => schemeNoTxns aw
  | .sizes n => sizesTxns n
  | .fill m a bs => fillTxns m a bs

/-- A script is its lines in order (R100). -/
def scriptTxns (aw : Nat) (ls : List ScriptLine) : List Txn := ls.flatMap (lineTxns aw)

/-- One `MR` per address, ascending (95_test_vectors.md section 3). -/
def readBackTxns (m : MemId) (n : Nat) : List Txn := (List.range n).map (fun a => .memRead m a)

/-- An EncodingScheme as configuration data (R99): the encode ordering is absent when the data ordering is shared. The size
of the scheme's bus is the bus's, and is given beside it. -/
structure Scheme where
  addressOrdering : List Nat
  mask : Nat
  decodeOrdering : List Nat
  encodeOrdering : Option (List Nat)
deriving DecidableEq, Repr

/-- The scheme `no`, the identity decode (R152). -/
def schemeNo (aw : Nat) : Scheme := ⟨identityOrdering aw, 0, identityOrdering 8, none⟩

/-- The register writes that store a scheme and the declared size of its bus (R99). -/
def schemeTxns (sc : Scheme) (busSize : Nat) : List Txn :=
  ordTxns .aord sc.addressOrdering ++ (wr .amask sc.mask :: (ordTxns .dord sc.decodeOrdering ++
    ((match sc.encodeOrdering with
      | none => [wr .dctl 1]
      | some e => ordTxns .eord e ++ [wr .dctl 0]) ++ [wr .bussize busSize])))

/-- The inverse configuration S′ of a scheme whose address and data orderings are bijective, for an address width `aw`
(R154): the mask becomes `permute(m, o)`, the encode ordering `inverse(d)`. A mask wider than AW bits is no scheme of that
width; here its low AW bits count: DESIGN CHOICE (log 14). A scheme with a non-bijective ordering has no inverse configuration
(R155); what is given for one is a DESIGN CHOICE (log 15). -/
def inverseScheme (aw : Nat) (sc : Scheme) : Scheme where
  addressOrdering := inverseOrdering sc.addressOrdering
  mask := (permute (BitVec.ofNat aw sc.mask) sc.addressOrdering).toNat
  decodeOrdering := sc.decodeOrdering
  encodeOrdering :=
    if orderingSelfInverse sc.decodeOrdering then none else some (inverseOrdering sc.decodeOrdering)

/-- The register writes that store the inverse configuration, both sizes 2^AW (R154). -/
def inverseSchemeTxns (aw : Nat) (sc : Scheme) : List Txn :=
  schemeTxns (inverseScheme aw sc) (2 ^ aw) ++ [wr .srclen (2 ^ aw)]

end Sys2Proof.Machine
end

