-- ==== Sys2Proof/Machine/Conversion.lean ====
section
/-! DEFINITION. A whole conversion run of the host on the block (42_host_layout.md R182 to R186) and its exit signal
(60_exceptions.md R277). -/

namespace Sys2Proof.Machine

/-- What the caller supplies (R184), with the files the source layout names and the names that cannot be written. -/
structure Conversion where
  files : List NamedFile
  unwritable : List String
  ffwinOff : Option Nat
  source : Layout
  target : Layout
  scheme : Scheme
  narrow : Bool
  filePrefix : String
deriving DecidableEq, Repr

/-- The outcome of a run: the exit signal (R277), the files written, the host error that ended it, if one did (R185), and
the block's state at the end. -/
structure ConversionResult where
  exitSignal : BitVec 4
  written : List NamedFile
  hostError : Option HostError
  block : State
deriving DecidableEq, Repr

/-- The buffer of a role that both layouts have a bus for; buses of one role are paired (R173). A bus without a partner takes
part in no transform: DESIGN CHOICE (log 13). -/
def pairedBuffer (target : Layout) (bufs : List (Role × List Byte)) (r : Role) : Option (List Byte) :=
  if (target.bus r).isSome then bufs.lookup r else none

/-- The size of the target program bus (R172, R183 step 3), 0 when the target layout has none (log 13). -/
def targetProgramSize (target : Layout) : Nat := ((target.bus .programROM).map Bus.size).getD 0

/-- Step 3 of R183: the target scheme and program bus size, the source buffer's length, the colour mode, an empty general
slot, `COMMIT`. -/
def configureTxns (sc : Scheme) (busSize srclen : Nat) (narrow : Bool) : List Txn :=
  schemeTxns sc busSize ++
    (wr .srclen srclen :: wr .cmode (if narrow then 1 else 0) :: (gnoneTxns ++ [cmdLine .commit]))

/-- Step 4 of R183: the source program buffer to `SRC`, `REENC`, `DST` read back. -/
def programTxns (buf : List Byte) : List Txn :=
  fillTxns .src 0 buf ++ (cmdLine .reenc :: readBackTxns .dst buf.length)

/-- Step 5 of R183: the source colour bus to `CIN`, `CREPACK`, `COUT` read back. The step speaks of a bus of 512 bytes; of a
shorter one the bytes there are go to `CIN`, whose others stay unwritten, and the target bus has 512 bytes all the same: DESIGN
CHOICE (log 13). -/
def colourTxns (buf : List Byte) : List Txn :=
  fillTxns .cin 0 buf ++ (cmdLine .crepack :: readBackTxns .cout cphysBytes)

/-- The host's transactions in order, up to the first at which the `fault` output is high: "every error aborts the run
immediately" (R185; the host sees the output, R270, R276). -/
def runToFault : List Txn → State → Host.Outcome State Fault Refusal
  | [], s => .next s
  | t :: ts, s =>
    match runTxn t s with
    | .next s' => if s'.faultOutput then .next s' else runToFault ts s'
    | .fault f => .fault f
    | .refused r => .refused r

/-- The byte of a reply, if it is one. -/
def replyByte : Reply → Option Byte
  | .reg _ => none
  | .byte b => some b

/-- The bytes of the newest `n` replies, oldest first. -/
def newestBytes (n : Nat) (rs : List Reply) : List Byte := ((rs.take n).filterMap replyByte).reverse

/-- The target buffers: the program bus from `DST`, the object-colour bus from `COUT`, every other bus unchanged (R183
steps 4 to 6). -/
def targetBuffers (bufs : List (Role × List Byte)) (program colour : List Byte) : List (Role × List Byte) :=
  bufs.map (fun b =>
    (b.1, if b.1 = .programROM then program else if b.1 = .objectColorPROM then colour else b.2))

/-- The exit signal of the block's part of a run: `STATUS.ERR` (R277). -/
def State.exitSignal (s : State) : BitVec 4 := s.err.code

/-- A run that an error of the block has ended: its code, and nothing written (R185, R277). -/
def endedByBlock (s : State) : ConversionResult := ⟨s.exitSignal, [], none, s⟩

/-- Step 7 of R183: the save, when `STATUS.ERR` = 0; a SaveError ends the run with its code and no file (R185, R277). -/
def finishConversion (c : Conversion) (bufs : List (Role × List Byte)) (s : State) :
    Host.Outcome ConversionResult Fault Refusal :=
  match saveLayout c.filePrefix c.unwritable bufs c.target with
  | .ok fs => .next ⟨s.exitSignal, fs, none, s⟩
  | .error (.hostError e) => .next ⟨e.code, [], some e, s⟩
  | .error (.windowPastEnd n) => .refused (.saveWindowPastEnd n)

/-- Steps 5 to 7 of R183, from the block's state after step 4. -/
def runColourAndSave (c : Conversion) (bufs : List (Role × List Byte)) (s : State) :
    Host.Outcome ConversionResult Fault Refusal :=
  match runToFault (((pairedBuffer c.target bufs .objectColorPROM).map colourTxns).getD []) s with
  | .fault f => .fault f
  | .refused r => .refused r
  | .next t =>
    if t.faultOutput then .next (endedByBlock t)
    else
      finishConversion c
        (targetBuffers bufs
          (newestBytes ((pairedBuffer c.target bufs .programROM).getD []).length s.replies)
          (newestBytes cphysBytes t.replies)) t

/-- Steps 3 to 7 of R183; an error of the block at any of them ends the run at once (R185). -/
def runConversion (c : Conversion) (bufs : List (Role × List Byte)) (s : State) :
    Host.Outcome ConversionResult Fault Refusal :=
  match runToFault
      (configureTxns c.scheme (targetProgramSize c.target)
          ((pairedBuffer c.target bufs .programROM).getD []).length c.narrow ++
        programTxns ((pairedBuffer c.target bufs .programROM).getD [])) s with
  | .fault f => .fault f
  | .refused r => .refused r
  | .next t => if t.faultOutput then .next (endedByBlock t) else runColourAndSave c bufs t

/-- A whole run from any state of the block: `Reset` (R183 step 1), then the load, which a LoadError ends with nothing
written (step 2), then the rest. -/
def convert (c : Conversion) (s : State) : Host.Outcome ConversionResult Fault Refusal :=
  match loadLayout c.files c.ffwinOff c.source with
  | .error e => .next ⟨e.code, [], some e, s.doReset⟩
  | .ok bufs => runConversion c bufs s.doReset

end Sys2Proof.Machine
end

