-- ==== Sys2Proof/Safety.lean ====
section
/-! DEFINITION. The terms the statements use: what two states share (the frames), when the configuration is one that
`COMMIT` accepts (45_control.md R248), and the invariant every step keeps. -/

namespace Sys2Proof.Machine

/-- Every configuration register, its value and its written mark, is the same in both states. -/
def SameConfiguration (s t : State) : Prop :=
  t.amask = s.amask ∧ t.bussize = s.bussize ∧ t.srclen = s.srclen ∧ t.dctl = s.dctl ∧ t.cmode = s.cmode ∧
    t.gwin = s.gwin ∧ t.glen = s.glen ∧ t.aord = s.aord ∧ t.dord = s.dord ∧ t.eord = s.eord ∧ t.gord = s.gord

/-- The fields of `STATUS` other than `RVALID`, and `FINFO`, are the same in both states. -/
def SameStatus (s t : State) : Prop :=
  t.phase = s.phase ∧ t.err = s.err ∧ t.fop = s.fop ∧ t.finfo = s.finfo

/-- The model's own fields are the same in both states. -/
def SameModelFields (s t : State) : Prop :=
  t.params = s.params ∧ t.epoch = s.epoch ∧ t.pending = s.pending ∧ t.replies = s.replies

/-- Every register of the block but `RESULT`, and every field of the model's own, is the same in both states. -/
def SameButResult (s t : State) : Prop := SameConfiguration s t ∧ SameStatus s t ∧ SameModelFields s t

/-- Every register of the block, and every field of the model's own, is the same in both states. -/
def SameRegisters (s t : State) : Prop := SameButResult s t ∧ t.result = s.result

/-- Every byte of every memory reads the same in both states. -/
def SameMemory (s t : State) : Prop := ∀ (m : MemId) (a : Nat), t.readByte m a = s.readByte m a

/-- Every byte of every memory outside `touched` reads the same in both states. -/
def SameMemoryOutside (touched : MemId → Nat → Prop) (s t : State) : Prop :=
  ∀ (m : MemId) (a : Nat), ¬ touched m a → t.readByte m a = s.readByte m a

/-- `t` is `s` after fault entry (60_exceptions.md R270): the four fields hold what is given, `RESULT`, the
configuration, the model's fields are unchanged. Memory is said apart. -/
def FaultedFrom (s t : State) (e : ErrCode) (fop : BitVec 8) (info : Word) : Prop :=
  t.phase = .fault ∧ t.err = e ∧ t.fop = fop ∧ t.finfo = info ∧ SameConfiguration s t ∧ t.result = s.result ∧
    SameModelFields s t

/-- An ordering entry that `COMMIT` looks at (R244). -/
def RequiredEntry (s : State) : RegId → Prop
  | .aord k => k.val < s.params.aw
  | .dord _ => True
  | .eord _ => s.dshare = false
  | .gord k => k.val < s.glen.val.toNat
  | _ => False

/-- The index of an ordering entry in its slot (R31). -/
def entryIndex : RegId → Nat
  | .aord k => k.val
  | .dord k => k.val
  | .eord k => k.val
  | .gord k => k.val
  | _ => 0

/-- The input width of an ordering entry's slot (R31). -/
def entryWidth (s : State) : RegId → Nat
  | .aord _ => s.params.aw
  | .dord _ => 8
  | .eord _ => 8
  | .gord _ => s.gwin.val.toNat
  | _ => 0

/-- The bits of an ordering entry register, whether or not it is written (R31). -/
def entryValue (s : State) : RegId → Byte
  | .aord k => s.aord[k].val
  | .dord k => s.dord[k].val
  | .eord k => s.eord[k].val
  | .gord k => s.gord[k].val
  | _ => 0

/-- The required ordering entries hold values (R244). -/
def RequiredEntriesWritten (s : State) : Prop :=
  (∀ k : Fin 31, k.val < s.params.aw → s.aord[k].written = true) ∧ (∀ k : Fin 8, s.dord[k].written = true) ∧
    (s.dshare = false → ∀ k : Fin 8, s.eord[k].written = true) ∧
    (∀ k : Fin 32, k.val < s.glen.val.toNat → s.gord[k].written = true)

/-- Every required ordering entry is below its slot's input width (R245). -/
def RequiredEntriesInRange (s : State) : Prop :=
  (∀ k : Fin 31, k.val < s.params.aw → s.aord[k].val.toNat < s.params.aw) ∧ (∀ k : Fin 8, s.dord[k].val.toNat < 8) ∧
    (s.dshare = false → ∀ k : Fin 8, s.eord[k].val.toNat < 8) ∧
    (∀ k : Fin 32, k.val < s.glen.val.toNat → s.gord[k].val.toNat < s.gwin.val.toNat)

/-- Every scalar configuration register holds a value (R241). -/
def ScalarsWritten (s : State) : Prop :=
  s.amask.written = true ∧ s.bussize.written = true ∧ s.srclen.written = true ∧ s.dctl.written = true ∧
    s.cmode.written = true ∧ s.gwin.written = true ∧ s.glen.written = true

/-- The configuration is one that passes all six checks; these are the invariants of `RUN` (R248). -/
def Committed (s : State) : Prop :=
  ScalarsWritten s ∧ s.gwin.val.toNat ≤ wmax ∧ s.glen.val.toNat ≤ wmax ∧ s.bussize.val.toNat ≤ 2 ^ s.params.aw ∧
    s.srclen.val.toNat ≤ 2 ^ s.params.aw ∧ RequiredEntriesWritten s ∧ RequiredEntriesInRange s ∧
    (s.dshare = true → orderingSelfInverse s.decodeOrdering = true)

/-- A memory is in canonical form and lists no address at or above its size (R35). -/
def MemoryInside (s : State) (m : MemId) : Prop :=
  (s.mem m).wf = true ∧ ∀ c ∈ s.mem m, c.1 < memSize s.params m

/-- The register values fit the widths the spec gives (R29), and the entries of `AORD` that do not exist (R31) are
never written. -/
def WidthsKept (s : State) : Prop :=
  s.amask.val.toNat < 2 ^ s.params.aw ∧ s.bussize.val.toNat < 2 ^ (s.params.aw + 1) ∧
    s.srclen.val.toNat < 2 ^ (s.params.aw + 1) ∧
    ∀ k : Fin 31, s.params.aw ≤ k.val → s.aord[k].written = false

/-- The invariant every step keeps. `PHASE` = `FAULT` iff `ERR` ≠ 0 (R26); `ERR` never holds the host's codes (R261);
`FOP` and `FINFO` are 0 when `ERR` = 0 (R26, R27); no `RESULT` in `CONFIG` (R21, R96); the invariants of `RUN` (R248);
the widths (R29); the memories. -/
def Invariant (s : State) : Prop :=
  (s.phase = .fault ↔ s.err ≠ .none) ∧ s.err ≠ .loadError ∧ s.err ≠ .saveError ∧
    (s.err = .none → s.fop = 0 ∧ s.finfo = 0) ∧ (s.phase = .config → s.result.written = false) ∧
    (s.phase = .run → Committed s) ∧ WidthsKept s ∧ ∀ m : MemId, MemoryInside s m

/-- The address path accepts the address: both range checks pass (R141, R144). -/
def PathAccepts (s : State) (la : Word) : Prop :=
  la.toNat < s.bussize.val.toNat ∧ physicalAddress s la < s.srclen.val.toNat

/-- A slot at offset `off` that fails to load: it is not in the reserved window of the program bus, and it has a file
reference whose file is missing or shorter than the chip size (42_host_layout.md R175, R177). -/
def SlotFails (files : List NamedFile) (ff : Option Nat) (b : Bus) (off : Nat) (name : ChipSlot) : Prop :=
  name ≠ "" ∧ ¬ (b.role = .programROM ∧ ff = some off) ∧ ∀ bs, files.lookup name = some bs → bs.length < b.chipSize

/-- The commands' legal phase (R95). -/
def legalPhase : Instr → Phase
  | .commit => .config
  | .permute _ _ => .run
  | .decode _ => .run
  | .encode _ => .run
  | .decsw => .run
  | .reenc => .run
  | .cdelin => .run
  | .cnarrow => .run
  | .csplit => .run
  | .crepack => .run

/-- A step of the machine goes on: it answers a next state. -/
def Completes (o : Host.Outcome State Fault Refusal) : Prop := ∃ t, o = .next t

end Sys2Proof.Machine
end

