-- ==== Sys2Proof/Certificates/Slice0/Obligations.lean ====
section
/-! DEFINITION. The statements about the block, from the numbered rules of the spec, for the provers. -/

open Sys2Proof Sys2Proof.Machine

/-! ### The command encoding -/

/-- Decoding the word of a well-formed instruction gives the instruction back, with every operand at every value
(30_encoding.md sections 1 to 3). -/
def Obligations.DecodeInvertsEncode : Prop :=
  ∀ i : Instr, i.wellFormed = true → decode (encode i) = .ok i

/-- A word the decoder accepts is the word of the instruction it gives: no bit of an accepted word is ignored. -/
def Obligations.EncodeInvertsDecode : Prop :=
  ∀ (w : CmdWord) (i : Instr), decode w = .ok i → encode i = w

/-- A word is a command exactly when (w and mask) = match for a row of the opcode map, and then it is that row's
command (R95); no two rows match one word. -/
def Obligations.DecodeAcceptsExactlyTheRows : Prop :=
  ∀ (w : CmdWord) (i : Instr),
    (decode w = .ok i → w &&& (rowOf i).mask = (rowOf i).pattern) ∧
      (w &&& (rowOf i).mask = (rowOf i).pattern → ∃ j, decode w = .ok j ∧ rowOf j = rowOf i) ∧
      (∀ j, w &&& (rowOf i).mask = (rowOf i).pattern → w &&& (rowOf j).mask = (rowOf j).pattern → rowOf i = rowOf j)

/-- Words of 95_test_vectors.md and R124 decode to the commands they stand for. -/
def Obligations.SpecWordsDecode : Prop :=
  decode 0x0000000000000001 = .ok .commit ∧ decode 0x0000001D00000310 = .ok (.permute .gord 0x1D) ∧
    decode 0x0000000E00000020 = .ok (.decode 14) ∧ decode 0xFFFFFFFF00000021 = .ok (.encode 0xFFFFFFFF) ∧
    decode 0x0000000000000029 = .ok .reenc ∧ decode 0x0000000000000033 = .ok .crepack ∧
    decode 0x0000000000000129 = .error .selNotZero ∧ decode 0x0000000000000401 = .error .rsvNotZero ∧
    decode 0x0000000100000001 = .error .argNotZero ∧ decode 0x0000000000000000 = .error .unknownOp

/-! ### How a transaction is taken -/

/-- A step runs the decoded command: when the next transaction is `Cmd(w)`, or `RegWrite(0x00, w)` (R28), and w decodes
to i, the step is `exec i` after the transaction is taken from the queue. With nothing pending the step changes nothing (R304).
The queue is the model's (log 4). -/
def Obligations.StepRunsTheDecodedCommand : Prop :=
  (∀ (s : State) (w : CmdWord) (rest : List Txn) (i : Instr),
      (s.pending = .cmd w :: rest ∨ s.pending = .regWrite 0 w :: rest) → decode w = .ok i →
        i.wellFormed = true ∧ step s = exec i { s with pending := rest }) ∧
    (∀ s : State, s.pending = [] → step s = .next s)

/-- A word that matches no row, sent as `Cmd(w)` or as `RegWrite(0x00, w)` (R11, R28), raises `IllegalCommandError`
sub-code 1 outside `FAULT`, with the word's low 24 bits as detail and its low 8 bits as `FOP` (R96, R97, R266), and changes
nothing else. -/
def Obligations.MalformedCommandRaises : Prop :=
  ∀ (s : State) (w : CmdWord) (x : Txn), x = .cmd w ∨ x = .regWrite 0 w → s.phase ≠ .fault →
    (∀ i : Instr, w &&& (rowOf i).mask ≠ (rowOf i).pattern) →
      ∃ t, runTxn x s = .next t ∧
        FaultedFrom s t .illegalCommandError (w.extractLsb' 0 8) (0x01#8 ++ w.extractLsb' 0 24) ∧ SameMemory s t

/-- A well-formed command in the wrong phase raises `IllegalCommandError` sub-code 2 with the `OP` byte as detail and as
`FOP` (R96, R266), and changes nothing else. -/
def Obligations.WrongPhaseCommandRaises : Prop :=
  ∀ (i : Instr) (s : State), s.phase ≠ .fault → s.phase ≠ legalPhase i →
    ∃ t, exec i s = .next t ∧
      FaultedFrom s t .illegalCommandError (rowOf i).op (0x02#8 ++ (0#16 ++ (rowOf i).op)) ∧ SameMemory s t

/-- In `FAULT` every `RegWrite`, `MemWrite` and `Cmd` is ignored, reads of held values and of bytes work, and the record
of the fault stays (R272). -/
def Obligations.FaultPhaseIgnoresWritesAndCommands : Prop :=
  ∀ s : State, s.phase = .fault →
    (∀ n v, presentable s.params (.regWrite n v) = true → runTxn (.regWrite n v) s = .next s) ∧
      (∀ m a b, presentable s.params (.memWrite m a b) = true → runTxn (.memWrite m a b) s = .next s) ∧
      (∀ w, runTxn (.cmd w) s = .next s) ∧
      (∀ n r v, regOfNumber s.params n = some r → s.readReg r = some v →
        runTxn (.regRead n) s = .next (s.reply (.reg v))) ∧
      (∀ m a, a < memSize s.params m → runTxn (.memRead m a) s = .next (s.reply (.byte (s.readByte m a)))) ∧
      (∀ x t, x ≠ .reset → runTxn x s = .next t → SameStatus s t)

/-- Once faulted, no sequence of transactions without a `Reset` changes the fault record, a register or a byte (R273,
R274). -/
def Obligations.FirstFaultStandsUntilReset : Prop :=
  ∀ (ts : List Txn) (s t : State), s.phase = .fault → .reset ∉ ts → runTxns ts s = .next t →
    SameStatus s t ∧ SameConfiguration s t ∧ t.result = s.result ∧ SameMemory s t

/-! ### Register and memory access -/

/-- The register numbers (R40), and `RegRead(n)` by case: an existing register that holds a value returns it in any phase and nothing of the block
changes, and `STATUS` and `FINFO` always hold a value (R37); an existing unwritten register is refused (R38); no register, or
0x00, is `IllegalCommandError` sub-code 5 in `CONFIG` and `RUN` and refused in `FAULT` (R39). -/
def Obligations.RegReadByCase : Prop :=
  ∀ (s : State) (n : BitVec 8),
    (regOfNumber s.params 0x00 = some .cmd ∧ regOfNumber s.params 0x01 = some .status ∧
      regOfNumber s.params 0x02 = some .finfo ∧ regOfNumber s.params 0x03 = some .result ∧
      regOfNumber s.params 0x10 = some .amask ∧ regOfNumber s.params 0x11 = some .bussize ∧
      regOfNumber s.params 0x12 = some .srclen ∧ regOfNumber s.params 0x13 = some .dctl ∧
      regOfNumber s.params 0x14 = some .cmode ∧ regOfNumber s.params 0x15 = some .gwin ∧
      regOfNumber s.params 0x16 = some .glen ∧
      (∀ k : Fin 31, k.val < s.params.aw → regOfNumber s.params (BitVec.ofNat 8 (0x20 + k.val)) = some (.aord k)) ∧
      (∀ k : Fin 8, regOfNumber s.params (BitVec.ofNat 8 (0x40 + k.val)) = some (.dord k) ∧
        regOfNumber s.params (BitVec.ofNat 8 (0x48 + k.val)) = some (.eord k)) ∧
      (∀ k : Fin 32, regOfNumber s.params (BitVec.ofNat 8 (0x60 + k.val)) = some (.gord k)) ∧
      (¬ (n.toNat < 0x04 ∨ (0x10 ≤ n.toNat ∧ n.toNat < 0x17) ∨ (0x20 ≤ n.toNat ∧ n.toNat < 0x20 + s.params.aw) ∨
          (0x40 ≤ n.toNat ∧ n.toNat < 0x50) ∨ (0x60 ≤ n.toNat ∧ n.toNat < 0x80)) →
        regOfNumber s.params n = none)) ∧
    (∀ r v, regOfNumber s.params n = some r → s.readReg r = some v →
      ∃ t, runTxn (.regRead n) s = .next t ∧ t.replies = .reg v :: s.replies ∧ SameConfiguration s t ∧
        SameStatus s t ∧ t.result = s.result ∧ SameMemory s t) ∧
    s.readReg .status = some s.statusWord ∧ s.readReg .finfo = some s.finfo ∧
    (∀ r, regOfNumber s.params n = some r → r ≠ .cmd → s.readReg r = none →
      runTxn (.regRead n) s = .refused (.unwrittenRegister n)) ∧
    ((regOfNumber s.params n = none ∨ n = 0) →
      (s.phase ≠ .fault → ∃ t, runTxn (.regRead n) s = .next t ∧
        FaultedFrom s t .illegalCommandError 0xFF (0x05#8 ++ (0#16 ++ n)) ∧ SameMemory s t) ∧
      (s.phase = .fault → runTxn (.regRead n) s = .refused (.noRegisterInFault n)))

/-- `RegWrite(n, v)`, n not 0x00, by phase (R36): accepted for a configuration register in `CONFIG`, which then reads v
and every other register what it read; `IllegalCommandError` sub-code 4 for any other in `CONFIG` and for all in `RUN`;
ignored in `FAULT`. -/
def Obligations.RegWriteByPhase : Prop :=
  ∀ (s : State) (n : BitVec 8) (v : BitVec 64), n ≠ 0 → presentable s.params (.regWrite n v) = true →
    (∀ r, s.phase = .config → regOfNumber s.params n = some r → r.isConfig = true →
      ∃ t, runTxn (.regWrite n v) s = .next t ∧ t.readReg r = some (v.setWidth 32) ∧
        (∀ r', r' ≠ r → t.readReg r' = s.readReg r') ∧ SameStatus s t ∧ SameModelFields s t ∧ SameMemory s t) ∧
    (s.phase ≠ .fault → (s.phase = .run ∨ ∀ r, regOfNumber s.params n = some r → r.isConfig = false) →
      ∃ t, runTxn (.regWrite n v) s = .next t ∧
        FaultedFrom s t .illegalCommandError 0xFF (0x04#8 ++ (0#16 ++ n)) ∧ SameMemory s t) ∧
    (s.phase = .fault → runTxn (.regWrite n v) s = .next s)

/-- The host's `MemWrite` stores one byte in `CONFIG` and `RUN` and touches no other, and is ignored in `FAULT`; `MemRead`
returns the byte in any phase and changes nothing of the block (R61, R64). The sizes of the memories are those of R35. -/
def Obligations.HostMemoryAccess : Prop :=
  (∀ p : Params, memSize p .src = 2 ^ p.aw ∧ memSize p .dst = 2 ^ p.aw ∧ memSize p .cin = 512 ∧
    memSize p .cmb = 256 ∧ memSize p .cout = 512) ∧
  ∀ (s : State) (m : MemId) (a : Nat) (b : Byte), a < memSize s.params m →
    (s.phase ≠ .fault → ∃ t, runTxn (.memWrite m a b) s = .next t ∧ t.readByte m a = b ∧ SameRegisters s t ∧
      SameMemoryOutside (fun m' a' => m' = m ∧ a' = a) s t) ∧
    (s.phase = .fault → runTxn (.memWrite m a b) s = .next s) ∧
    (∃ t, runTxn (.memRead m a) s = .next t ∧ t.replies = .byte (s.readByte m a) :: s.replies ∧
      SameConfiguration s t ∧ SameStatus s t ∧ t.result = s.result ∧ SameMemory s t)

/-- The model's choice (log 8), not a rule: an address outside its memory, or a value wider than its port, stops the
model with a fault of its own, in every phase. The widths of the ports are the spec's (R28, R29, R31). -/
def Obligations.UnpresentableTransactionsStop : Prop :=
  (∀ p : Params, portWidth p 0x00 = 64 ∧ portWidth p 0x10 = p.aw ∧ portWidth p 0x11 = p.aw + 1 ∧
    portWidth p 0x12 = p.aw + 1 ∧ portWidth p 0x13 = 1 ∧ portWidth p 0x14 = 1 ∧ portWidth p 0x15 = 6 ∧
    portWidth p 0x16 = 6 ∧
    ∀ n : BitVec 8, ((0x20 ≤ n.toNat ∧ n.toNat < 0x20 + p.aw) ∨ (0x40 ≤ n.toNat ∧ n.toNat < 0x50) ∨
      (0x60 ≤ n.toNat ∧ n.toNat < 0x80)) → portWidth p n = 8) ∧
  ∀ s : State,
    (∀ m a b, memSize s.params m ≤ a → runTxn (.memWrite m a b) s = .fault (.addressOutsideMemory m a)) ∧
      (∀ m a, memSize s.params m ≤ a → runTxn (.memRead m a) s = .fault (.addressOutsideMemory m a)) ∧
      (∀ n v, 2 ^ portWidth s.params n ≤ v.toNat → runTxn (.regWrite n v) s = .fault (.valueWiderThanPort n))

/-! ### Status and reset -/

/-- The fields of the `STATUS` word are where R26 puts them, its reserved bits read 0, and the phases and the errors have
the codes of R25 and R261. -/
def Obligations.StatusWordFields : Prop :=
  Phase.code .config = 0 ∧ Phase.code .run = 1 ∧ Phase.code .fault = 2 ∧
    ErrCode.code .none = 0 ∧ ErrCode.code .configurationError = 1 ∧ ErrCode.code .loadError = 2 ∧
    ErrCode.code .saveError = 3 ∧ ErrCode.code .outOfRangeError = 4 ∧ ErrCode.code .physRangeError = 5 ∧
    ErrCode.code .illegalCommandError = 6 ∧
  ∀ s : State, s.statusWord.extractLsb' 0 2 = s.phase.code ∧
    s.statusWord.getLsbD 2 = s.result.written ∧ s.statusWord.getLsbD 3 = false ∧
    s.statusWord.extractLsb' 4 4 = s.err.code ∧ s.statusWord.extractLsb' 8 8 = s.fop ∧
    s.statusWord.extractLsb' 16 16 = 0#16

/-- The `fault` output is high exactly in `FAULT`, in every state of the invariant, and once high it stays high until a
`Reset` (R276). -/
def Obligations.FaultOutputIsHighUntilReset : Prop :=
  ∀ s : State, Invariant s →
    (s.faultOutput = true ↔ s.phase = .fault) ∧
      (∀ x t, s.faultOutput = true → x ≠ .reset → runTxn x s = .next t → t.faultOutput = true) ∧
      (∀ t, runTxn .reset s = .next t → t.faultOutput = false)

/-- The reset value of every register (R301): `STATUS` and `FINFO` read 0, every other register is unwritten, the `fault`
output is low; `RegRead(0x01)` straight after `Reset` returns 0. -/
def Obligations.ResetRegisterValues : Prop :=
  State.reset.statusWord = 0#32 ∧ State.reset.finfo = 0#32 ∧ State.reset.phase = .config ∧
    State.reset.faultOutput = false ∧ (∀ r, r ≠ .status → r ≠ .finfo → State.reset.readReg r = none) ∧
    runTxn (.regRead 0x01) State.reset = .next (State.reset.reply (.reg 0))

/-- `Reset` in any phase and any state leaves `CONFIG`, no error, every written mark clear and no byte of any memory
written (R300, R302, R303); the transactions still to come stay. -/
def Obligations.ResetFromAnyState : Prop :=
  ∀ s : State, ∃ t, runTxn .reset s = .next t ∧ t.phase = .config ∧ t.statusWord = 0#32 ∧ t.finfo = 0#32 ∧
    (∀ r, r ≠ .status → r ≠ .finfo → t.readReg r = none) ∧ (∀ m, t.mem m = []) ∧ t.params = s.params ∧
    t.pending = s.pending

/-- The invariant holds at reset. -/
def Obligations.ResetMeetsTheInvariant : Prop := Invariant State.reset

/-- Every step from a state of the invariant gives a state of the invariant. -/
def Obligations.StepKeepsTheInvariant : Prop :=
  ∀ s t : State, Invariant s → step s = .next t → Invariant t

/-! ### PERM -/

/-- `permute` bit by bit, and as the sum of R120. -/
def Obligations.PermuteSelectsBits : Prop :=
  ∀ (w : Nat) (v : BitVec w) (o : List Nat),
    (∀ (k : Nat) (h : k < o.length), (permute v o).getLsbD (o.length - 1 - k) = v.getLsbD o[k]) ∧
      (permute v o).toNat = ∑ k : Fin o.length, (v.getLsbD o[k]).toNat * 2 ^ (o.length - 1 - k.val)

/-- The laws of R130: `permute` acts bit by bit, on 0 and on all ones, and composes. -/
def Obligations.PermuteLaws : Prop :=
  ∀ (win : Nat) (v u : BitVec win) (o : List Nat), orderingInRange win o = true →
    permute (v ^^^ u) o = permute v o ^^^ permute u o ∧ permute (v &&& u) o = permute v o &&& permute u o ∧
      permute (v ||| u) o = permute v o ||| permute u o ∧ permute (0#win) o = 0#o.length ∧
      permute (BitVec.allOnes win) o = BitVec.allOnes o.length ∧
      (∀ o2 : List Nat, orderingInRange o.length o2 = true →
        (permute (permute v o) o2).toNat = (permute v (composeOrderings o o2)).toNat)

/-- For a bijective ordering `inverse(o)` undoes `permute` on both sides (R127). -/
def Obligations.InverseOrderingUndoesPermute : Prop :=
  ∀ o : List Nat, orderingBijective o = true →
    (inverseOrdering o).length = o.length ∧
      (∀ j : Nat, j < o.length → (inverseOrdering o)[j]? = some (o.length - 1 - o.idxOf (o.length - 1 - j))) ∧
      ∀ v : BitVec o.length,
        permuteTo o.length (permuteTo o.length v o) (inverseOrdering o) = v ∧
          permuteTo o.length (permuteTo o.length v (inverseOrdering o)) o = v

/-- The test of R129 holds exactly of the self-inverse orderings, and forces the ordering to be bijective. -/
def Obligations.SelfInverseTestIsExact : Prop :=
  (∀ o : List Nat, orderingInRange o.length o = true →
    (orderingSelfInverse o = true ↔
      ∀ v : BitVec o.length, permuteTo o.length (permuteTo o.length v o) o = v)) ∧
    (∀ o : List Nat, orderingSelfInverse o = true → orderingBijective o = true) ∧
    (∀ n, orderingSelfInverse (identityOrdering n) = true ∧ orderingSelfInverse (List.range n) = true) ∧
    orderingSelfInverse [3, 2, 1, 0, 7, 6, 5, 4] = true ∧ orderingSelfInverse [6, 5, 4, 3, 2, 1, 0, 7] = false

/-- The identity ordering gives its input; the ascending list reverses the bits (R126). -/
def Obligations.IdentityOrderingIsIdentity : Prop :=
  ∀ (n : Nat) (v : BitVec n),
    permuteTo n v (identityOrdering n) = v ∧
      ∀ p, p < n → (permuteTo n v (List.range n)).getLsbD p = v.getLsbD (n - 1 - p)

/-- The orderings a `PERMUTE` can select, with their input widths and lengths (R31). -/
def Obligations.SlotOperands : Prop :=
  ∀ s : State,
    (s.slotOperand .aord).1 = s.params.aw ∧ (s.slotOperand .aord).2.length = s.params.aw ∧
      (∀ k : Fin 31, k.val < s.params.aw → (s.slotOperand .aord).2[k.val]? = some s.aord[k].val.toNat) ∧
      (s.slotOperand .dord).1 = 8 ∧ (s.slotOperand .dord).2.length = 8 ∧
      (∀ k : Fin 8, (s.slotOperand .dord).2[k.val]? = some s.dord[k].val.toNat) ∧
      (s.slotOperand .eord).1 = 8 ∧ (s.slotOperand .eord).2.length = 8 ∧
      (∀ k : Fin 8, (s.slotOperand .eord).2[k.val]? = some s.eord[k].val.toNat) ∧
      (s.slotOperand .gord).1 = s.gwin.val.toNat ∧
      (s.glen.val.toNat ≤ 32 → (s.slotOperand .gord).2.length = s.glen.val.toNat) ∧
      (∀ k : Fin 32, k.val < s.glen.val.toNat → (s.slotOperand .gord).2[k.val]? = some s.gord[k].val.toNat)

/-- `PERMUTE` in `RUN` (R124): `RESULT` takes the permuted bits, 0 above the ordering's length, `RVALID` is set and nothing
else changes; with `SEL` = 2 while `DSHARE` = 1 it raises sub-code 3. The `FINFO` is 0x03000210 (R266). -/
def Obligations.PermuteCommand : Prop :=
  ∀ (s : State) (sel : Slot) (val : Word), s.phase = .run →
    (¬ (sel = .eord ∧ s.dshare = true) →
      ∃ t, exec (.permute sel val) s = .next t ∧ t.result.written = true ∧
        (∀ (k : Nat) (h : k < (s.slotOperand sel).2.length),
          t.result.val.getLsbD ((s.slotOperand sel).2.length - 1 - k) =
            (decide ((s.slotOperand sel).2[k] < (s.slotOperand sel).1) && val.getLsbD (s.slotOperand sel).2[k])) ∧
        (∀ p, (s.slotOperand sel).2.length ≤ p → t.result.val.getLsbD p = false) ∧
        SameButResult s t ∧ SameMemory s t) ∧
    (sel = .eord ∧ s.dshare = true →
      ∃ t, exec (.permute sel val) s = .next t ∧ FaultedFrom s t .illegalCommandError 0x10 0x03000210 ∧
        SameMemory s t)

/-! ### APIPE and DXBAR -/

/-- The scrambled address (R142, R143): AW bits, bit AW − 1 − k being bit `AORD[k]` of the logical address xor the mask,
when the entries of `AORD` are in range. -/
def Obligations.ScrambledAddressBits : Prop :=
  ∀ (s : State) (la : Word), physicalAddress s la < 2 ^ s.params.aw ∧
    ∀ k : Fin 31, k.val < s.params.aw → s.aord[k].val.toNat < s.params.aw →
      (physicalAddress s la).testBit (s.params.aw - 1 - k.val) =
        ((la ^^^ s.amask.val).getLsbD s.aord[k].val.toNat)

/-- `DECODE la` in `RUN`, when both range checks pass (R146): `RESULT` is the byte of `SRC` at the scrambled address
through `DORD`, zero-extended; nothing else changes. -/
def Obligations.DecodeCommand : Prop :=
  ∀ (s : State) (la : Word), s.phase = .run → PathAccepts s la →
    ∃ t, exec (.decode la) s = .next t ∧ t.result.written = true ∧
      (∀ k : Fin 8, t.result.val.getLsbD (7 - k.val) =
        (s.readByte .src (physicalAddress s la)).getLsbD s.dord[k].val.toNat) ∧
      (∀ p, 8 ≤ p → t.result.val.getLsbD p = false) ∧ SameButResult s t ∧ SameMemory s t

/-- `ENCODE la` in `RUN`, when both range checks pass (R147): as `DECODE` with `DORD` when `DSHARE` = 1 and `EORD` when
`DSHARE` = 0 (R145). -/
def Obligations.EncodeCommand : Prop :=
  ∀ (s : State) (la : Word), s.phase = .run → PathAccepts s la →
    ∃ t, exec (.encode la) s = .next t ∧ t.result.written = true ∧
      (∀ k : Fin 8, t.result.val.getLsbD (7 - k.val) =
        (s.readByte .src (physicalAddress s la)).getLsbD
          (if s.dshare then s.dord[k].val.toNat else s.eord[k].val.toNat)) ∧
      (∀ p, 8 ≤ p → t.result.val.getLsbD p = false) ∧ SameButResult s t ∧ SameMemory s t

/-- A logical address at or above `BUSSIZE` raises `OutOfRangeError` with the address, before anything else is looked at
(R141, R264). -/
def Obligations.LogicalRangeCheck : Prop :=
  ∀ (s : State) (la : Word), s.phase = .run → s.bussize.val.toNat ≤ la.toNat →
    (∃ t, exec (.decode la) s = .next t ∧ FaultedFrom s t .outOfRangeError 0x20 la ∧ SameMemory s t) ∧
      (∃ t, exec (.encode la) s = .next t ∧ FaultedFrom s t .outOfRangeError 0x21 la ∧ SameMemory s t)

/-- A scrambled address at or above `SRCLEN` raises `PhysRangeError` with the logical address (R144); with `SRCLEN` = 2^AW
it never does. -/
def Obligations.PhysicalRangeCheck : Prop :=
  ∀ (s : State) (la : Word), s.phase = .run → la.toNat < s.bussize.val.toNat →
    (s.srclen.val.toNat ≤ physicalAddress s la →
      (∃ t, exec (.decode la) s = .next t ∧ FaultedFrom s t .physRangeError 0x20 la ∧ SameMemory s t) ∧
        (∃ t, exec (.encode la) s = .next t ∧ FaultedFrom s t .physRangeError 0x21 la ∧ SameMemory s t)) ∧
    (s.srclen.val.toNat = 2 ^ s.params.aw → physicalAddress s la < s.srclen.val.toNat)

/-- When `DSHARE` = 1 the two directions are equal, as values and as faults (R149), and the two sweeps that no index
raises leave the same state (R201). -/
def Obligations.SharedOrderingMakesDirectionsEqual : Prop :=
  ∀ s : State, s.dshare = true →
    (∀ la, encByte s la = decByte s la) ∧
      (∀ la, s.phase = .run → PathAccepts s la → exec (.encode la) s = exec (.decode la) s) ∧
      (s.phase = .run → (∀ i, i < s.srclen.val.toNat → PathAccepts s (BitVec.ofNat 32 i)) →
        exec .reenc s = exec .decsw s)

/-- Under the scheme `no` the address path is the identity and both directions return the byte of `SRC` (R152). -/
def Obligations.SchemeNoIsIdentity : Prop :=
  ∀ s : State, s.addressOrdering = identityOrdering s.params.aw → s.amask.val = 0 →
    s.decodeOrdering = identityOrdering 8 → s.dshare = true → s.bussize.val.toNat ≤ 2 ^ s.params.aw →
      ∀ la : Word, la.toNat < s.bussize.val.toNat → la.toNat < s.srclen.val.toNat →
        scramble s la = .ok la.toNat ∧ decByte s la = .ok (s.readByte .src la.toNat) ∧
          encByte s la = .ok (s.readByte .src la.toNat)

/-! ### The sweeps -/

/-- `REENC` in `RUN` when no index raises (R200): `DST[i]` is `SRC` at the scrambled address of i through the encode
ordering, for every i below `SRCLEN`; no other byte and no register changes. -/
def Obligations.ReencCommand : Prop :=
  ∀ s : State, s.phase = .run → (∀ i, i < s.srclen.val.toNat → PathAccepts s (BitVec.ofNat 32 i)) →
    ∃ t, exec .reenc s = .next t ∧
      (∀ i, i < s.srclen.val.toNat → ∀ k : Fin 8, (t.readByte .dst i).getLsbD (7 - k.val) =
        (s.readByte .src (physicalAddress s (BitVec.ofNat 32 i))).getLsbD
          (if s.dshare then s.dord[k].val.toNat else s.eord[k].val.toNat)) ∧
      SameRegisters s t ∧ SameMemoryOutside (fun m a => m = .dst ∧ a < s.srclen.val.toNat) s t

/-- `DECSW` in `RUN` when no index raises (R201): as `REENC` with the decode ordering. -/
def Obligations.DecswCommand : Prop :=
  ∀ s : State, s.phase = .run → (∀ i, i < s.srclen.val.toNat → PathAccepts s (BitVec.ofNat 32 i)) →
    ∃ t, exec .decsw s = .next t ∧
      (∀ i, i < s.srclen.val.toNat → ∀ k : Fin 8, (t.readByte .dst i).getLsbD (7 - k.val) =
        (s.readByte .src (physicalAddress s (BitVec.ofNat 32 i))).getLsbD s.dord[k].val.toNat) ∧
      SameRegisters s t ∧ SameMemoryOutside (fun m a => m = .dst ∧ a < s.srclen.val.toNat) s t

/-- A sweep in which some index raises performs one fault entry, with the error and the index of the least such index;
only bytes of `DST` below `SRCLEN` may differ afterwards, and nothing is said of them (R204). -/
def Obligations.FaultingSweepReportsTheLeastIndex : Prop :=
  ∀ (s : State) (k : Nat), s.phase = .run → k < s.srclen.val.toNat →
    (∀ i, i < k → PathAccepts s (BitVec.ofNat 32 i)) → ¬ PathAccepts s (BitVec.ofNat 32 k) →
      ∀ c, (c = Instr.reenc ∨ c = Instr.decsw) →
        ∃ t, exec c s = .next t ∧
          FaultedFrom s t (if s.bussize.val.toNat ≤ k then .outOfRangeError else .physRangeError) (rowOf c).op
            (BitVec.ofNat 32 k) ∧
          SameMemoryOutside (fun m a => m = .dst ∧ a < s.srclen.val.toNat) s t

/-- Which indices of a sweep raise (R205): `OutOfRangeError` is reported only when `SRCLEN` > `BUSSIZE`, and then at the
index `BUSSIZE`; `PhysRangeError` only at an index below `BUSSIZE`. -/
def Obligations.SweepErrorKinds : Prop :=
  ∀ (s t : State) (c : Instr), s.phase = .run → (c = .reenc ∨ c = .decsw) → exec c s = .next t →
    t.phase = .fault →
      (t.err = .outOfRangeError ∧ s.bussize.val.toNat < s.srclen.val.toNat ∧ t.finfo = s.bussize.val) ∨
        (t.err = .physRangeError ∧ t.finfo.toNat < s.bussize.val.toNat ∧ t.finfo.toNat < s.srclen.val.toNat ∧
          s.srclen.val.toNat ≤ physicalAddress s t.finfo)

/-- The inverse configuration undoes a decode sweep (R154): if `DST` was produced by `DECSW` under S, then `REENC` under
S′ with those bytes in `SRC` gives back the bytes S fetched from. -/
def Obligations.InverseConfigurationUndoesDecodeSweep : Prop :=
  ∀ s s' t : State, s.phase = .run → s'.phase = .run → s'.params.aw = s.params.aw →
    orderingBijective s.addressOrdering = true → orderingBijective s.decodeOrdering = true →
    s.bussize.val.toNat = 2 ^ s.params.aw → s.srclen.val.toNat = 2 ^ s.params.aw →
    s'.addressOrdering = inverseOrdering s.addressOrdering →
    (s'.amask.val.setWidth s.params.aw).toNat =
      (permute (s.amask.val.setWidth s.params.aw) s.addressOrdering).toNat →
    s'.encodeOrdering = inverseOrdering s.decodeOrdering →
    s'.bussize.val.toNat = 2 ^ s.params.aw → s'.srclen.val.toNat = 2 ^ s.params.aw →
    exec .decsw s = .next t →
    (∀ a, a < 2 ^ s.params.aw → s'.readByte .src a = t.readByte .dst a) →
      ∃ t', exec .reenc s' = .next t' ∧ ∀ a, a < 2 ^ s.params.aw → t'.readByte .dst a = s.readByte .src a

/-! ### CPU4 -/

/-- The physical colour index (R215): its formula is the ordering [5,5,4,3,2,1,0], it is idempotent, it ignores bits 6
and 7, and its values are exactly 0x00 .. 0x1F and 0x60 .. 0x7F. -/
def Obligations.ColourIndex : Prop :=
  (∀ i : Fin 256, cphys i.val = (i.val &&& 0x3F) ||| ((i.val &&& 0x20) <<< 1) ∧
      cphys i.val = (permute (BitVec.ofNat 8 i.val) [5, 5, 4, 3, 2, 1, 0]).toNat ∧
      cphys (cphys i.val) = cphys i.val ∧ cphys i.val = cphys (i.val &&& 0x3F) ∧
      (cphys i.val < 0x20 ∨ (0x60 ≤ cphys i.val ∧ cphys i.val < 0x80))) ∧
    ∀ a : Fin 256, (a.val < 0x20 ∨ (0x60 ≤ a.val ∧ a.val < 0x80)) → cphys a.val = a.val

/-- `CDELIN` in `RUN` (R216, R217, R228): every entry of `CMB` from the two planes at the physical index; entries 64
apart are equal; no other byte and no register changes. -/
def Obligations.CdelinCommand : Prop :=
  ∀ s : State, s.phase = .run →
    ∃ t, exec .cdelin s = .next t ∧
      (∀ i, i < 256 → t.readByte .cmb i =
        (s.readByte .cin ((i &&& 0x3F) ||| ((i &&& 0x20) <<< 1)) &&& 0x0F#8) |||
          (if s.params.hpLow then
              (s.readByte .cin (((i &&& 0x3F) ||| ((i &&& 0x20) <<< 1)) + 0x100) &&& 0x0F#8) <<< 4
            else s.readByte .cin (((i &&& 0x3F) ||| ((i &&& 0x20) <<< 1)) + 0x100) &&& 0xF0#8)) ∧
      (∀ i, i < 256 → t.readByte .cmb i = t.readByte .cmb (i &&& 0x3F)) ∧
      SameRegisters s t ∧ SameMemoryOutside (fun m a => m = .cmb ∧ a < 256) s t

/-- `CNARROW` in `RUN` (R219): with `NARROW` = 1 entries 0x20 .. 0x5F and 0x80 .. 0xFF become 0 and nothing else changes;
with `NARROW` = 0 nothing changes. -/
def Obligations.CnarrowCommand : Prop :=
  ∀ s : State, s.phase = .run →
    ∃ t, exec .cnarrow s = .next t ∧ SameRegisters s t ∧
      (s.narrow = true →
        (∀ i, ((0x20 ≤ i ∧ i < 0x60) ∨ (0x80 ≤ i ∧ i < 0x100)) → t.readByte .cmb i = 0#8) ∧
          SameMemoryOutside (fun m a => m = .cmb ∧ ((0x20 ≤ a ∧ a < 0x60) ∨ (0x80 ≤ a ∧ a < 0x100))) s t) ∧
      (s.narrow = false → SameMemory s t)

/-- `CSPLIT` in `RUN` (R222, R228): `COUT[i]` takes the low nibble of entry i and `COUT[i + 256]` its high nibble, for
every i and in every mode; no other byte and no register changes. -/
def Obligations.CsplitCommand : Prop :=
  ∀ s : State, s.phase = .run →
    ∃ t, exec .csplit s = .next t ∧
      (∀ i, i < 256 → t.readByte .cout i = s.readByte .cmb i &&& 0x0F#8 ∧
        t.readByte .cout (i + 256) =
          if s.params.hpLow then s.readByte .cmb i >>> 4 else s.readByte .cmb i &&& 0xF0#8) ∧
      SameRegisters s t ∧ SameMemoryOutside (fun m a => m = .cout ∧ a < 512) s t

/-- `CREPACK` in `RUN` leaves the state that `CDELIN`, `CNARROW` and `CSPLIT` issued one after another leave, and writes
only `CMB` and `COUT` (R224). -/
def Obligations.CrepackIsTheThreeSteps : Prop :=
  ∀ s : State, s.phase = .run →
    ∃ t1 t2 t, exec .cdelin s = .next t1 ∧ exec .cnarrow t1 = .next t2 ∧ exec .csplit t2 = .next t ∧
      exec .crepack s = .next t ∧ SameRegisters s t ∧
      SameMemoryOutside (fun m a => (m = .cmb ∧ a < 256) ∨ (m = .cout ∧ a < 512)) s t

/-- `CREPACK` depends only on 128 bytes of `CIN`, the mode and `HP_LOW` (R217, R224): two states that agree on those get
the same `CMB` and the same `COUT`, whatever else they hold. -/
def Obligations.CrepackDependsOnlyOnItsInputs : Prop :=
  ∀ s s' t t' : State, s.phase = .run → s'.phase = .run → s'.params.hpLow = s.params.hpLow →
    s'.narrow = s.narrow →
    (∀ a, (a < 0x20 ∨ (0x60 ≤ a ∧ a < 0x80)) →
      s'.readByte .cin a = s.readByte .cin a ∧ s'.readByte .cin (a + 0x100) = s.readByte .cin (a + 0x100)) →
    exec .crepack s = .next t → exec .crepack s' = .next t' →
      (∀ i, i < 256 → t'.readByte .cmb i = t.readByte .cmb i) ∧
        (∀ a, a < 512 → t'.readByte .cout a = t.readByte .cout a)

/-- The weak round trip that R225 proves: delinearize, re-split (with or without narrowing between), feed the image back
as input, delinearize again, and the first entry buffer is reproduced. -/
def Obligations.RepackRoundTrip : Prop :=
  ∀ s t1 t2 t3 s' t4 : State, s.phase = .run → exec .cdelin s = .next t1 →
    (t2 = t1 ∨ exec .cnarrow t1 = .next t2) → exec .csplit t2 = .next t3 →
    s'.phase = .run → s'.params.hpLow = s.params.hpLow →
    (∀ a, a < 512 → s'.readByte .cin a = t3.readByte .cout a) → exec .cdelin s' = .next t4 →
      ∀ i, i < 256 → t4.readByte .cmb i = t1.readByte .cmb i

/-- The relation between the two colour modes (R226): with the same `CIN`, the narrowed image is the wide one with the
bytes of the zeroed entries 0. -/
def Obligations.NarrowImageIsTheWideOneZeroed : Prop :=
  ∀ s s' t t' : State, s.phase = .run → s'.phase = .run → s'.params.hpLow = s.params.hpLow →
    s.narrow = false → s'.narrow = true → (∀ a, a < 512 → s'.readByte .cin a = s.readByte .cin a) →
    exec .crepack s = .next t → exec .crepack s' = .next t' →
      ∀ a, a < 512 → t'.readByte .cout a =
        if (0x20 ≤ a ∧ a < 0x60) ∨ (0x80 ≤ a ∧ a < 0x100) ∨ (0x120 ≤ a ∧ a < 0x160) ∨ (0x180 ≤ a ∧ a < 0x200) then 0#8
        else t.readByte .cout a

/-! ### COMMIT -/

/-- `COMMIT` in `CONFIG` (R240, R248): it enters `RUN`, changing nothing else, exactly when the configuration meets the
invariants of `RUN`; otherwise it raises `ConfigurationError` with a sub-code of 1 to 5. -/
def Obligations.CommitAcceptsExactlyGoodConfigurations : Prop :=
  ∀ s : State, s.phase = .config →
    (Committed s → ∃ t, exec .commit s = .next t ∧ t.phase = .run ∧ t.err = s.err ∧ t.fop = s.fop ∧
      t.finfo = s.finfo ∧ SameConfiguration s t ∧ t.result = s.result ∧ SameModelFields s t ∧ SameMemory s t) ∧
    (¬ Committed s → ∃ t info, exec .commit s = .next t ∧ FaultedFrom s t .configurationError 0x01 info ∧
      SameMemory s t ∧ 1 ≤ (info.extractLsb' 24 8).toNat ∧ (info.extractLsb' 24 8).toNat ≤ 5)

/-- Check 1 (R241): the first unwritten scalar, in ascending register number, is reported with sub-code 1. -/
def Obligations.CommitReportsFirstUnwrittenScalar : Prop :=
  ∀ (s : State) (k : Fin 7), s.phase = .config →
    (∀ j : Fin 7, j < k → [s.amask.written, s.bussize.written, s.srclen.written, s.dctl.written, s.cmode.written,
      s.gwin.written, s.glen.written][j] = true) →
    [s.amask.written, s.bussize.written, s.srclen.written, s.dctl.written, s.cmode.written, s.gwin.written,
      s.glen.written][k] = false →
      ∃ t, exec .commit s = .next t ∧ SameMemory s t ∧
        FaultedFrom s t .configurationError 0x01 (0x01#8 ++ (BitVec.ofNat 8 (0x10 + k.val) ++ 0#16))

/-- Checks 2 and 3 (R242, R243): the shape of the general slot, then the sizes. -/
def Obligations.CommitReportsShapesAndSizes : Prop :=
  ∀ s : State, s.phase = .config → ScalarsWritten s →
    ∀ info : Word,
      ((32 < s.gwin.val.toNat ∧ info = 0x03150000) ∨
        (s.gwin.val.toNat ≤ 32 ∧ 32 < s.glen.val.toNat ∧ info = 0x03160000) ∨
        (s.gwin.val.toNat ≤ 32 ∧ s.glen.val.toNat ≤ 32 ∧ 2 ^ s.params.aw < s.bussize.val.toNat ∧ info = 0x04110000) ∨
        (s.gwin.val.toNat ≤ 32 ∧ s.glen.val.toNat ≤ 32 ∧ s.bussize.val.toNat ≤ 2 ^ s.params.aw ∧
          2 ^ s.params.aw < s.srclen.val.toNat ∧ info = 0x04120000)) →
      ∃ t, exec .commit s = .next t ∧ SameMemory s t ∧ FaultedFrom s t .configurationError 0x01 info

/-- Check 4 (R244): the first required entry that is unwritten, in ascending register number, is reported with
sub-code 1. -/
def Obligations.CommitReportsFirstUnwrittenEntry : Prop :=
  ∀ (s : State) (r : RegId), s.phase = .config → ScalarsWritten s → s.gwin.val.toNat ≤ 32 → s.glen.val.toNat ≤ 32 →
    s.bussize.val.toNat ≤ 2 ^ s.params.aw → s.srclen.val.toNat ≤ 2 ^ s.params.aw →
    RequiredEntry s r → s.readReg r = none →
    (∀ r', RequiredEntry s r' → (numberOfReg r').toNat < (numberOfReg r).toNat → s.readReg r' ≠ none) →
      ∃ t, exec .commit s = .next t ∧ SameMemory s t ∧
        FaultedFrom s t .configurationError 0x01 (0x01#8 ++ (numberOfReg r ++ 0#16))

/-- Check 5 (R245): the first required entry not below its slot's input width is reported with sub-code 2, its number,
its index and its value. -/
def Obligations.CommitReportsFirstIndexOutOfRange : Prop :=
  ∀ (s : State) (r : RegId), s.phase = .config → ScalarsWritten s → s.gwin.val.toNat ≤ 32 → s.glen.val.toNat ≤ 32 →
    s.bussize.val.toNat ≤ 2 ^ s.params.aw → s.srclen.val.toNat ≤ 2 ^ s.params.aw → RequiredEntriesWritten s →
    RequiredEntry s r → entryWidth s r ≤ (entryValue s r).toNat →
    (∀ r', RequiredEntry s r' → (numberOfReg r').toNat < (numberOfReg r).toNat →
      (entryValue s r').toNat < entryWidth s r') →
      ∃ t, exec .commit s = .next t ∧ SameMemory s t ∧
        FaultedFrom s t .configurationError 0x01
          (0x02#8 ++ (numberOfReg r ++ (BitVec.ofNat 8 (entryIndex r) ++ entryValue s r)))

/-- Check 6 (R246): with `DSHARE` = 1 the first j at which `DORD[7 − DORD[j]]` is not 7 − j is reported with sub-code 5,
register 0x40 + j, j and `DORD[j]`. -/
def Obligations.CommitReportsFirstNotSelfInverse : Prop :=
  ∀ (s : State) (j : Fin 8), s.phase = .config → ScalarsWritten s → s.gwin.val.toNat ≤ 32 → s.glen.val.toNat ≤ 32 →
    s.bussize.val.toNat ≤ 2 ^ s.params.aw → s.srclen.val.toNat ≤ 2 ^ s.params.aw → RequiredEntriesWritten s →
    RequiredEntriesInRange s → s.dshare = true →
    s.decodeOrdering[7 - s.dord[j].val.toNat]? ≠ some (7 - j.val) →
    (∀ i : Fin 8, i < j → s.decodeOrdering[7 - s.dord[i].val.toNat]? = some (7 - i.val)) →
      ∃ t, exec .commit s = .next t ∧ SameMemory s t ∧
        FaultedFrom s t .configurationError 0x01
          (0x05#8 ++ (BitVec.ofNat 8 (0x40 + j.val) ++ (BitVec.ofNat 8 j.val ++ s.dord[j].val)))

/-! ### The whole machine -/

/-- The phase changes only as R25 says: `CONFIG` to `RUN` by a `COMMIT` of a good configuration, `CONFIG` or `RUN` to
`FAULT`, anything to `CONFIG` by `Reset`. -/
def Obligations.PhaseTransitions : Prop :=
  ∀ s t : State, step s = .next t →
    t.phase = s.phase ∨
      (s.phase = .config ∧ t.phase = .run ∧ Committed s ∧
        ∃ w rest, (s.pending = .cmd w :: rest ∨ s.pending = .regWrite 0 w :: rest) ∧ decode w = .ok .commit) ∨
      (s.phase ≠ .fault ∧ t.phase = .fault ∧ t.err ≠ .none) ∨
      (t.phase = .config ∧ ∃ rest, s.pending = .reset :: rest)

/-- Outside `CONFIG` no transaction but `Reset` changes a configuration register (R36, R74, R248). -/
def Obligations.ConfigurationIsFrozenOutsideConfig : Prop :=
  ∀ (s t : State) (x : Txn), s.phase ≠ .config → x ≠ .reset → runTxn x s = .next t → SameConfiguration s t

/-- A command that raises has written nothing other than fault entry, but for `DST[0 .. SRCLEN−1]` after a sweep (R271). -/
def Obligations.FaultsArePrecise : Prop :=
  ∀ (i : Instr) (s t : State), s.phase ≠ .fault → exec i s = .next t → t.phase = .fault →
    SameConfiguration s t ∧ t.result = s.result ∧ SameModelFields s t ∧
      SameMemoryOutside (fun m a => (i = .decsw ∨ i = .reenc) ∧ m = .dst ∧ a < s.srclen.val.toNat) s t

/-- Every command ends in a next state, in every state, and so does every transaction the host can present but a read of
a register, which R38 and R39 may refuse (R313). -/
def Obligations.EveryCommandEnds : Prop :=
  (∀ (i : Instr) (s : State), Completes (exec i s)) ∧
    ∀ (x : Txn) (s : State), presentable s.params x = true → (∀ n, x ≠ .regRead n) → Completes (runTxn x s)

/-! ### The host side -/

/-- A bus that loads (R172, R174 to R178): the buffer has the bus's size, and slot k's window is all ones in the reserved
window, the file's first bytes for a file slot, zeros for an empty first slot, and the preceding window's bytes for any
other empty slot. -/
def Obligations.LoadedBusWindows : Prop :=
  ∀ (files : List NamedFile) (ff : Option Nat) (b : Bus) (buf : List Byte), 0 < b.chipSize →
    loadBus files ff b = .ok buf →
      buf.length = b.chipSize * b.slots.length ∧
        ∀ k j, k < b.slots.length → j < b.chipSize →
          ((b.role = .programROM ∧ ff = some (k * b.chipSize)) → buf[k * b.chipSize + j]? = some 0xFF#8) ∧
            (¬ (b.role = .programROM ∧ ff = some (k * b.chipSize)) →
              (∀ name, b.slots[k]? = some name → name ≠ "" →
                ∃ bs, files.lookup name = some bs ∧ b.chipSize ≤ bs.length ∧ buf[k * b.chipSize + j]? = bs[j]?) ∧
              (b.slots[k]? = some "" → k = 0 → buf[j]? = some 0#8) ∧
              (b.slots[k]? = some "" → 0 < k → buf[k * b.chipSize + j]? = buf[(k - 1) * b.chipSize + j]?))

/-- A bus fails to load with the `LoadError` of a name exactly when the first slot that fails has that name: a file slot
outside the reserved window whose file is missing or short (R177). It fails with no other error. -/
def Obligations.LoadFailsExactlyOnMissingOrShortFiles : Prop :=
  ∀ (files : List NamedFile) (ff : Option Nat) (b : Bus),
    (∀ name, loadBus files ff b = .error (.loadError name) ↔
      ∃ k, b.slots[k]? = some name ∧ SlotFails files ff b (k * b.chipSize) name ∧
        ∀ j other, j < k → b.slots[j]? = some other → ¬ SlotFails files ff b (j * b.chipSize) other) ∧
      ∀ e, loadBus files ff b = .error e → ∃ name, e = .loadError name

/-- Loading a bus whose every slot names a file of exactly the chip size, outside any reserved window, and saving the
buffer to the same slots writes every file back byte for byte under the prefix, in slot order (R177, R180; the loader
and saver's part of R186). -/
def Obligations.LoadThenSaveReproducesFiles : Prop :=
  ∀ (files chips : List NamedFile) (b : Bus) (pre : String), 0 < b.chipSize →
    b.slots = chips.map (fun c => c.1) →
    (∀ c ∈ chips, c.1 ≠ "" ∧ files.lookup c.1 = some c.2 ∧ c.2.length = b.chipSize) →
      ∃ buf, loadBus files none b = .ok buf ∧
        saveBus pre [] b buf = .ok (chips.map (fun c => (pre ++ c.1, c.2)))

/-- The exit signal of a run that ends (R277): 0 exactly when the block's `STATUS.ERR` is 0 and there was no host error;
the block's `STATUS.ERR`, with nothing written, when the block faulted; 2, with nothing written, for a LoadError, which is
what a load that fails gives; 3, with nothing written, for a SaveError, which only a name that cannot be written gives (R183
steps 2 and 7, R185). A file is written only by a run that exits 0. -/
def Obligations.ConversionExitSignal : Prop :=
  ∀ (c : Conversion) (s : State) (r : ConversionResult), convert c s = .next r →
    (r.exitSignal = 0 ↔ r.block.err = .none ∧ r.hostError = none) ∧
      (r.block.err ≠ .none → r.exitSignal = r.block.err.code ∧ r.hostError = none ∧ r.written = []) ∧
      (∀ name, r.hostError = some (.loadError name) → r.exitSignal = 2 ∧ r.written = []) ∧
      (∀ name, r.hostError = some (.saveError name) →
        r.exitSignal = 3 ∧ r.written = [] ∧ name ∈ c.unwritable) ∧
      (∀ e, loadLayout c.files c.ffwinOff c.source = .error e → r.hostError = some e ∧ r.exitSignal = 2) ∧
      (r.exitSignal ≠ 0 → r.written = []) ∧
      (r.exitSignal = 0 → ∀ f ∈ r.written, f.1 ∉ c.unwritable)
end

