-- ==== Sys2Proof/Laws/Commit.lean ====
section
/-! SUPPORT. What the checks of `COMMIT` look at: a slot's entries, the required entries slot by slot, and the data
ordering's entries (45_control.md R244 to R246). -/

namespace Sys2Proof.Machine

/-- The entries of a slot, by index. -/
theorem mem_slotEntries (base win n : Nat) (regs : List (Reg 8)) (e : Entry) :
    e ∈ slotEntries base win n regs ↔
      ∃ k, ∃ h : k < regs.length, k < n ∧ e = ⟨BitVec.ofNat 8 (base + k), k, win, regs[k]⟩ := by
  simp only [slotEntries, List.mem_map, List.mem_zipIdx_iff_getElem?, List.getElem?_take]
  constructor
  · rintro ⟨⟨r, k⟩, h, rfl⟩
    simp only at h
    split at h
    · next hk =>
      obtain ⟨hl, he⟩ := List.getElem?_eq_some_iff.mp h
      exact ⟨k, hl, hk, by simp [he]⟩
    · cases h
  · rintro ⟨k, hl, hk, rfl⟩
    exact ⟨(regs[k], k), by simp [hk, hl], rfl⟩

theorem forall_mem_slotEntries {N : Nat} (base win n : Nat) (v : Vector (Reg 8) N) (P : Entry → Prop) :
    (∀ e ∈ slotEntries base win n v.toList, P e) ↔
      ∀ k : Fin N, k.val < n → P ⟨BitVec.ofNat 8 (base + k), k, win, v[k]⟩ := by
  constructor
  · intro h k hk
    exact h _ ((mem_slotEntries _ _ _ _ _).2 ⟨k, by simp, hk, by simp⟩)
  · intro h e he
    obtain ⟨k, hl, hk, rfl⟩ := (mem_slotEntries _ _ _ _ _).1 he
    simpa using h ⟨k, by simpa using hl⟩ hk

/-- The required entries, slot by slot (R244). -/
theorem forall_mem_requiredEntries (s : State) (P : Entry → Prop) :
    (∀ e ∈ requiredEntries s, P e) ↔
      (∀ k : Fin 31, k.val < s.params.aw → P ⟨BitVec.ofNat 8 (0x20 + k), k, s.params.aw, s.aord[k]⟩) ∧
        (∀ k : Fin 8, P ⟨BitVec.ofNat 8 (0x40 + k), k, 8, s.dord[k]⟩) ∧
        (s.dshare = false → ∀ k : Fin 8, P ⟨BitVec.ofNat 8 (0x48 + k), k, 8, s.eord[k]⟩) ∧
        (∀ k : Fin 32, k.val < s.glen.val.toNat →
          P ⟨BitVec.ofNat 8 (0x60 + k), k, s.gwin.val.toNat, s.gord[k]⟩) := by
  unfold requiredEntries
  simp only [List.forall_mem_append, forall_mem_slotEntries]
  cases s.dshare <;> simp [forall_mem_slotEntries]

theorem length_decodeOrdering (s : State) : s.decodeOrdering.length = 8 := by simp [State.decodeOrdering, orderingOf]

theorem getElem?_decodeOrdering (s : State) (k : Fin 8) :
    s.decodeOrdering[k.val]? = some s.dord[k].val.toNat := by
  have : k.val < 8 := k.isLt
  simp [State.decodeOrdering, orderingOf, this]

end Sys2Proof.Machine
end

