-- ==== Sys2Proof/Laws/Decode.lean ====
section
/-! SUPPORT. The four fields of a packed command word, and the slot select both ways (30_encoding.md R91). -/

namespace Sys2Proof

@[simp] theorem opField_packCmd (arg : Word) (sel : BitVec 2) (op : BitVec 8) : opField (packCmd arg sel op) = op := by
  apply BitVec.eq_of_getLsbD_eq
  intro i hi
  simp only [opField, packCmd, BitVec.getLsbD_extractLsb', BitVec.getLsbD_append]
  have : i < 32 := by omega
  have : i < 10 := by omega
  simp [*]

@[simp] theorem selField_packCmd (arg : Word) (sel : BitVec 2) (op : BitVec 8) : selField (packCmd arg sel op) = sel := by
  apply BitVec.eq_of_getLsbD_eq
  intro i hi
  simp only [selField, packCmd, BitVec.getLsbD_extractLsb', BitVec.getLsbD_append]
  have h1 : 8 + i < 32 := by omega
  have h2 : 8 + i < 10 := by omega
  have h3 : ¬ 8 + i < 8 := by omega
  have h4 : 8 + i - 8 = i := by omega
  simp [*]

@[simp] theorem rsvField_packCmd (arg : Word) (sel : BitVec 2) (op : BitVec 8) : rsvField (packCmd arg sel op) = 0#22 := by
  apply BitVec.eq_of_getLsbD_eq
  intro i hi
  simp only [rsvField, packCmd, BitVec.getLsbD_extractLsb', BitVec.getLsbD_append]
  have h1 : 10 + i < 32 := by omega
  have h2 : ¬ 10 + i < 10 := by omega
  simp [*]

@[simp] theorem argField_packCmd (arg : Word) (sel : BitVec 2) (op : BitVec 8) : argField (packCmd arg sel op) = arg := by
  apply BitVec.eq_of_getLsbD_eq
  intro i hi
  simp only [argField, packCmd, BitVec.getLsbD_extractLsb', BitVec.getLsbD_append]
  have h1 : ¬ 32 + i < 32 := by omega
  have h2 : 32 + i - 32 = i := by omega
  simp [*]

/-- A command word is its four fields. -/
theorem packCmd_fields (w : CmdWord) (h : rsvField w = 0#22) : packCmd (argField w) (selField w) (opField w) = w := by
  apply BitVec.eq_of_getLsbD_eq
  intro i hi
  simp only [packCmd, BitVec.getLsbD_append, opField, selField, argField, BitVec.getLsbD_extractLsb']
  by_cases h1 : i < 32
  · by_cases h2 : i < 10
    · by_cases h3 : i < 8
      · simp [h1, h2, h3]
      · have h4 : i - 8 < 2 := by omega
        have h5 : 8 + (i - 8) = i := by omega
        simp [h1, h2, h3, h4, h5]
    · have h4 : i - 10 < 22 := by omega
      have h5 : 10 + (i - 10) = i := by omega
      have h6 := congrArg (fun x => x.getLsbD (i - 10)) h
      simp only [rsvField, BitVec.getLsbD_extractLsb', h4, decide_true, Bool.true_and, h5, BitVec.getLsbD_zero] at h6
      simp [h1, h2, h6]
  · have h4 : i - 32 < 32 := by omega
    have h5 : 32 + (i - 32) = i := by omega
    simp [h1, h4, h5]

@[simp] theorem slotOfSel_selOfSlot (s : Slot) : slotOfSel (selOfSlot s) = s := by cases s <;> rfl

theorem selOfSlot_slotOfSel : ∀ sel : BitVec 2, selOfSlot (slotOfSel sel) = sel := by decide

end Sys2Proof
end

