-- ==== Sys2Proof/Laws/State.lean ====
section
/-! SUPPORT. One lemma per field and per named update of State, so that no proof unfolds a record update. -/

namespace Sys2Proof.Machine

variable (s : State) (m : MemId) (mem : Memory) (v : Word) (op : BitVec 8) (r : Raise) (y : Reply) (lo : Nat) (bs : List Byte)

@[simp] theorem setResult_phase : (s.setResult v).phase = s.phase := rfl
@[simp] theorem setResult_err : (s.setResult v).err = s.err := rfl
@[simp] theorem setResult_fop : (s.setResult v).fop = s.fop := rfl
@[simp] theorem setResult_finfo : (s.setResult v).finfo = s.finfo := rfl
@[simp] theorem setResult_result : (s.setResult v).result = ⟨v, true⟩ := rfl
@[simp] theorem setResult_amask : (s.setResult v).amask = s.amask := rfl
@[simp] theorem setResult_bussize : (s.setResult v).bussize = s.bussize := rfl
@[simp] theorem setResult_srclen : (s.setResult v).srclen = s.srclen := rfl
@[simp] theorem setResult_dctl : (s.setResult v).dctl = s.dctl := rfl
@[simp] theorem setResult_cmode : (s.setResult v).cmode = s.cmode := rfl
@[simp] theorem setResult_gwin : (s.setResult v).gwin = s.gwin := rfl
@[simp] theorem setResult_glen : (s.setResult v).glen = s.glen := rfl
@[simp] theorem setResult_aord : (s.setResult v).aord = s.aord := rfl
@[simp] theorem setResult_dord : (s.setResult v).dord = s.dord := rfl
@[simp] theorem setResult_eord : (s.setResult v).eord = s.eord := rfl
@[simp] theorem setResult_gord : (s.setResult v).gord = s.gord := rfl
@[simp] theorem setResult_src : (s.setResult v).src = s.src := rfl
@[simp] theorem setResult_dst : (s.setResult v).dst = s.dst := rfl
@[simp] theorem setResult_cin : (s.setResult v).cin = s.cin := rfl
@[simp] theorem setResult_cmb : (s.setResult v).cmb = s.cmb := rfl
@[simp] theorem setResult_cout : (s.setResult v).cout = s.cout := rfl
@[simp] theorem setResult_params : (s.setResult v).params = s.params := rfl
@[simp] theorem setResult_epoch : (s.setResult v).epoch = s.epoch := rfl
@[simp] theorem setResult_pending : (s.setResult v).pending = s.pending := rfl
@[simp] theorem setResult_replies : (s.setResult v).replies = s.replies := rfl

@[simp] theorem raise_phase : (s.raise op r).phase = .fault := rfl
@[simp] theorem raise_err : (s.raise op r).err = r.err := rfl
@[simp] theorem raise_fop : (s.raise op r).fop = op := rfl
@[simp] theorem raise_finfo : (s.raise op r).finfo = r.info := rfl
@[simp] theorem raise_result : (s.raise op r).result = s.result := rfl
@[simp] theorem raise_amask : (s.raise op r).amask = s.amask := rfl
@[simp] theorem raise_bussize : (s.raise op r).bussize = s.bussize := rfl
@[simp] theorem raise_srclen : (s.raise op r).srclen = s.srclen := rfl
@[simp] theorem raise_dctl : (s.raise op r).dctl = s.dctl := rfl
@[simp] theorem raise_cmode : (s.raise op r).cmode = s.cmode := rfl
@[simp] theorem raise_gwin : (s.raise op r).gwin = s.gwin := rfl
@[simp] theorem raise_glen : (s.raise op r).glen = s.glen := rfl
@[simp] theorem raise_aord : (s.raise op r).aord = s.aord := rfl
@[simp] theorem raise_dord : (s.raise op r).dord = s.dord := rfl
@[simp] theorem raise_eord : (s.raise op r).eord = s.eord := rfl
@[simp] theorem raise_gord : (s.raise op r).gord = s.gord := rfl
@[simp] theorem raise_src : (s.raise op r).src = s.src := rfl
@[simp] theorem raise_dst : (s.raise op r).dst = s.dst := rfl
@[simp] theorem raise_cin : (s.raise op r).cin = s.cin := rfl
@[simp] theorem raise_cmb : (s.raise op r).cmb = s.cmb := rfl
@[simp] theorem raise_cout : (s.raise op r).cout = s.cout := rfl
@[simp] theorem raise_params : (s.raise op r).params = s.params := rfl
@[simp] theorem raise_epoch : (s.raise op r).epoch = s.epoch := rfl
@[simp] theorem raise_pending : (s.raise op r).pending = s.pending := rfl
@[simp] theorem raise_replies : (s.raise op r).replies = s.replies := rfl

@[simp] theorem reply_phase : (s.reply y).phase = s.phase := rfl
@[simp] theorem reply_err : (s.reply y).err = s.err := rfl
@[simp] theorem reply_fop : (s.reply y).fop = s.fop := rfl
@[simp] theorem reply_finfo : (s.reply y).finfo = s.finfo := rfl
@[simp] theorem reply_result : (s.reply y).result = s.result := rfl
@[simp] theorem reply_amask : (s.reply y).amask = s.amask := rfl
@[simp] theorem reply_bussize : (s.reply y).bussize = s.bussize := rfl
@[simp] theorem reply_srclen : (s.reply y).srclen = s.srclen := rfl
@[simp] theorem reply_dctl : (s.reply y).dctl = s.dctl := rfl
@[simp] theorem reply_cmode : (s.reply y).cmode = s.cmode := rfl
@[simp] theorem reply_gwin : (s.reply y).gwin = s.gwin := rfl
@[simp] theorem reply_glen : (s.reply y).glen = s.glen := rfl
@[simp] theorem reply_aord : (s.reply y).aord = s.aord := rfl
@[simp] theorem reply_dord : (s.reply y).dord = s.dord := rfl
@[simp] theorem reply_eord : (s.reply y).eord = s.eord := rfl
@[simp] theorem reply_gord : (s.reply y).gord = s.gord := rfl
@[simp] theorem reply_src : (s.reply y).src = s.src := rfl
@[simp] theorem reply_dst : (s.reply y).dst = s.dst := rfl
@[simp] theorem reply_cin : (s.reply y).cin = s.cin := rfl
@[simp] theorem reply_cmb : (s.reply y).cmb = s.cmb := rfl
@[simp] theorem reply_cout : (s.reply y).cout = s.cout := rfl
@[simp] theorem reply_params : (s.reply y).params = s.params := rfl
@[simp] theorem reply_epoch : (s.reply y).epoch = s.epoch := rfl
@[simp] theorem reply_pending : (s.reply y).pending = s.pending := rfl
@[simp] theorem reply_replies : (s.reply y).replies = y :: s.replies := rfl

@[simp] theorem setMem_phase : (s.setMem m mem).phase = s.phase := by cases m <;> rfl
@[simp] theorem setMem_err : (s.setMem m mem).err = s.err := by cases m <;> rfl
@[simp] theorem setMem_fop : (s.setMem m mem).fop = s.fop := by cases m <;> rfl
@[simp] theorem setMem_finfo : (s.setMem m mem).finfo = s.finfo := by cases m <;> rfl
@[simp] theorem setMem_result : (s.setMem m mem).result = s.result := by cases m <;> rfl
@[simp] theorem setMem_amask : (s.setMem m mem).amask = s.amask := by cases m <;> rfl
@[simp] theorem setMem_bussize : (s.setMem m mem).bussize = s.bussize := by cases m <;> rfl
@[simp] theorem setMem_srclen : (s.setMem m mem).srclen = s.srclen := by cases m <;> rfl
@[simp] theorem setMem_dctl : (s.setMem m mem).dctl = s.dctl := by cases m <;> rfl
@[simp] theorem setMem_cmode : (s.setMem m mem).cmode = s.cmode := by cases m <;> rfl
@[simp] theorem setMem_gwin : (s.setMem m mem).gwin = s.gwin := by cases m <;> rfl
@[simp] theorem setMem_glen : (s.setMem m mem).glen = s.glen := by cases m <;> rfl
@[simp] theorem setMem_aord : (s.setMem m mem).aord = s.aord := by cases m <;> rfl
@[simp] theorem setMem_dord : (s.setMem m mem).dord = s.dord := by cases m <;> rfl
@[simp] theorem setMem_eord : (s.setMem m mem).eord = s.eord := by cases m <;> rfl
@[simp] theorem setMem_gord : (s.setMem m mem).gord = s.gord := by cases m <;> rfl
@[simp] theorem setMem_params : (s.setMem m mem).params = s.params := by cases m <;> rfl
@[simp] theorem setMem_epoch : (s.setMem m mem).epoch = s.epoch := by cases m <;> rfl
@[simp] theorem setMem_pending : (s.setMem m mem).pending = s.pending := by cases m <;> rfl
@[simp] theorem setMem_replies : (s.setMem m mem).replies = s.replies := by cases m <;> rfl

@[simp] theorem writeBytes_phase : (s.writeBytes m lo bs).phase = s.phase := by cases m <;> rfl
@[simp] theorem writeBytes_err : (s.writeBytes m lo bs).err = s.err := by cases m <;> rfl
@[simp] theorem writeBytes_fop : (s.writeBytes m lo bs).fop = s.fop := by cases m <;> rfl
@[simp] theorem writeBytes_finfo : (s.writeBytes m lo bs).finfo = s.finfo := by cases m <;> rfl
@[simp] theorem writeBytes_result : (s.writeBytes m lo bs).result = s.result := by cases m <;> rfl
@[simp] theorem writeBytes_amask : (s.writeBytes m lo bs).amask = s.amask := by cases m <;> rfl
@[simp] theorem writeBytes_bussize : (s.writeBytes m lo bs).bussize = s.bussize := by cases m <;> rfl
@[simp] theorem writeBytes_srclen : (s.writeBytes m lo bs).srclen = s.srclen := by cases m <;> rfl
@[simp] theorem writeBytes_dctl : (s.writeBytes m lo bs).dctl = s.dctl := by cases m <;> rfl
@[simp] theorem writeBytes_cmode : (s.writeBytes m lo bs).cmode = s.cmode := by cases m <;> rfl
@[simp] theorem writeBytes_gwin : (s.writeBytes m lo bs).gwin = s.gwin := by cases m <;> rfl
@[simp] theorem writeBytes_glen : (s.writeBytes m lo bs).glen = s.glen := by cases m <;> rfl
@[simp] theorem writeBytes_aord : (s.writeBytes m lo bs).aord = s.aord := by cases m <;> rfl
@[simp] theorem writeBytes_dord : (s.writeBytes m lo bs).dord = s.dord := by cases m <;> rfl
@[simp] theorem writeBytes_eord : (s.writeBytes m lo bs).eord = s.eord := by cases m <;> rfl
@[simp] theorem writeBytes_gord : (s.writeBytes m lo bs).gord = s.gord := by cases m <;> rfl
@[simp] theorem writeBytes_params : (s.writeBytes m lo bs).params = s.params := by cases m <;> rfl
@[simp] theorem writeBytes_epoch : (s.writeBytes m lo bs).epoch = s.epoch := by cases m <;> rfl
@[simp] theorem writeBytes_pending : (s.writeBytes m lo bs).pending = s.pending := by cases m <;> rfl
@[simp] theorem writeBytes_replies : (s.writeBytes m lo bs).replies = s.replies := by cases m <;> rfl

@[simp] theorem mem_setMem_self : (s.setMem m mem).mem m = mem := by cases m <;> rfl

theorem mem_setMem_of_ne {m m' : MemId} (h : m' ≠ m) : (s.setMem m mem).mem m' = s.mem m' := by
  cases m <;> cases m' <;> first | rfl | exact absurd rfl h

@[simp] theorem mem_setResult : (s.setResult v).mem m = s.mem m := by cases m <;> rfl
@[simp] theorem mem_raise : (s.raise op r).mem m = s.mem m := by cases m <;> rfl
@[simp] theorem mem_reply : (s.reply y).mem m = s.mem m := by cases m <;> rfl
@[simp] theorem mem_setPending (q : List Txn) : ({ s with pending := q } : State).mem m = s.mem m := by cases m <;> rfl
@[simp] theorem mem_setPhase (p : Phase) : ({ s with phase := p } : State).mem m = s.mem m := by cases m <;> rfl

variable (a : Nat)

@[simp] theorem readByte_setResult : (s.setResult v).readByte m a = s.readByte m a := by simp [State.readByte]
@[simp] theorem readByte_raise : (s.raise op r).readByte m a = s.readByte m a := by simp [State.readByte]
@[simp] theorem readByte_reply : (s.reply y).readByte m a = s.readByte m a := by simp [State.readByte]
@[simp] theorem readByte_setPending (q : List Txn) :
    ({ s with pending := q } : State).readByte m a = s.readByte m a := by simp [State.readByte]
@[simp] theorem readByte_setPhase (p : Phase) :
    ({ s with phase := p } : State).readByte m a = s.readByte m a := by simp [State.readByte]

end Sys2Proof.Machine
end

