-- ==== Sys2Proof/Laws/Memory.lean ====
section
/-! SUPPORT. Reading after writing, and the canonical form of a memory. -/

namespace Sys2Proof.Machine

@[simp] theorem Memory.lookup_nil (a : Nat) : Memory.lookup [] a = none := rfl

theorem Memory.lookup_append (m m' : Memory) (a : Nat) :
    Memory.lookup (m ++ m') a = (Memory.lookup m a).or (Memory.lookup m' a) := by
  induction m with
  | nil => rfl
  | cons c m ih =>
    simp only [List.cons_append, Memory.lookup]
    split
    · rfl
    · exact ih

theorem Memory.lookup_filter (m : Memory) (p : Nat → Bool) (a : Nat) :
    Memory.lookup (m.filter (fun c => p c.1)) a = if p a then Memory.lookup m a else none := by
  induction m with
  | nil => simp
  | cons c m ih =>
    by_cases hc : p c.1 = true
    · rw [List.filter_cons_of_pos (by simpa using hc)]
      simp only [Memory.lookup, ih]
      by_cases hca : c.1 = a
      · subst hca; simp [hc]
      · simp [hca]
    · rw [List.filter_cons_of_neg (by simpa using hc), ih]
      by_cases hca : c.1 = a
      · subst hca; simp [hc]
      · simp [Memory.lookup, hca]

theorem Memory.lookup_cellsFrom (lo : Nat) (bs : List Byte) (a : Nat) :
    Memory.lookup (Memory.cellsFrom lo bs) a = if lo ≤ a then bs[a - lo]? else none := by
  induction bs generalizing lo with
  | nil => simp [Memory.cellsFrom]
  | cons b bs ih =>
    simp only [Memory.cellsFrom, Memory.lookup, ih]
    by_cases h : lo = a
    · subst h; simp
    · by_cases h' : lo ≤ a
      · have hs : a - lo = (a - (lo + 1)) + 1 := by omega
        have h1 : lo + 1 ≤ a := by omega
        simp [h, h', h1, hs]
      · have h1 : ¬ lo + 1 ≤ a := by omega
        simp [h, h', h1]

/-- Everything a block write can do to a read: the bytes of the block, and nothing else. -/
theorem Memory.lookup_writeBlock (m : Memory) (lo : Nat) (bs : List Byte) (a : Nat) :
    (m.writeBlock lo bs).lookup a =
      if lo ≤ a ∧ a < lo + bs.length then bs[a - lo]? else m.lookup a := by
  unfold Memory.writeBlock
  rw [Memory.lookup_append, Memory.lookup_append, Memory.lookup_cellsFrom,
    Memory.lookup_filter m (fun b => decide (b < lo)),
    Memory.lookup_filter m (fun b => decide (lo + bs.length ≤ b))]
  by_cases h1 : a < lo
  · have : ¬ lo ≤ a := by omega
    have h2 : ¬ lo + bs.length ≤ a := by omega
    simp [h1, this, h2]
  · have h3 : lo ≤ a := by omega
    by_cases h2 : a < lo + bs.length
    · have h4 : ¬ lo + bs.length ≤ a := by omega
      simp [h1, h3, h2, h4]
    · have h4 : lo + bs.length ≤ a := by omega
      have h5 : bs[a - lo]? = none := List.getElem?_eq_none (by omega)
      simp [h1, h3, h2, h4, h5]

/-- Read after write, for every memory and address. -/
theorem readByte_writeBytes (s : State) (m m' : MemId) (lo : Nat) (bs : List Byte) (a : Nat) :
    (s.writeBytes m lo bs).readByte m' a =
      if m' = m ∧ lo ≤ a ∧ a < lo + bs.length then bs.getD (a - lo) 0#8 else s.readByte m' a := by
  unfold State.readByte State.writeBytes
  by_cases hm : m' = m
  · subst hm
    rw [mem_setMem_self, Memory.lookup_writeBlock, setMem_epoch]
    by_cases h : lo ≤ a ∧ a < lo + bs.length
    · have hlt : a - lo < bs.length := by omega
      simp [h, hlt]
    · simp [h]
  · rw [mem_setMem_of_ne _ _ hm]
    simp [hm]

theorem readByte_writeBytes_of_ne (s : State) {m m' : MemId} (h : m' ≠ m) (lo : Nat) (bs : List Byte) (a : Nat) :
    (s.writeBytes m lo bs).readByte m' a = s.readByte m' a := by
  simp [readByte_writeBytes, h]

theorem Memory.risingFrom_mono {lo lo' : Nat} (h : lo ≤ lo') :
    ∀ {m : Memory}, Memory.risingFrom lo' m = true → Memory.risingFrom lo m = true
  | [], _ => rfl
  | c :: m, hm => by
    simp only [Memory.risingFrom, Bool.and_eq_true, decide_eq_true_eq] at hm ⊢
    exact ⟨by omega, hm.2⟩

theorem Memory.risingFrom_filter (p : Host.Cell → Bool) :
    ∀ {lo : Nat} {m : Memory}, Memory.risingFrom lo m = true → Memory.risingFrom lo (m.filter p) = true
  | _, [], _ => rfl
  | lo, c :: m, hm => by
    simp only [Memory.risingFrom, Bool.and_eq_true, decide_eq_true_eq] at hm
    have ih := Memory.risingFrom_filter p hm.2
    by_cases hp : p c = true
    · simp [hp, Memory.risingFrom, hm.1, ih]
    · simp only [List.filter_cons, hp]
      exact Memory.risingFrom_mono (by omega) ih

theorem Memory.risingFrom_append :
    ∀ {lo : Nat} {m m' : Memory} {hi : Nat}, Memory.risingFrom lo m = true → (∀ c ∈ m, c.1 < hi) → lo ≤ hi →
      Memory.risingFrom hi m' = true → Memory.risingFrom lo (m ++ m') = true
  | lo, [], m', hi, _, _, hlo, hm' => Memory.risingFrom_mono hlo hm'
  | lo, c :: m, m', hi, hm, hb, _, hm' => by
    simp only [Memory.risingFrom, Bool.and_eq_true, decide_eq_true_eq, List.cons_append] at hm ⊢
    have hc : c.1 < hi := hb c (by simp)
    exact ⟨hm.1, Memory.risingFrom_append hm.2 (fun d hd => hb d (by simp [hd])) (by omega) hm'⟩

theorem Memory.risingFrom_cellsFrom (lo : Nat) (bs : List Byte) :
    Memory.risingFrom lo (Memory.cellsFrom lo bs) = true := by
  induction bs generalizing lo with
  | nil => rfl
  | cons b bs ih => simp [Memory.cellsFrom, Memory.risingFrom, ih]

theorem Memory.address_of_mem_cellsFrom {lo : Nat} {bs : List Byte} {c : Host.Cell}
    (h : c ∈ Memory.cellsFrom lo bs) : lo ≤ c.1 ∧ c.1 < lo + bs.length := by
  induction bs generalizing lo with
  | nil => simp [Memory.cellsFrom] at h
  | cons b bs ih =>
    simp only [Memory.cellsFrom, List.mem_cons] at h
    rcases h with rfl | h
    · simp
    · have := ih h
      simp only [List.length_cons]
      omega

theorem Memory.risingFrom_filter_ge (k : Nat) :
    ∀ {lo : Nat} {m : Memory}, Memory.risingFrom lo m = true →
      Memory.risingFrom k (m.filter (fun c => decide (k ≤ c.1))) = true
  | _, [], _ => rfl
  | lo, c :: m, hm => by
    simp only [Memory.risingFrom, Bool.and_eq_true, decide_eq_true_eq] at hm
    by_cases hk : k ≤ c.1
    · have h2 : Memory.risingFrom (c.1 + 1) (m.filter (fun d => decide (k ≤ d.1))) = true :=
        Memory.risingFrom_filter _ hm.2
      simp [hk, Memory.risingFrom, h2]
    · simp only [List.filter_cons, hk]
      exact Memory.risingFrom_filter_ge k hm.2

/-- Every write keeps the canonical form. -/
theorem Memory.wf_writeBlock {m : Memory} (h : m.wf = true) (lo : Nat) (bs : List Byte) :
    (m.writeBlock lo bs).wf = true := by
  unfold Memory.wf Memory.writeBlock
  refine Memory.risingFrom_append (hi := lo) (Memory.risingFrom_filter _ h) ?_ (Nat.zero_le _) ?_
  · intro c hc
    simpa using (List.mem_filter.mp hc).2
  · refine Memory.risingFrom_append (hi := lo + bs.length) (Memory.risingFrom_cellsFrom lo bs) ?_ (by omega) ?_
    · exact fun c hc => (Memory.address_of_mem_cellsFrom hc).2
    · exact Memory.risingFrom_filter_ge (lo + bs.length) h

/-- A write lists no address but those it writes and those listed before. -/
theorem Memory.address_of_mem_writeBlock {m : Memory} {lo : Nat} {bs : List Byte} {c : Host.Cell}
    (h : c ∈ m.writeBlock lo bs) : c ∈ m ∨ (lo ≤ c.1 ∧ c.1 < lo + bs.length) := by
  simp only [Memory.writeBlock, List.mem_append, List.mem_filter] at h
  rcases h with h | h | h
  · exact .inl h.1
  · exact .inr (Memory.address_of_mem_cellsFrom h)
  · exact .inl h.1

/-- The empty memory of reset is in canonical form. -/
theorem Memory.wf_nil : Memory.wf [] = true := rfl

end Sys2Proof.Machine
end

