-- ==== Sys2Proof/Laws/Ops.lean ====
section
/-! SUPPORT. What each shared operation can do, said once: the phase gate, fault entry, reset, register writes, a
sweep, a returned byte, and a transaction. -/

namespace Sys2Proof.Machine

/-- Everything the phase gate can answer (R96). -/
theorem inPhase_cases {legal : Phase} {op : BitVec 8} {s t : State} {body : Host.Outcome State Fault Refusal}
    (h : inPhase legal op s body = .next t) :
    (s.phase = .fault ∧ t = s) ∨
      (s.phase ≠ .fault ∧ s.phase ≠ legal ∧ t = s.raise op (illegalCommand 2 (op.setWidth 24))) ∨
      (s.phase ≠ .fault ∧ s.phase = legal ∧ body = .next t) := by
  unfold inPhase at h
  split at h
  · next hf => exact .inl ⟨hf, by cases h; rfl⟩
  · next hf =>
    split at h
    · next hp => exact .inr (.inl ⟨hf, hp, by cases h; rfl⟩)
    · next hp => exact .inr (.inr ⟨hf, not_not.mp hp, h⟩)

theorem inPhase_legal {legal : Phase} {op : BitVec 8} {s : State} (body : Host.Outcome State Fault Refusal)
    (hf : legal ≠ .fault) (h : s.phase = legal) : inPhase legal op s body = body := by
  simp [inPhase, h, hf]

theorem inPhase_fault {legal : Phase} {op : BitVec 8} {s : State} (body : Host.Outcome State Fault Refusal)
    (h : s.phase = .fault) : inPhase legal op s body = .next s := by
  simp [inPhase, h]

theorem inPhase_illegal {legal : Phase} {op : BitVec 8} {s : State} (body : Host.Outcome State Fault Refusal)
    (hf : s.phase ≠ .fault) (h : s.phase ≠ legal) :
    inPhase legal op s body = .next (s.raise op (illegalCommand 2 (op.setWidth 24))) := by
  simp [inPhase, h, hf]

/-- Every index of a sweep that gives its byte: the sweep gives them all, in order (R203). -/
theorem sweepBytes_ok (path : Word → Except Raise Byte) :
    ∀ (n i : Nat), (∀ j, j < n → ∃ b, path (BitVec.ofNat 32 (i + j)) = .ok b) →
      ∃ bs, sweepBytes path i n = .ok bs ∧ bs.length = n ∧
        ∀ j, j < n → path (BitVec.ofNat 32 (i + j)) = .ok (bs.getD j 0#8)
  | 0, _, _ => ⟨[], rfl, rfl, fun j hj => absurd hj (by omega)⟩
  | n + 1, i, h => by
    obtain ⟨b, hb⟩ := h 0 (by omega)
    obtain ⟨bs, hbs, hlen, hall⟩ := sweepBytes_ok path n (i + 1) (fun j hj => by
      obtain ⟨c, hc⟩ := h (j + 1) (by omega)
      exact ⟨c, by rw [← hc]; congr 2; omega⟩)
    refine ⟨b :: bs, ?_, by simp [hlen], ?_⟩
    · simp only [Nat.add_zero] at hb
      simp [sweepBytes, hb, hbs]
    · intro j hj
      cases j with
      | zero => simpa using hb
      | succ j =>
        have := hall j (by omega)
        rw [List.getD_cons_succ, ← this]
        congr 2; omega

/-- A sweep in which index i + k raises and no earlier one does: what it raises (R204). -/
theorem sweepBytes_error (path : Word → Except Raise Byte) (r : Raise) :
    ∀ (n i k : Nat), k < n → (∀ j, j < k → ∃ b, path (BitVec.ofNat 32 (i + j)) = .ok b) →
      path (BitVec.ofNat 32 (i + k)) = .error r → sweepBytes path i n = .error r
  | 0, _, _, hk, _, _ => absurd hk (by omega)
  | n + 1, i, 0, _, _, hr => by
    simp only [Nat.add_zero] at hr
    simp [sweepBytes, hr]
  | n + 1, i, k + 1, hk, hb, hr => by
    obtain ⟨b, hb0⟩ := hb 0 (by omega)
    simp only [Nat.add_zero] at hb0
    have ih := sweepBytes_error path r n (i + 1) k (by omega)
      (fun j hj => by obtain ⟨c, hc⟩ := hb (j + 1) (by omega); exact ⟨c, by rw [← hc]; congr 2; omega⟩)
      (by rw [← hr]; congr 2; omega)
    simp [sweepBytes, hb0, ih]

/-- A sweep answers its bytes, one per index, or one raise. -/
theorem sweepBytes_length {path : Word → Except Raise Byte} :
    ∀ {n i : Nat} {bs : List Byte}, sweepBytes path i n = .ok bs → bs.length = n
  | 0, _, _, h => by cases h; rfl
  | n + 1, i, bs, h => by
    simp only [sweepBytes] at h
    split at h
    · cases h
    · split at h
      · cases h
      · next bs' hbs' =>
        cases h
        simp [sweepBytes_length hbs']

/-- Everything a sweep can do: `DST` takes the bytes of every index, or one fault entry is performed and `DST` takes
unspecified bytes (R200, R204). -/
theorem sweep_cases (s : State) (op : BitVec 8) (path : Word → Except Raise Byte) :
    (∃ bs, sweepBytes path 0 s.srclen.val.toNat = .ok bs ∧ sweep s op path = s.writeBytes .dst 0 bs) ∨
      (∃ r, sweepBytes path 0 s.srclen.val.toNat = .error r ∧
        sweep s op path = (s.writeBytes .dst 0 (unspecifiedDst s op)).raise op r) := by
  unfold sweep
  cases h : sweepBytes path 0 s.srclen.val.toNat with
  | ok bs => exact .inl ⟨bs, rfl, rfl⟩
  | error r => exact .inr ⟨r, rfl, rfl⟩

/-- Everything the address path can do (R148). -/
theorem scramble_cases (s : State) (la : Word) :
    (s.bussize.val.toNat ≤ la.toNat ∧ scramble s la = .error ⟨.outOfRangeError, la⟩) ∨
      (la.toNat < s.bussize.val.toNat ∧ s.srclen.val.toNat ≤ physicalAddress s la ∧
        scramble s la = .error ⟨.physRangeError, la⟩) ∨
      (la.toNat < s.bussize.val.toNat ∧ physicalAddress s la < s.srclen.val.toNat ∧
        scramble s la = .ok (physicalAddress s la)) := by
  unfold scramble
  split
  · next h => exact .inl ⟨h, rfl⟩
  · next h =>
    split
    · next h' => exact .inr (.inl ⟨by omega, h', rfl⟩)
    · next h' => exact .inr (.inr ⟨by omega, by omega, rfl⟩)

/-- The path's byte, when both range checks pass (R145). -/
theorem fetchThrough_ok {s : State} {o : List Nat} {la : Word} (h1 : la.toNat < s.bussize.val.toNat)
    (h2 : physicalAddress s la < s.srclen.val.toNat) :
    fetchThrough s o la = .ok (permuteTo 8 (s.readByte .src (physicalAddress s la)) o) := by
  rcases scramble_cases s la with h | h | h
  · omega
  · omega
  · simp [fetchThrough, h.2.2]

/-- What the path raises: the least of the two range errors' stages (R141, R144). -/
theorem fetchThrough_error {s : State} {o : List Nat} {la : Word} {r : Raise} (h : fetchThrough s o la = .error r) :
    (s.bussize.val.toNat ≤ la.toNat ∧ r = ⟨.outOfRangeError, la⟩) ∨
      (la.toNat < s.bussize.val.toNat ∧ s.srclen.val.toNat ≤ physicalAddress s la ∧ r = ⟨.physRangeError, la⟩) := by
  rcases scramble_cases s la with hs | hs | hs
  · simp only [fetchThrough, hs.2] at h
    exact .inl ⟨hs.1, by cases h; rfl⟩
  · simp only [fetchThrough, hs.2.2] at h
    exact .inr ⟨hs.1, hs.2.1, by cases h; rfl⟩
  · simp [fetchThrough, hs.2.2] at h

/-- A step takes the next pending transaction, or does nothing (R304). -/
theorem takeTxn_cons {s : State} {t : Txn} {rest : List Txn} (h : s.pending = t :: rest) :
    takeTxn s = runTxn t { s with pending := rest } := by
  simp [takeTxn, h]

theorem takeTxn_nil {s : State} (h : s.pending = []) : takeTxn s = .next s := by
  simp [takeTxn, h]

theorem runTxn_presented {t : Txn} {s : State} (h : presentationFault s.params t = none) :
    runTxn t s = runPresented t s := by
  simp [runTxn, h]

end Sys2Proof.Machine
end

