-- ==== Sys2Proof/Laws/Dispatch.lean ====
section
/-! SUPPORT. `exec` as the phase gate of R96 around each command's own rule, and the frames of the shared updates. -/

namespace Sys2Proof.Machine

/-- A command's own rule, once its word has matched and its phase is the current one (R96 step 4). -/
def ownRule (s : State) : Instr → State
  | .commit =>
    match configurationDefect s with
    | none => { s with phase := .run }
    | some info => s.raise 0x01 ⟨.configurationError, info⟩
  | .permute sel val =>
    if sel = .eord ∧ s.dshare = true then s.raise 0x10 (illegalCommand 3 0x000210)
    else s.setResult (permuteResult s sel val)
  | .decode la => returnByte s 0x20 (decByte s la)
  | .encode la => returnByte s 0x21 (encByte s la)
  | .decsw => sweep s 0x28 (decByte s)
  | .reenc => sweep s 0x29 (encByte s)
  | .cdelin => delinearize s
  | .cnarrow => narrowing s
  | .csplit => resplit s
  | .crepack => resplit (narrowing (delinearize s))

/-- Every command is its own rule behind the phase gate. -/
theorem exec_eq_gate (i : Instr) (s : State) :
    exec i s = inPhase (legalPhase i) (rowOf i).op s (.next (ownRule s i)) := by
  cases i with
  | commit =>
    simp only [exec, execCommit, legalPhase, rowOf, ownRule]
    cases configurationDefect s <;> rfl
  | permute sel val =>
    simp only [exec, execPermute, legalPhase, rowOf, ownRule]
    congr 1
    split <;> rfl
  | _ => rfl

theorem exec_of_legal {i : Instr} {s : State} (h : s.phase = legalPhase i) : exec i s = .next (ownRule s i) := by
  rw [exec_eq_gate]
  exact inPhase_legal _ (by cases i <;> simp [legalPhase]) h

theorem exec_of_fault {i : Instr} {s : State} (h : s.phase = .fault) : exec i s = .next s := by
  rw [exec_eq_gate]
  exact inPhase_fault _ h

theorem exec_of_illegal {i : Instr} {s : State} (hf : s.phase ≠ .fault) (h : s.phase ≠ legalPhase i) :
    exec i s = .next (s.raise (rowOf i).op (illegalCommand 2 ((rowOf i).op.setWidth 24))) := by
  rw [exec_eq_gate]
  exact inPhase_illegal _ hf h

/-- Everything `exec` can answer. -/
theorem exec_cases {i : Instr} {s t : State} (h : exec i s = .next t) :
    (s.phase = .fault ∧ t = s) ∨
      (s.phase ≠ .fault ∧ s.phase ≠ legalPhase i ∧
        t = s.raise (rowOf i).op (illegalCommand 2 ((rowOf i).op.setWidth 24))) ∨
      (s.phase = legalPhase i ∧ t = ownRule s i) := by
  rw [exec_eq_gate] at h
  rcases inPhase_cases h with h | h | h
  · exact .inl h
  · exact .inr (.inl h)
  · exact .inr (.inr ⟨h.2.1, by cases h.2.2; rfl⟩)

theorem sameConfiguration_refl (s : State) : SameConfiguration s s := by simp [SameConfiguration]

theorem sameModelFields_refl (s : State) : SameModelFields s s := by simp [SameModelFields]

theorem sameMemory_refl (s : State) : SameMemory s s := fun _ _ => rfl

/-- Fault entry, as the frame of R270. -/
theorem faultedFrom_raise (s : State) (op : BitVec 8) (r : Raise) : FaultedFrom s (s.raise op r) r.err op r.info := by
  simp [FaultedFrom, SameConfiguration, SameModelFields]

theorem sameMemory_raise (s : State) (op : BitVec 8) (r : Raise) : SameMemory s (s.raise op r) :=
  fun m a => readByte_raise s m op r a

theorem sameButResult_setResult (s : State) (v : Word) : SameButResult s (s.setResult v) := by
  simp [SameButResult, SameConfiguration, SameStatus, SameModelFields]

theorem sameMemory_setResult (s : State) (v : Word) : SameMemory s (s.setResult v) :=
  fun m a => readByte_setResult s m v a

theorem sameRegisters_writeBytes (s : State) (m : MemId) (lo : Nat) (bs : List Byte) :
    SameRegisters s (s.writeBytes m lo bs) := by
  simp [SameRegisters, SameButResult, SameConfiguration, SameStatus, SameModelFields]

theorem sameMemoryOutside_writeBytes (s : State) (m : MemId) (lo : Nat) (bs : List Byte) :
    SameMemoryOutside (fun m' a => m' = m ∧ lo ≤ a ∧ a < lo + bs.length) s (s.writeBytes m lo bs) := by
  intro m' a h
  rw [readByte_writeBytes, if_neg h]

/-- Each sweep keeps every register and the model's fields, but for what fault entry writes. -/
theorem sweep_keeps (s : State) (op : BitVec 8) (path : Word → Except Raise Byte) :
    SameConfiguration s (sweep s op path) ∧ (sweep s op path).result = s.result ∧
      SameModelFields s (sweep s op path) := by
  rcases sweep_cases s op path with ⟨bs, _, h⟩ | ⟨r, _, h⟩ <;>
    simp [h, SameConfiguration, SameModelFields]

/-- Step 2 of the repacker changes `CMB` alone. -/
theorem sameRegisters_narrowing (s : State) : SameRegisters s (narrowing s) := by
  unfold narrowing
  split <;> simp [SameRegisters, SameButResult, SameConfiguration, SameStatus, SameModelFields]

end Sys2Proof.Machine
end

