-- ==== Sys2Proof/Laws/Host.lean ====
section
/-! SUPPORT. What each operation of the host side can do (42_host_layout.md): the load of a slot and of buses, the save, and
the end of a conversion run. -/

namespace Sys2Proof.Machine

/-- A slot fails to load with the LoadError of its own name, and only when it fails in the sense of R175 and R177. -/
theorem loadSlot_error_iff (files : List NamedFile) (ff : Option Nat) (b : Bus) (off : Nat) (slot : ChipSlot)
    (buf : List Byte) (e : HostError) :
    loadSlot files ff b off slot buf = .error e ↔ e = .loadError slot ∧ SlotFails files ff b off slot := by
  unfold loadSlot SlotFails
  by_cases hw : b.role = .programROM ∧ ff = some off
  · rw [if_pos hw]
    exact ⟨nofun, fun h => absurd hw h.2.2.1⟩
  rw [if_neg hw]
  by_cases hn : slot = ""
  · rw [if_neg (not_not.mpr hn)]
    refine ⟨fun h => ?_, fun h => absurd hn h.2.1⟩
    split at h <;> cases h
  rw [if_pos hn]
  cases hl : files.lookup slot with
  | none => exact ⟨fun h => by cases h; exact ⟨rfl, hn, hw, nofun⟩, fun h => by rw [h.1]⟩
  | some bs =>
    by_cases hs : bs.length < b.chipSize
    · simp only [if_pos hs]
      exact ⟨fun h => by cases h; exact ⟨rfl, hn, hw, fun _ h' => by cases h'; exact hs⟩, fun h => by rw [h.1]⟩
    · simp only [if_neg hs]
      exact ⟨nofun, fun h => absurd (h.2.2.2 bs rfl) hs⟩

/-- A bus that fails to load fails with a LoadError. -/
theorem loadSlots_error (files : List NamedFile) (ff : Option Nat) (b : Bus) {e : HostError} :
    ∀ (slots : List ChipSlot) (k : Nat) (buf : List Byte),
      loadSlots files ff b k slots buf = .error e → ∃ name, e = .loadError name := by
  intro slots
  induction slots with
  | nil => intro k buf h; cases h
  | cons slot rest ih =>
    intro k buf h
    rw [loadSlots] at h
    split at h
    · rename_i e' hs
      cases h
      exact ⟨slot, ((loadSlot_error_iff ..).mp hs).1⟩
    · exact ih _ _ h

/-- Buses that fail to load fail with a LoadError. -/
theorem loadBuses_error (files : List NamedFile) (ff : Option Nat) {e : HostError} :
    ∀ bs : List Bus, loadBuses files ff bs = .error e → ∃ name, e = .loadError name := by
  intro bs
  induction bs with
  | nil => intro h; cases h
  | cons b rest ih =>
    intro h
    rw [loadBuses] at h
    split at h
    · rename_i e' hb
      cases h
      exact loadSlots_error files ff b _ _ _ hb
    · split at h
      · rename_i e' hr
        cases h
        exact ih hr
      · cases h

/-- What a save can do: a name it writes can be written, and a host error that stops it is the SaveError of a name that
cannot (R180). -/
def SaveSpec (unwritable : List String) (r : Except SaveStop (List NamedFile)) : Prop :=
  (∀ fs, r = .ok fs → ∀ f ∈ fs, f.1 ∉ unwritable) ∧
    ∀ e, r = .error (.hostError e) → ∃ name, e = .saveError name ∧ name ∈ unwritable

theorem saveSpec_nil (unwritable : List String) : SaveSpec unwritable (.ok []) := by
  refine ⟨fun fs h f hf => ?_, nofun⟩
  cases h
  cases hf

theorem saveThen_spec {unwritable : List String} {r q : Except SaveStop (List NamedFile)}
    (hr : SaveSpec unwritable r) (hq : SaveSpec unwritable q) : SaveSpec unwritable (saveThen r q) := by
  cases r with
  | error e => exact ⟨nofun, fun e' h => hr.2 e' h⟩
  | ok fs =>
    cases q with
    | error e => exact ⟨nofun, fun e' h => hq.2 e' h⟩
    | ok gs =>
      refine ⟨fun hs h f hf => ?_, nofun⟩
      cases h
      rcases List.mem_append.mp hf with hf | hf
      · exact hr.1 fs rfl f hf
      · exact hq.1 gs rfl f hf

theorem saveSlot_spec (pre : String) (unwritable : List String) (chipSize : Nat) (buf : List Byte) (off : Nat)
    (slot : ChipSlot) : SaveSpec unwritable (saveSlot pre unwritable chipSize buf off slot) := by
  unfold saveSlot
  split
  · exact saveSpec_nil unwritable
  split
  · exact ⟨nofun, nofun⟩
  split
  · rename_i hu
    refine ⟨nofun, fun e h => ?_⟩
    cases h
    exact ⟨_, rfl, by simpa using hu⟩
  · rename_i hu
    refine ⟨fun fs h f hf => ?_, nofun⟩
    cases h
    cases List.mem_singleton.mp hf
    simpa using hu

theorem saveSlots_spec (pre : String) (unwritable : List String) (chipSize : Nat) (buf : List Byte)
    (slots : List ChipSlot) (k : Nat) : SaveSpec unwritable (saveSlots pre unwritable chipSize buf k slots) := by
  induction slots generalizing k with
  | nil => exact saveSpec_nil unwritable
  | cons slot rest ih => exact saveThen_spec (saveSlot_spec ..) (ih (k + 1))

theorem saveBuses_spec (pre : String) (unwritable : List String) (bufs : List (Role × List Byte)) (bs : List Bus) :
    SaveSpec unwritable (saveBuses pre unwritable bufs bs) := by
  induction bs with
  | nil => exact saveSpec_nil unwritable
  | cons b rest ih =>
    refine saveThen_spec ?_ ih
    cases bufs.lookup b.role with
    | none => exact saveSpec_nil unwritable
    | some buf => exact saveSlots_spec pre unwritable b.chipSize buf b.slots 0

/-- How a conversion run that answers a result can have ended: on a LoadError, on an error of the block, or in the save with
the block free of errors. -/
theorem convert_cases {c : Conversion} {s : State} {r : ConversionResult} (h : convert c s = .next r) :
    (∃ e, loadLayout c.files c.ffwinOff c.source = .error e ∧ r = ⟨e.code, [], some e, s.doReset⟩) ∨
      (∃ bufs, loadLayout c.files c.ffwinOff c.source = .ok bufs) ∧
        ((∃ t : State, t.faultOutput = true ∧ r = endedByBlock t) ∨
          ∃ (t : State) (out : List (Role × List Byte)), t.faultOutput = false ∧ finishConversion c out t = .next r) := by
  unfold convert at h
  split at h
  · rename_i e he
    cases h
    exact .inl ⟨e, he, rfl⟩
  · rename_i bufs hb
    refine .inr ⟨⟨bufs, hb⟩, ?_⟩
    unfold runConversion at h
    split at h
    · cases h
    · cases h
    · split at h
      · rename_i t _ ht
        cases h
        exact .inl ⟨t, ht, rfl⟩
      · unfold runColourAndSave at h
        split at h
        · cases h
        · cases h
        · split at h
          · rename_i t _ ht
            cases h
            exact .inl ⟨t, ht, rfl⟩
          · rename_i t _ ht
            exact .inr ⟨t, _, by simpa using ht, h⟩

/-- The `fault` output is low exactly when there is no error (60_exceptions.md R276). -/
theorem faultOutput_eq_false_iff (s : State) : s.faultOutput = false ↔ s.err = .none := by
  unfold State.faultOutput
  cases s.err <;> decide

end Sys2Proof.Machine
end

