-- ==== Sys2Proof/Laws/PerInstr.lean ====
section
/-! SUPPORT. One statement about every instruction's encoding, a lemma per constructor (30_encoding.md R95): an encoded
instruction's opcode byte is its row's, its reserved field is 0, and a field its row does not use is 0. -/

namespace Sys2Proof.Laws.RowFields

/-- The fields of an instruction's word agree with its row of the opcode map. -/
def Statement (i : Instr) : Prop :=
  opField (encode i) = (rowOf i).op ∧ rsvField (encode i) = 0#22 ∧
    ((rowOf i).usesSel = false → selField (encode i) = 0#2) ∧
    ((rowOf i).usesArg = false → argField (encode i) = 0#32)

theorem commit : Statement .commit := by simp [Statement, encode, rowOf]
theorem permute (sel : Slot) (val : Word) : Statement (.permute sel val) := by simp [Statement, encode, rowOf]
theorem decode (la : Word) : Statement (.decode la) := by simp [Statement, encode, rowOf]
theorem encode (la : Word) : Statement (.encode la) := by simp [Statement, Sys2Proof.encode, rowOf]
theorem decsw : Statement .decsw := by simp [Statement, Sys2Proof.encode, rowOf]
theorem reenc : Statement .reenc := by simp [Statement, Sys2Proof.encode, rowOf]
theorem cdelin : Statement .cdelin := by simp [Statement, Sys2Proof.encode, rowOf]
theorem cnarrow : Statement .cnarrow := by simp [Statement, Sys2Proof.encode, rowOf]
theorem csplit : Statement .csplit := by simp [Statement, Sys2Proof.encode, rowOf]
theorem crepack : Statement .crepack := by simp [Statement, Sys2Proof.encode, rowOf]

end Sys2Proof.Laws.RowFields
end

