-- ==== Sys2Proof/Laws/Permute.lean ====
section
/-! SUPPORT. The one thing `permute` does, bit by bit (40_permute.md R120). -/

namespace Sys2Proof.Machine

/-- Bit p of `permute(v, o)` is bit `o[n − 1 − p]` of v, and there are no bits at n and above. -/
theorem getLsbD_permute {w : Nat} (v : BitVec w) (o : List Nat) (p : Nat) :
    (permute v o).getLsbD p = if h : p < o.length then v.getLsbD (o[o.length - 1 - p]'(by omega)) else false := by
  induction o with
  | nil => simp [permute]
  | cons e o ih =>
    simp only [permute, BitVec.getLsbD_cons]
    by_cases h1 : p = o.length
    · subst h1; simp
    · by_cases h2 : p < o.length
      · have h3 : p < (e :: o).length := by simp; omega
        have h4 : (e :: o).length - 1 - p = (o.length - 1 - p) + 1 := by simp; omega
        simp only [h1, if_false, ih, h2, h3, dif_pos, h4, List.getElem_cons_succ]
      · have h3 : ¬ p < (e :: o).length := by simp; omega
        simp only [h1, if_false, ih, h2, h3, dif_neg, not_false_eq_true]

theorem getLsbD_permuteTo {w : Nat} (n : Nat) (v : BitVec w) (o : List Nat) (p : Nat) :
    (permuteTo n v o).getLsbD p = (decide (p < n) && (permute v o).getLsbD p) := by
  simp [permuteTo, BitVec.getLsbD_setWidth]

theorem permute_toNat_lt {w : Nat} (v : BitVec w) (o : List Nat) : (permute v o).toNat < 2 ^ o.length :=
  (permute v o).isLt

end Sys2Proof.Machine
end

