-- ==== Sys2Proof/Laws/Registers.lean ====
section
/-! SUPPORT. The register map both ways (10_state.md R40), and what a register write does to each register. -/

namespace Sys2Proof.Machine

theorem aw_le (p : Params) : p.aw ≤ 31 := by
  have := p.awIndex.isLt
  unfold Params.aw
  omega

theorem aw_pos (p : Params) : 1 ≤ p.aw := by
  unfold Params.aw
  omega

/-- The numbers of the ordering entries. -/
theorem numberOfReg_aord : ∀ k : Fin 31, (numberOfReg (.aord k)).toNat = 0x20 + k.val := by decide
theorem numberOfReg_dord : ∀ k : Fin 8, (numberOfReg (.dord k)).toNat = 0x40 + k.val := by decide
theorem numberOfReg_eord : ∀ k : Fin 8, (numberOfReg (.eord k)).toNat = 0x48 + k.val := by decide
theorem numberOfReg_gord : ∀ k : Fin 32, (numberOfReg (.gord k)).toNat = 0x60 + k.val := by decide

/-- No number at or above 0x17 is a scalar register's. -/
theorem scalarOfNumber_eq_none {n : BitVec 8} (h : 0x17 ≤ n.toNat) : scalarOfNumber n = none := by
  have ne : ∀ m : BitVec 8, m.toNat < 0x17 → n ≠ m := by
    rintro m hm rfl
    omega
  simp only [scalarOfNumber, ne _ (show (0x00#8).toNat < 0x17 by decide), ne _ (show (0x01#8).toNat < 0x17 by decide),
    ne _ (show (0x02#8).toNat < 0x17 by decide), ne _ (show (0x03#8).toNat < 0x17 by decide),
    ne _ (show (0x10#8).toNat < 0x17 by decide), ne _ (show (0x11#8).toNat < 0x17 by decide),
    ne _ (show (0x12#8).toNat < 0x17 by decide), ne _ (show (0x13#8).toNat < 0x17 by decide),
    ne _ (show (0x14#8).toNat < 0x17 by decide), ne _ (show (0x15#8).toNat < 0x17 by decide),
    ne _ (show (0x16#8).toNat < 0x17 by decide), if_false]

/-- A scalar register's number names it, and every number that names a scalar register is its number. -/
theorem scalarOfNumber_sound : ∀ (n : BitVec 8) (r : RegId), scalarOfNumber n = some r → numberOfReg r = n := by
  decide

/-- What names an ordering entry. -/
theorem entryOfNumber_sound {p : Params} {n : BitVec 8} {r : RegId} (h : entryOfNumber p n = some r) :
    numberOfReg r = n ∧ ∀ k, r = .aord k → k.val < p.aw := by
  unfold entryOfNumber at h
  split at h
  · next hn =>
    cases h
    refine ⟨BitVec.eq_of_toNat_eq ?_, fun k hk => ?_⟩
    · rw [numberOfReg_aord]
      simp only
      omega
    · cases hk
      simp only
      omega
  · split at h
    · cases h
      refine ⟨BitVec.eq_of_toNat_eq ?_, fun k hk => by cases hk⟩
      rw [numberOfReg_dord]
      simp only
      omega
    · split at h
      · cases h
        refine ⟨BitVec.eq_of_toNat_eq ?_, fun k hk => by cases hk⟩
        rw [numberOfReg_eord]
        simp only
        omega
      · split at h
        · cases h
          refine ⟨BitVec.eq_of_toNat_eq ?_, fun k hk => by cases hk⟩
          rw [numberOfReg_gord]
          simp only
          omega
        · cases h

/-- A number that names a register is that register's number, and an entry of `AORD` it names exists (R31). -/
theorem regOfNumber_sound {p : Params} {n : BitVec 8} {r : RegId} (h : regOfNumber p n = some r) :
    numberOfReg r = n ∧ ∀ k, r = .aord k → k.val < p.aw := by
  unfold regOfNumber at h
  cases hs : scalarOfNumber n with
  | some r' =>
    rw [hs, Option.some_or] at h
    cases h
    refine ⟨scalarOfNumber_sound n r hs, ?_⟩
    rintro k rfl
    have h1 := scalarOfNumber_sound n _ hs
    have h2 : scalarOfNumber n = none :=
      scalarOfNumber_eq_none (by rw [← h1, numberOfReg_aord]; omega)
    rw [h2] at hs
    cases hs
  | none =>
    rw [hs, Option.none_or] at h
    exact entryOfNumber_sound h

/-- A register's number names it (R40), for the registers that exist at this AW. -/
theorem regOfNumber_numberOfReg (p : Params) (r : RegId) (h : ∀ k, r = .aord k → k.val < p.aw) :
    regOfNumber p (numberOfReg r) = some r := by
  have haw := aw_le p
  unfold regOfNumber
  cases r with
  | aord k =>
    have hn := numberOfReg_aord k
    have hk := h k rfl
    rw [scalarOfNumber_eq_none (by omega), Option.none_or]
    unfold entryOfNumber
    rw [dif_pos (by omega)]
    congr 2
    exact Fin.ext (by simp only; omega)
  | dord k =>
    have hn := numberOfReg_dord k
    have hk := k.isLt
    rw [scalarOfNumber_eq_none (by omega), Option.none_or]
    unfold entryOfNumber
    rw [dif_neg (by omega), dif_pos (by omega)]
    congr 2
    exact Fin.ext (by simp only; omega)
  | eord k =>
    have hn := numberOfReg_eord k
    have hk := k.isLt
    rw [scalarOfNumber_eq_none (by omega), Option.none_or]
    unfold entryOfNumber
    rw [dif_neg (by omega), dif_neg (by omega), dif_pos (by omega)]
    congr 2
    exact Fin.ext (by simp only; omega)
  | gord k =>
    have hn := numberOfReg_gord k
    have hk := k.isLt
    rw [scalarOfNumber_eq_none (by omega), Option.none_or]
    unfold entryOfNumber
    rw [dif_neg (by omega), dif_neg (by omega), dif_neg (by omega), dif_pos (by omega)]
    congr 2
    exact Fin.ext (by simp only; omega)
  | _ => rfl

/-- A register write changes one configuration register and nothing else of the state. -/
theorem writeReg_keeps (s : State) (r : RegId) (v : BitVec 64) :
    (s.writeReg r v).phase = s.phase ∧ (s.writeReg r v).err = s.err ∧ (s.writeReg r v).fop = s.fop ∧
      (s.writeReg r v).finfo = s.finfo ∧ (s.writeReg r v).result = s.result ∧ (s.writeReg r v).params = s.params ∧
      (s.writeReg r v).epoch = s.epoch ∧ (s.writeReg r v).pending = s.pending ∧
      (s.writeReg r v).replies = s.replies ∧ ∀ m, (s.writeReg r v).mem m = s.mem m := by
  cases r <;> exact ⟨rfl, rfl, rfl, rfl, rfl, rfl, rfl, rfl, rfl, fun m => by cases m <;> rfl⟩

/-- A register write leaves every other register's value and mark. -/
theorem readReg_writeReg_of_ne (s : State) {r r' : RegId} (v : BitVec 64) (h : r' ≠ r) :
    (s.writeReg r v).readReg r' = s.readReg r' := by
  cases r with
  | aord k =>
    cases r' with
    | aord k' =>
      have hk : k.val ≠ k'.val := fun he => h (by rw [Fin.ext he])
      simp [State.writeReg, State.readReg, hk]
    | _ => rfl
  | dord k =>
    cases r' with
    | dord k' =>
      have hk : k.val ≠ k'.val := fun he => h (by rw [Fin.ext he])
      simp [State.writeReg, State.readReg, hk]
    | _ => rfl
  | eord k =>
    cases r' with
    | eord k' =>
      have hk : k.val ≠ k'.val := fun he => h (by rw [Fin.ext he])
      simp [State.writeReg, State.readReg, hk]
    | _ => rfl
  | gord k =>
    cases r' with
    | gord k' =>
      have hk : k.val ≠ k'.val := fun he => h (by rw [Fin.ext he])
      simp [State.writeReg, State.readReg, hk]
    | _ => rfl
  | _ => cases r' <;> first | rfl | exact absurd rfl h

end Sys2Proof.Machine
end

