-- ==== Sys2Proof/Tests/Slice0.lean ====
section
/-! SUPPORT. Tests: words written out from the encoding tables, well-formedness smoke tests, the vectors of
95_test_vectors.md and of the rules' examples on small states, and a witness for each statement that has hypotheses. -/

namespace Sys2Proof.Tests

open Sys2Proof.Machine

/-! ### Words, bit by bit from R91 and R95: ARG (32), RSV (22), SEL (2), OP (8) -/

theorem test_word_commit : decode (0b00000000000000000000000000000000#32 ++ (0b0000000000000000000000#22 ++ (0b00#2 ++ 0b00000001#8))) = .ok .commit := by decide
theorem test_word_permute_gord : decode (0b00000000000000000000000000011101#32 ++ (0b0000000000000000000000#22 ++ (0b11#2 ++ 0b00010000#8))) = .ok (.permute .gord 0x1D) := by decide
theorem test_word_permute_dord : decode (0b11111111111111111111111111110101#32 ++ (0b0000000000000000000000#22 ++ (0b01#2 ++ 0b00010000#8))) = .ok (.permute .dord 0xFFFFFFF5) := by decide
theorem test_word_decode : decode (0b00000000000000000000000000001110#32 ++ (0b0000000000000000000000#22 ++ (0b00#2 ++ 0b00100000#8))) = .ok (.decode 14) := by decide
theorem test_word_encode : decode (0b11111111111111111111111111111111#32 ++ (0b0000000000000000000000#22 ++ (0b00#2 ++ 0b00100001#8))) = .ok (.encode 0xFFFFFFFF) := by decide
theorem test_word_decsw : decode (0b00000000000000000000000000000000#32 ++ (0b0000000000000000000000#22 ++ (0b00#2 ++ 0b00101000#8))) = .ok .decsw := by decide
theorem test_word_reenc : decode (0b00000000000000000000000000000000#32 ++ (0b0000000000000000000000#22 ++ (0b00#2 ++ 0b00101001#8))) = .ok .reenc := by decide
theorem test_word_cdelin : decode (0b00000000000000000000000000000000#32 ++ (0b0000000000000000000000#22 ++ (0b00#2 ++ 0b00110000#8))) = .ok .cdelin := by decide
theorem test_word_cnarrow : decode (0b00000000000000000000000000000000#32 ++ (0b0000000000000000000000#22 ++ (0b00#2 ++ 0b00110001#8))) = .ok .cnarrow := by decide
theorem test_word_csplit : decode (0b00000000000000000000000000000000#32 ++ (0b0000000000000000000000#22 ++ (0b00#2 ++ 0b00110010#8))) = .ok .csplit := by decide
theorem test_word_crepack : decode (0b00000000000000000000000000000000#32 ++ (0b0000000000000000000000#22 ++ (0b00#2 ++ 0b00110011#8))) = .ok .crepack := by decide

/-- The words of section 2.6 that match no row (R97), each refused by its reason. -/
theorem test_words_refused : decode 0x0000000000000000 = .error .unknownOp ∧ decode 0x0000000000000401 = .error .rsvNotZero ∧ decode 0x0000000100000001 = .error .argNotZero ∧ decode 0x0000000000000129 = .error .selNotZero ∧ decode 0x00000000000000FF = .error .unknownOp := by decide

/-- Only the low `nbits` bits of a table word count. -/
theorem test_table_word : decodeTableWord 64 0x0000000E00000020 = some (.decode 14) ∧ decodeTableWord 32 0x0000000E00000020 = some (.decode 0) ∧ decodeTableWord 72 1 = none := by decide

/-! ### Well-formedness smoke: each check refuses an ill-formed term -/

theorem test_ordering_range_refused : orderingInRange 7 [7, 7, 0] = false ∧ orderingInRange 8 [7, 7, 0] = true := by decide
theorem test_ordering_bijective_refused : orderingBijective [0, 0] = false ∧ orderingBijective [2, 0, 3, 1] = true := by decide
theorem test_ordering_self_inverse_refused : orderingSelfInverse [6, 5, 4, 3, 2, 1, 0, 7] = false ∧ orderingSelfInverse [7, 6, 5, 4, 3, 2, 0, 0] = false ∧ orderingSelfInverse [3, 2, 1, 0, 7, 6, 5, 4] = true := by decide
/-- Every `Instr` is well-formed; the ill-formed terms are words (above) and transactions (here): a value wider than its port,
addresses at a memory's size. -/
theorem test_unpresentable_refused : presentable Params.default (.regWrite 0x13 2) = false ∧ presentable Params.default (.regWrite 0x13 1) = true ∧ presentable Params.default (.memWrite .cin 512 0) = false ∧ presentable Params.default (.memRead .cmb 256) = false ∧ presentable Params.default (.memRead .src 32767) = true ∧ presentable Params.default (.memRead .src 32768) = false := by decide
theorem test_memory_form_refused : Memory.wf [(3, 0#8), (3, 1#8)] = false ∧ Memory.wf [(2, 0#8), (3, 1#8)] = true := by decide

/-! ### Small states -/

/-- The state of an outcome. -/
def after (o : Host.Outcome State Fault Refusal) : State :=
  match o with
  | .next s => s
  | .fault _ => State.reset
  | .refused _ => State.reset

/-- Registers written one after another. -/
def withRegs (s : State) (l : List (RegId × Nat)) : State := l.foldl (fun s x => s.writeReg x.1 (BitVec.ofNat 64 x.2)) s

/-- `DORD` or the first entries of `AORD`. -/
def dordRegs (o : List Nat) : List (RegId × Nat) := o.zipIdx.map (fun e => (.dord (Fin.ofNat 8 e.2), e.1))
def eordRegs (o : List Nat) : List (RegId × Nat) := o.zipIdx.map (fun e => (.eord (Fin.ofNat 8 e.2), e.1))
def aordRegs (o : List Nat) : List (RegId × Nat) := o.zipIdx.map (fun e => (.aord (Fin.ofNat 31 e.2), e.1))
def gordRegs (o : List Nat) : List (RegId × Nat) := o.zipIdx.map (fun e => (.gord (Fin.ofNat 32 e.2), e.1))

/-- A configuration in `CONFIG` at AW = `aw`: the scheme given, both sizes `n`, an empty general slot. -/
def configured (aw : Nat) (ao : List Nat) (mask n : Nat) (d : List Nat) (hp : Bool) : State :=
  withRegs (State.afterReset ⟨Fin.ofNat 31 (aw - 1), hp⟩ 0)
    (aordRegs ao ++ (dordRegs d ++ [(.amask, mask), (.bussize, n), (.srclen, n), (.dctl, 1), (.cmode, 0), (.gwin, 0), (.glen, 0)]))

/-- Configuration X of 95_test_vectors.md 2.2, in `CONFIG`. -/
def configX : State := configured 4 [2, 0, 3, 1] 5 16 [3, 2, 1, 0, 7, 6, 5, 4] false

/-- Configuration X in `RUN`, with its `SRC`. -/
def runX : State :=
  { configX with
    phase := .run
    src := Memory.cellsFrom 0 [0x0F, 0x1E, 0x2D, 0x3C, 0x4B, 0x5A, 0x69, 0x78, 0x87, 0x96, 0xA5, 0xB4, 0xC3, 0xD2, 0xE1, 0xF0] }

/-- Configuration Y of 2.2: as X with two data orderings, and `SRC[7]` = 0x9C. -/
def runY : State :=
  withRegs { runX with src := [(7, 0x9C)] }
    ((.dctl, 0) :: (dordRegs [6, 5, 4, 3, 2, 1, 0, 7] ++ eordRegs [0, 7, 6, 5, 4, 3, 2, 1]))

/-- The example of R200: AW = 2, `AORD` = [0,1], `AMASK` = 1. -/
def run2 : State :=
  { configured 2 [0, 1] 1 4 [7, 6, 5, 4, 3, 2, 1, 0] false with
    phase := .run
    src := Memory.cellsFrom 0 [0xA0, 0xA1, 0xA2, 0xA3] }

/-- Scheme `no` at AW = 4 with `BUSSIZE` 8 and `SRCLEN` 12 (program P4). -/
def runP4 : State :=
  withRegs { configured 4 [3, 2, 1, 0] 0 16 [7, 6, 5, 4, 3, 2, 1, 0] false with
      phase := .run
      src := Memory.cellsFrom 0 [0xC0, 0xC1, 0xC2, 0xC3, 0xC4, 0xC5, 0xC6, 0xC7, 0xC8, 0xC9, 0xCA, 0xCB] }
    [(.bussize, 8), (.srclen, 12)]

/-- Scheme `no` with the mask 0b1000, `BUSSIZE` 16 and `SRCLEN` 8 (program P6). -/
def runP6 : State :=
  withRegs { configured 4 [3, 2, 1, 0] 8 16 [7, 6, 5, 4, 3, 2, 1, 0] false with
      phase := .run
      src := Memory.cellsFrom 0 [0, 1, 2, 3, 4, 5, 6, 7] }
    [(.srclen, 8)]

/-- A state of the colour unit in `RUN` (AW = 1) with the four bytes of the examples of R217 and R224. -/
def runColour (narrow : Nat) (hp : Bool) : State :=
  withRegs { configured 1 [0] 0 0 [7, 6, 5, 4, 3, 2, 1, 0] hp with
      phase := .run
      cin := [(0x05, 0x07), (0x65, 0x3C), (0x105, 0x90), (0x165, 0x5A)] }
    [(.cmode, narrow)]

/-! ### Reset, status and the register map -/

/-- "`RegRead(0x01)` straight after `Reset` returns 0x00000000" (R301). -/
theorem test_reset_status : (after (runTxn (.regRead 0x01) State.reset)).replies = [.reg 0] := by decide
/-- Program P4: `STATUS` = 0x00002946 is `PHASE` 2, `RVALID` 1, `ERR` 4, `FOP` 0x29. -/
theorem test_status_word : (({ State.reset with phase := .fault, err := .outOfRangeError, fop := 0x29 } : State).setResult 0xC7).statusWord = 0x00002946 := by decide
/-- Register 0x24 does not exist with AW = 4, and 0x23 does (section 2.6). -/
theorem test_register_map : regOfNumber ⟨3, false⟩ 0x24 = none ∧ regOfNumber ⟨3, false⟩ 0x23 = some (.aord 3) ∧ regOfNumber ⟨3, false⟩ 0x17 = none ∧ regOfNumber ⟨3, false⟩ 0x48 = some (.eord 0) ∧ regOfNumber ⟨3, false⟩ 0x7F = some (.gord 31) ∧ regOfNumber ⟨3, false⟩ 0x80 = none := by decide

/-! ### Transactions (section 2.6) -/

theorem test_malformed_before_phase : (after (runTxn (.cmd 0x0000000000000129) State.reset)).statusWord = 0x00002962 ∧ (after (runTxn (.cmd 0x0000000000000129) State.reset)).finfo = 0x01000129 := by decide
theorem test_decode_in_config : (after (runTxn (.cmd 0x0000000300000020) State.reset)).statusWord = 0x00002062 ∧ (after (runTxn (.cmd 0x0000000300000020) State.reset)).finfo = 0x02000020 := by decide
theorem test_write_config_in_run : (after (runTxn (.regWrite 0x10 3) runX)).statusWord = 0x0000FF62 ∧ (after (runTxn (.regWrite 0x10 3) runX)).finfo = 0x04000010 := by decide
theorem test_read_cmd : (after (runTxn (.regRead 0x00) State.reset)).statusWord = 0x0000FF62 ∧ (after (runTxn (.regRead 0x00) State.reset)).finfo = 0x05000000 := by decide
theorem test_read_unwritten_refused : (match runTxn (.regRead 0x10) State.reset with | .refused r => some r | _ => none) = some (.unwrittenRegister 0x10) := by decide
theorem test_mem_write_then_read : (after (runTxn (.memRead .cmb 255) (after (runTxn (.memWrite .cmb 255 0x5C) runX)))).replies = [.byte 0x5C] := by decide
/-- A table word is what the next step runs: `COMMIT` straight after reset (section 2.5), `REENC` in `CONFIG`. -/
theorem test_fetch_word : (after (step (State.reset.withFetchWord 64 1))).finfo = 0x01100000 ∧ (after (step (State.reset.withFetchWord 64 0x29))).finfo = 0x02000029 ∧ (after (step (State.reset.withFetchWord 64 1))).pending = [] := by decide
/-- A reset keeps the queue and forgets the rest (R300). -/
theorem test_reset_in_fault : (after (runTxn .reset (runX.raise 0x20 ⟨.outOfRangeError, 9⟩))).statusWord = 0 ∧ (after (runTxn .reset runX)).src = [] := by decide

/-! ### Commands -/

/-- Section 2.5: `COMMIT` with nothing written. -/
theorem test_commit_nothing_written : (after (exec .commit State.reset)).statusWord = 0x00000112 ∧ (after (exec .commit State.reset)).finfo = 0x01100000 := by decide
theorem test_commit_passes : (after (exec .commit configX)).statusWord = 0x00000001 := by decide
/-- Section 2.5: the last checks, `WR DORD[5], 8` and a rotation declared shared. -/
theorem test_commit_index_out_of_range : (after (exec .commit (withRegs configX [(.dord 5, 8)]))).finfo = 0x02450508 := by decide
theorem test_commit_not_self_inverse : (after (exec .commit (withRegs configX (dordRegs [6, 5, 4, 3, 2, 1, 0, 7])))).finfo = 0x05400006 := by decide
/-- The example of R124. -/
theorem test_permute_gord : (after (exec (.permute .gord 0x1D) (withRegs runX ([(.gwin, 8), (.glen, 8)] ++ gordRegs [3, 2, 1, 0, 7, 6, 5, 4])))).result = ⟨0xD1, true⟩ := by decide
theorem test_permute_eord_shared : (after (exec (.permute .eord 0x55) runX)).statusWord = 0x00001062 ∧ (after (exec (.permute .eord 0x55) runX)).finfo = 0x03000210 := by decide
/-- Section 2.2, configuration X. -/
theorem test_decode_14 : (after (exec (.decode 14) runX)).result = ⟨0x87, true⟩ := by decide
theorem test_decode_0 : (after (exec (.decode 0) runX)).result = ⟨0x3C, true⟩ := by decide
/-- Section 2.2, configuration Y, and `ENCODE 0xFFFFFFFF` out of range. -/
theorem test_encode_14 : (after (exec (.encode 14) runY)).result = ⟨0x4E, true⟩ ∧ (after (exec (.decode 14) runY)).result = ⟨0x39, true⟩ := by decide
theorem test_encode_out_of_range : (after (exec (.encode 0xFFFFFFFF) runP4)).statusWord = 0x00002142 ∧ (after (exec (.encode 0xFFFFFFFF) runP4)).finfo = 0xFFFFFFFF := by decide
/-- Program P6: `DECODE 0` fetches at 8 ≥ `SRCLEN`. -/
theorem test_decode_phys_range : (after (exec (.decode 0) runP6)).statusWord = 0x00002052 ∧ (after (exec (.decode 9) runP6)).result = ⟨1, true⟩ := by decide
/-- The example of R200. -/
theorem test_reenc : (after (exec .reenc run2)).dst = Memory.cellsFrom 0 [0xA2, 0xA0, 0xA3, 0xA1] := by decide
/-- Program P4: the sweep faults at i = 8. -/
theorem test_reenc_fault : (after (exec .reenc runP4)).statusWord = 0x00002942 ∧ (after (exec .reenc runP4)).finfo = 8 := by decide
/-- Section 2.3: configuration X, and the physical fault at i = 0 of program P6. -/
theorem test_decsw : (after (exec .decsw runX)).dst = Memory.cellsFrom 0 [0x3C, 0x78, 0x2D, 0x69, 0xB4, 0xF0, 0xA5, 0xE1, 0x1E, 0x5A, 0x0F, 0x4B, 0x96, 0xD2, 0x87, 0xC3] := by decide
theorem test_decsw_fault : (after (exec .decsw runP6)).statusWord = 0x00002852 ∧ (after (exec .decsw runP6)).finfo = 0 := by decide
/-- The example of R217, and the other reading of R228 (S2: the same bytes give 0xAC). -/
theorem test_cdelin : (after (exec .cdelin (runColour 0 false))).readByte .cmb 0xA5 = 0x5C := by decide
theorem test_cdelin_hp_low : (after (exec .cdelin (runColour 0 true))).readByte .cmb 0xE5 = 0xAC := by decide
/-- The example of R219. -/
theorem test_cnarrow : (after (exec .cnarrow { runColour 1 false with cmb := [(0x25, 0x5C), (0x65, 0x5C)] })).readByte .cmb 0x25 = 0x00 ∧ (after (exec .cnarrow { runColour 1 false with cmb := [(0x25, 0x5C), (0x65, 0x5C)] })).readByte .cmb 0x65 = 0x5C := by decide
theorem test_cnarrow_wide : (after (exec .cnarrow { runColour 0 false with cmb := [(0x25, 0x5C)] })).cmb = [(0x25, 0x5C)] := by decide
/-- The example of R222, and R228 for the high plane. -/
theorem test_csplit : (after (exec .csplit { runColour 1 false with cmb := [(0x65, 0x5C)] })).readByte .cout 0x065 = 0x0C ∧ (after (exec .csplit { runColour 1 false with cmb := [(0x65, 0x5C)] })).readByte .cout 0x165 = 0x50 := by decide +kernel
theorem test_csplit_hp_low : (after (exec .csplit { runColour 1 true with cmb := [(0x65, 0x5C)] })).readByte .cout 0x165 = 0x05 := by decide +kernel
/-- The example of R224. -/
theorem test_crepack_kept : (after (exec .crepack (runColour 1 false))).readByte .cout 0x165 = 0x50 ∧ (after (exec .crepack (runColour 1 false))).readByte .cout 0x005 = 0x07 := by decide +kernel
theorem test_crepack_zeroed : (after (exec .crepack (runColour 1 false))).readByte .cout 0x025 = 0x00 ∧ (after (exec .crepack (runColour 1 false))).readByte .cout 0x125 = 0x00 := by decide +kernel

/-! ### The permutation primitive and the host side -/

/-- Section 2.1: bit reversal, the duplicating ordering, the WMAX-wide byte swap. -/
theorem test_permute_vectors : permuteTo 8 0x1D#8 [0, 1, 2, 3, 4, 5, 6, 7] = 0xB8 ∧ permuteTo 4 0b10#2 [1, 0, 1, 0] = 0b1010 ∧ permuteTo 32 0xDEADBEEF#32 [7, 6, 5, 4, 3, 2, 1, 0, 15, 14, 13, 12, 11, 10, 9, 8, 23, 22, 21, 20, 19, 18, 17, 16, 31, 30, 29, 28, 27, 26, 25, 24] = 0xEFBEADDE := by decide
/-- Section 2.1: inverse([6,5,4,3,2,1,0,7]) and the composition instance. -/
theorem test_inverse_vectors : inverseOrdering [6, 5, 4, 3, 2, 1, 0, 7] = [0, 7, 6, 5, 4, 3, 2, 1] ∧ inverseOrdering [2, 0, 3, 1] = [1, 3, 0, 2] ∧ composeOrderings [2, 0, 3, 1] [1, 3, 0, 2] = [3, 2, 1, 0] := by decide
/-- Program P2: the inverse configuration of X. -/
theorem test_inverse_scheme : inverseScheme 4 ⟨[2, 0, 3, 1], 5, [3, 2, 1, 0, 7, 6, 5, 4], none⟩ = ⟨[1, 3, 0, 2], 12, [3, 2, 1, 0, 7, 6, 5, 4], none⟩ := by decide
/-- The lines of configuration X and section 2.2's `DECODE 14`, as a script with its pseudo-instructions (R100, R101). -/
def scriptX : List ScriptLine := [.reset, .ord .aord [2, 0, 3, 1], .wr .amask 5, .ord .dord [3, 2, 1, 0, 7, 6, 5, 4], .wr .dctl 1, .sizes 16, .wr .cmode 0, .gnone, .command .commit, .mw .src 7 0x78, .command (.decode 14), .rd .result]
theorem test_script : (after (runTxns (scriptTxns 4 scriptX) (State.afterReset ⟨3, false⟩ 0))).replies = [.reg 0x87] := by decide +kernel
/-- S7: slots [A, "", B], and the all-ones window duplicated. -/
theorem test_load_duplicate : (loadBus [("A", [0x11, 0x22]), ("B", [0xAA, 0xBB])] none ⟨.tileROM, 2, ["A", "", "B"]⟩).toOption = some [0x11, 0x22, 0x11, 0x22, 0xAA, 0xBB] := by decide
theorem test_load_window : (loadBus [("A", [0x11, 0x22])] (some 2) ⟨.programROM, 2, ["A", "B", ""]⟩).toOption = some [0x11, 0x22, 0xFF, 0xFF, 0xFF, 0xFF] := by decide
/-- U6: a window past the end is refused; an offset past the end is skipped (R180). -/
theorem test_save : saveBus "o_" [] ⟨.tileROM, 2, ["A", "", "B", "C"]⟩ [1, 2, 3, 4, 5, 6] = .ok [("o_A", [1, 2]), ("o_B", [5, 6])] ∧ (saveBus "o_" [] ⟨.tileROM, 4, ["A", "B"]⟩ [1, 2, 3, 4, 5, 6]) = .error (.windowPastEnd "o_B") := by decide
/-- R185: a write that fails leaves no file, not even an earlier one. -/
theorem test_save_fails_whole : saveBus "o_" ["o_B"] ⟨.tileROM, 2, ["A", "B"]⟩ [1, 2, 3, 4] = .error (.hostError (.saveError "o_B")) := by decide

/-! ### Witnesses: for each statement that has hypotheses, concrete states and operands that meet them -/

/-- The outcome is a next state. -/
def isNext (o : Host.Outcome State Fault Refusal) : Bool :=
  match o with
  | .next _ => true
  | .fault _ => false
  | .refused _ => false

theorem next_after {o : Host.Outcome State Fault Refusal} (h : isNext o = true) : o = .next (after o) := by
  cases o with
  | next s => rfl
  | fault f => cases h
  | refused r => cases h

/-- Configuration X after a command has faulted, with a byte written and a value held. -/
def faultX : State := runX.raise 0x20 ⟨.outOfRangeError, 16⟩

theorem witness_EncodeInvertsDecode : decode 0x0000000300000310 = .ok (.permute .gord 3) := by decide
theorem witness_DecodeAcceptsExactlyTheRows : (0x0000000300000310#64 &&& (rowOf (.permute .aord 0)).mask = (rowOf (.permute .aord 0)).pattern) ∧ decode 0xFFFFFFFF00000020 = .ok (.decode 0xFFFFFFFF) := by decide
theorem witness_StepRunsTheDecodedCommand : ({ State.reset with pending := [.cmd 1, .reset] }).pending = .cmd 1 :: [.reset] ∧ ({ runX with pending := [.regWrite 0 0x29] }).pending = .regWrite 0 0x29 :: [] ∧ decode 1 = .ok .commit ∧ decode 0x29 = .ok .reenc ∧ State.reset.pending = [] := by decide
theorem witness_MalformedCommandRaises : runX.phase ≠ .fault ∧ isNext (runTxn (.regWrite 0 0x129) runX) = true ∧ ∀ i : Instr, 0x0000000000000129#64 &&& (rowOf i).mask ≠ (rowOf i).pattern :=
  ⟨by decide, by decide, fun i => by cases i <;> simp only [rowOf] <;> decide⟩
theorem witness_WrongPhaseCommandRaises : runX.phase ≠ .fault ∧ runX.phase ≠ legalPhase .commit ∧ State.reset.phase ≠ .fault ∧ State.reset.phase ≠ legalPhase (.permute .eord 0) := by decide
theorem witness_FaultPhaseIgnoresWritesAndCommands : faultX.phase = .fault ∧ presentable faultX.params (.regWrite 0x10 15) = true ∧ presentable faultX.params (.memWrite .dst 15 1) = true ∧ regOfNumber faultX.params 0x10 = some .amask ∧ faultX.readReg .amask = some 5 ∧ 15 < memSize faultX.params .src ∧ isNext (runTxn (.memRead .src 15) faultX) = true := by decide
theorem witness_FirstFaultStandsUntilReset : faultX.phase = .fault ∧ .reset ∉ [Txn.cmd 1, .regWrite 0x10 3, .memWrite .src 0 1] ∧ isNext (runTxns [.cmd 1, .regWrite 0x10 3, .memWrite .src 0 1] faultX) = true := by decide
theorem witness_RegReadByCase : (regOfNumber runX.params 0x20 = some (.aord 0) ∧ runX.readReg (.aord 0) = some 2) ∧ (regOfNumber runX.params 0x03 = some .result ∧ RegId.result ≠ .cmd ∧ runX.readReg .result = none) ∧ (regOfNumber runX.params 0x24 = none ∧ regOfNumber runX.params 0x80 = none ∧ runX.phase ≠ .fault ∧ faultX.phase = .fault ∧ regOfNumber faultX.params 0x17 = none) := by decide
theorem witness_RegWriteByPhase : (0x12#8 ≠ 0 ∧ presentable configX.params (.regWrite 0x12 31) = true ∧ configX.phase = .config ∧ regOfNumber configX.params 0x12 = some .srclen ∧ RegId.srclen.isConfig = true) ∧ (runX.phase = .run ∧ presentable runX.params (.regWrite 0x23 255) = true) ∧ (regOfNumber configX.params 0x24 = none ∧ presentable configX.params (.regWrite 0x24 255) = true ∧ regOfNumber configX.params 0x01 = some .status ∧ RegId.status.isConfig = false) ∧ presentable faultX.params (.regWrite 0x7F 0) = true := by decide
theorem witness_HostMemoryAccess : 15 < memSize runX.params .src ∧ 511 < memSize runX.params .cin ∧ 255 < memSize runX.params .cmb ∧ runX.phase ≠ .fault ∧ 15 < memSize faultX.params .dst ∧ faultX.phase = .fault := by decide
theorem witness_UnpresentableTransactionsStop : memSize runX.params .src ≤ 16 ∧ memSize runX.params .cout ≤ 512 ∧ 2 ^ portWidth runX.params 0x10 ≤ (16#64).toNat ∧ 2 ^ portWidth runX.params 0x13 ≤ (2#64).toNat := by decide

theorem memoryInside_of (s : State) (h : ∀ m ∈ [MemId.src, .dst, .cin, .cmb, .cout], (s.mem m).wf = true ∧ ∀ c ∈ s.mem m, c.1 < memSize s.params m) (m : MemId) : MemoryInside s m :=
  h m (by cases m <;> simp)

theorem committed_runX : Committed runX := by
  unfold Committed ScalarsWritten RequiredEntriesWritten RequiredEntriesInRange
  decide +kernel

theorem committed_configX : Committed configX := by
  unfold Committed ScalarsWritten RequiredEntriesWritten RequiredEntriesInRange
  decide +kernel

/-- A configuration that shares a rotation: every check but the last passes. -/
def rotatedX : State := withRegs configX (dordRegs [6, 5, 4, 3, 2, 1, 0, 7])

theorem not_committed_rotatedX : ¬ Committed rotatedX := fun h => absurd (h.2.2.2.2.2.2.2 (by decide)) (by decide)

theorem invariant_runX : Invariant runX :=
  ⟨by decide, by decide, by decide, by decide, by decide, fun _ => committed_runX,
    by unfold WidthsKept; decide +kernel, memoryInside_of runX (by decide +kernel)⟩

theorem witness_FaultOutputIsHighUntilReset : Invariant faultX ∧ faultX.faultOutput = true ∧ Txn.memRead .src 0 ≠ .reset ∧ isNext (runTxn (.memRead .src 0) faultX) = true ∧ isNext (runTxn .reset faultX) = true :=
  ⟨⟨by decide, by decide, by decide, by decide, by decide, fun h => absurd h (by decide), by unfold WidthsKept; decide +kernel, memoryInside_of faultX (by decide +kernel)⟩,
    by decide, by decide, by decide, by decide⟩
theorem witness_StepKeepsTheInvariant : Invariant { runX with pending := [.cmd 0x0000000E00000020] } ∧ isNext (step { runX with pending := [.cmd 0x0000000E00000020] }) = true :=
  ⟨⟨by decide, by decide, by decide, by decide, by decide, fun _ => committed_runX,
    by unfold WidthsKept; decide +kernel, memoryInside_of _ (by decide +kernel)⟩, by decide +kernel⟩

theorem witness_PermuteSelectsBits : 1 < [7, 0, 31].length ∧ orderingInRange 32 [7, 0, 31] = true := by decide
theorem witness_PermuteLaws : orderingInRange 8 [5, 5, 4, 3, 2, 1, 0] = true ∧ orderingInRange 7 [6, 0, 6] = true ∧ orderingInRange 8 [] = true := by decide
theorem witness_InverseOrderingUndoesPermute : orderingBijective [2, 0, 3, 1] = true ∧ orderingBijective [] = true := by decide
theorem witness_SelfInverseTestIsExact : orderingInRange 4 [2, 0, 3, 1] = true ∧ orderingSelfInverse [3, 2, 1, 0, 7, 6, 5, 4] = true := by decide
theorem witness_SlotOperands : 3 < runX.params.aw ∧ runX.glen.val.toNat ≤ 32 ∧ (31 : Nat) < (withRegs runX [(.glen, 32)]).glen.val.toNat ∧ (withRegs runX [(.glen, 32)]).glen.val.toNat ≤ 32 := by decide
theorem witness_PermuteCommand : runX.phase = .run ∧ ¬ (Slot.dord = .eord ∧ runX.dshare = true) ∧ (Slot.eord = .eord ∧ runX.dshare = true) ∧ runY.phase = .run ∧ ¬ (Slot.eord = .eord ∧ runY.dshare = true) := by decide
theorem witness_ScrambledAddressBits : 3 < runX.params.aw ∧ runX.aord[(0 : Fin 31)].val.toNat < runX.params.aw ∧ runX.aord[(3 : Fin 31)].val.toNat < runX.params.aw := by decide
theorem witness_DecodeCommand : runX.phase = .run ∧ PathAccepts runX 0 ∧ PathAccepts runX 15 := by
  unfold PathAccepts
  decide
theorem witness_EncodeCommand : runY.phase = .run ∧ PathAccepts runY 15 ∧ runY.dshare = false ∧ PathAccepts runX 15 ∧ runX.dshare = true := by
  unfold PathAccepts
  decide
theorem witness_LogicalRangeCheck : runP4.phase = .run ∧ runP4.bussize.val.toNat ≤ (8#32).toNat ∧ runP4.bussize.val.toNat ≤ (0xFFFFFFFF#32).toNat := by decide
theorem witness_PhysicalRangeCheck : runP6.phase = .run ∧ (0#32).toNat < runP6.bussize.val.toNat ∧ runP6.srclen.val.toNat ≤ physicalAddress runP6 0 ∧ runX.phase = .run ∧ (15#32).toNat < runX.bussize.val.toNat ∧ runX.srclen.val.toNat = 2 ^ runX.params.aw := by decide

/-- Every index of configuration X's sweeps passes both range checks. -/
theorem sweep_accepts_runX : ∀ i, i < runX.srclen.val.toNat → PathAccepts runX (BitVec.ofNat 32 i) := by
  unfold PathAccepts
  decide +kernel

theorem witness_SharedOrderingMakesDirectionsEqual : runX.dshare = true ∧ runX.phase = .run ∧ PathAccepts runX 15 ∧ ∀ i, i < runX.srclen.val.toNat → PathAccepts runX (BitVec.ofNat 32 i) :=
  ⟨by decide, by decide, by unfold PathAccepts; decide, sweep_accepts_runX⟩
theorem witness_SchemeNoIsIdentity : runP4.addressOrdering = identityOrdering runP4.params.aw ∧ runP4.amask.val = 0 ∧ runP4.decodeOrdering = identityOrdering 8 ∧ runP4.dshare = true ∧ runP4.bussize.val.toNat ≤ 2 ^ runP4.params.aw ∧ (7#32).toNat < runP4.bussize.val.toNat ∧ (7#32).toNat < runP4.srclen.val.toNat := by decide
theorem witness_ReencCommand : runX.phase = .run ∧ (∀ i, i < runX.srclen.val.toNat → PathAccepts runX (BitVec.ofNat 32 i)) ∧ 15 < runX.srclen.val.toNat := ⟨by decide, sweep_accepts_runX, by decide⟩
theorem witness_DecswCommand : runX.phase = .run ∧ (∀ i, i < runX.srclen.val.toNat → PathAccepts runX (BitVec.ofNat 32 i)) ∧ 15 < runX.srclen.val.toNat := witness_ReencCommand
theorem witness_FaultingSweepReportsTheLeastIndex : (runP4.phase = .run ∧ 8 < runP4.srclen.val.toNat ∧ (∀ i, i < 8 → PathAccepts runP4 (BitVec.ofNat 32 i)) ∧ ¬ PathAccepts runP4 (BitVec.ofNat 32 8)) ∧ (runP6.phase = .run ∧ 0 < runP6.srclen.val.toNat ∧ ¬ PathAccepts runP6 (BitVec.ofNat 32 0)) := by
  unfold PathAccepts
  decide
theorem witness_SweepErrorKinds : isNext (exec .reenc runP4) = true ∧ (after (exec .reenc runP4)).phase = .fault ∧ isNext (exec .decsw runP6) = true ∧ (after (exec .decsw runP6)).phase = .fault := by decide +kernel

/-- The inverse configuration of `run2`, with the bytes its decode sweep produced. -/
def run2Inverse : State := { withRegs run2 [(.amask, 2)] with src := (after (exec .decsw run2)).dst }

theorem witness_InverseConfigurationUndoesDecodeSweep :
    run2.phase = .run ∧ run2Inverse.phase = .run ∧ run2Inverse.params.aw = run2.params.aw ∧
      orderingBijective run2.addressOrdering = true ∧ orderingBijective run2.decodeOrdering = true ∧
      run2.bussize.val.toNat = 2 ^ run2.params.aw ∧ run2.srclen.val.toNat = 2 ^ run2.params.aw ∧
      run2Inverse.addressOrdering = inverseOrdering run2.addressOrdering ∧
      (run2Inverse.amask.val.setWidth run2.params.aw).toNat = (permute (run2.amask.val.setWidth run2.params.aw) run2.addressOrdering).toNat ∧
      run2Inverse.encodeOrdering = inverseOrdering run2.decodeOrdering ∧
      run2Inverse.bussize.val.toNat = 2 ^ run2.params.aw ∧ run2Inverse.srclen.val.toNat = 2 ^ run2.params.aw ∧
      isNext (exec .decsw run2) = true ∧
      ∀ a, a < 2 ^ run2.params.aw → run2Inverse.readByte .src a = (after (exec .decsw run2)).readByte .dst a := by
  decide +kernel

/-- `RUN` with each value of `NARROW` and of `HP_LOW`. -/
theorem witness_colour_phase : ∀ n ∈ [0, 1], ∀ hp ∈ [false, true], (runColour n hp).phase = .run ∧ (runColour n hp).narrow = (n == 1) ∧ (runColour n hp).params.hpLow = hp := by decide

/-- A state with another register file and other bytes that `CREPACK` must not look at. -/
def runColourOther : State := { runColour 1 false with result := ⟨7, true⟩, cmb := [(3, 9)], cin := [(0x05, 0x07), (0x25, 0xFF), (0x65, 0x3C), (0x105, 0x90), (0x165, 0x5A), (0x1FF, 1)] }

theorem witness_CrepackDependsOnlyOnItsInputs : (runColour 1 false).phase = .run ∧ runColourOther.phase = .run ∧ runColourOther.params.hpLow = (runColour 1 false).params.hpLow ∧ runColourOther.narrow = (runColour 1 false).narrow ∧ isNext (exec .crepack (runColour 1 false)) = true ∧ isNext (exec .crepack runColourOther) = true := by decide +kernel
theorem witness_CrepackDependsOnlyOnItsInputs_bytes (a : Nat) (h : a < 0x20 ∨ (0x60 ≤ a ∧ a < 0x80)) : runColourOther.readByte .cin a = (runColour 1 false).readByte .cin a ∧ runColourOther.readByte .cin (a + 0x100) = (runColour 1 false).readByte .cin (a + 0x100) := by
  have h1 : a ≠ 0x25 := by omega
  have h2 : a ≠ 0x1FF := by omega
  have h4 : a + 0x100 ≠ 0x1FF := by omega
  constructor <;>
    simp [runColourOther, runColour, configured, withRegs, aordRegs, dordRegs, State.readByte, State.mem, Memory.lookup, State.writeReg, State.afterReset, h1.symm, h2.symm, h4.symm]

/-- The states of a round trip: delinearize, narrow, split, and the image fed back as `CIN`. -/
def trip1 : State := after (exec .cdelin (runColour 1 false))
def trip2 : State := after (exec .cnarrow trip1)
def trip3 : State := after (exec .csplit trip2)
def tripBack : State := { runColour 1 false with cin := trip3.cout }

theorem readByte_listed {s t : State} {m n : MemId} {a : Nat} {b : Byte} (hs : (s.mem m).lookup a = some b) (ht : (t.mem n).lookup a = some b) : s.readByte m a = t.readByte n a := by
  rw [State.readByte, State.readByte, hs, ht]
  rfl

theorem witness_RepackRoundTrip : isNext (exec .cdelin (runColour 1 false)) = true ∧ isNext (exec .cnarrow trip1) = true ∧ isNext (exec .csplit trip2) = true ∧ tripBack.phase = .run ∧ tripBack.params.hpLow = (runColour 1 false).params.hpLow ∧ isNext (exec .cdelin tripBack) = true := by decide +kernel
theorem witness_RepackRoundTrip_fed_back (a : Nat) (h : a < 512) : tripBack.readByte .cin a = trip3.readByte .cout a := by
  have hl : ((trip3.mem .cout).lookup a).isSome = true := by
    revert a
    decide +kernel
  obtain ⟨b, hb⟩ := Option.isSome_iff_exists.mp hl
  exact readByte_listed hb hb

theorem witness_NarrowImageIsTheWideOneZeroed : (runColour 0 false).phase = .run ∧ (runColour 1 false).phase = .run ∧ (runColour 1 false).params.hpLow = (runColour 0 false).params.hpLow ∧ (runColour 0 false).narrow = false ∧ (runColour 1 false).narrow = true ∧ isNext (exec .crepack (runColour 0 false)) = true ∧ isNext (exec .crepack (runColour 1 false)) = true := by decide +kernel
theorem witness_NarrowImageIsTheWideOneZeroed_bytes (a : Nat) : (runColour 1 false).readByte .cin a = (runColour 0 false).readByte .cin a := rfl

theorem witness_CommitAcceptsExactlyGoodConfigurations : configX.phase = .config ∧ Committed configX ∧ rotatedX.phase = .config ∧ ¬ Committed rotatedX := ⟨by decide, committed_configX, by decide, not_committed_rotatedX⟩

/-- The marks of the seven scalars. -/
def marks (s : State) : List Bool := [s.amask.written, s.bussize.written, s.srclen.written, s.dctl.written, s.cmode.written, s.gwin.written, s.glen.written]

theorem witness_CommitReportsFirstUnwrittenScalar : State.reset.phase = .config ∧ marks State.reset = List.replicate 7 false ∧ marks { configX with glen := Reg.unwritten 6 } = [true, true, true, true, true, true, false] := by decide
theorem witness_CommitReportsShapesAndSizes : (∀ s ∈ [withRegs configX [(.gwin, 33)], withRegs configX [(.gwin, 32), (.glen, 33)], withRegs configX [(.bussize, 17), (.srclen, 17)], withRegs configX [(.srclen, 17)]], s.phase = .config ∧ marks s = List.replicate 7 true) ∧ 32 < (withRegs configX [(.gwin, 33)]).gwin.val.toNat ∧ ((withRegs configX [(.gwin, 32), (.glen, 33)]).gwin.val.toNat ≤ 32 ∧ 32 < (withRegs configX [(.gwin, 32), (.glen, 33)]).glen.val.toNat) ∧ 2 ^ (withRegs configX [(.bussize, 17), (.srclen, 17)]).params.aw < (withRegs configX [(.bussize, 17), (.srclen, 17)]).bussize.val.toNat ∧ ((withRegs configX [(.srclen, 17)]).bussize.val.toNat ≤ 2 ^ (withRegs configX [(.srclen, 17)]).params.aw ∧ 2 ^ (withRegs configX [(.srclen, 17)]).params.aw < (withRegs configX [(.srclen, 17)]).srclen.val.toNat) := by decide +kernel

/-- Every shape and size check passes. -/
abbrev shapesPass (s : State) : Prop := s.phase = .config ∧ marks s = List.replicate 7 true ∧ s.gwin.val.toNat ≤ 32 ∧ s.glen.val.toNat ≤ 32 ∧ s.bussize.val.toNat ≤ 2 ^ s.params.aw ∧ s.srclen.val.toNat ≤ 2 ^ s.params.aw

/-- Configuration X with `DORD[7]` and a general slot entry unwritten. -/
def unwrittenX : State := { withRegs configX [(.gwin, 1), (.glen, 1)] with dord := configX.dord.set 7 (Reg.unwritten 8) }

theorem witness_CommitReportsFirstUnwrittenEntry : shapesPass unwrittenX ∧ RequiredEntry unwrittenX (.dord 7) ∧ unwrittenX.readReg (.dord 7) = none ∧ RequiredEntry unwrittenX (.gord 0) ∧ unwrittenX.readReg (.gord 0) = none ∧ (∀ r', RequiredEntry unwrittenX r' → (numberOfReg r').toNat < (numberOfReg (.dord 7)).toNat → unwrittenX.readReg r' ≠ none) := by
  refine ⟨by decide +kernel, trivial, by decide, by unfold RequiredEntry; decide, by decide, fun r' => ?_⟩
  cases r' with
  | aord k => unfold RequiredEntry; revert k; decide +kernel
  | dord k => unfold RequiredEntry; revert k; decide +kernel
  | eord k => unfold RequiredEntry; revert k; decide +kernel
  | gord k => unfold RequiredEntry; revert k; decide +kernel
  | _ => intro h; cases h

theorem marks_all {s : State} (h : marks s = List.replicate 7 true) : ScalarsWritten s := by
  simpa [marks, ScalarsWritten, List.replicate] using h

/-- Configuration X with `DORD[5]` = 8, the least index out of range. -/
def outOfRangeX : State := withRegs configX [(.dord 5, 8)]

theorem witness_CommitReportsFirstIndexOutOfRange : shapesPass outOfRangeX ∧ RequiredEntriesWritten outOfRangeX ∧ RequiredEntry outOfRangeX (.dord 5) ∧ entryWidth outOfRangeX (.dord 5) ≤ (entryValue outOfRangeX (.dord 5)).toNat ∧ (∀ r', RequiredEntry outOfRangeX r' → (numberOfReg r').toNat < (numberOfReg (.dord 5)).toNat → (entryValue outOfRangeX r').toNat < entryWidth outOfRangeX r') := by
  refine ⟨by decide +kernel, by unfold RequiredEntriesWritten; decide +kernel, trivial, by decide, fun r' => ?_⟩
  cases r' with
  | aord k => unfold RequiredEntry; revert k; decide +kernel
  | dord k => unfold RequiredEntry; revert k; decide +kernel
  | eord k => unfold RequiredEntry; revert k; decide +kernel
  | gord k => unfold RequiredEntry; revert k; decide +kernel
  | _ => intro h; cases h

theorem witness_CommitReportsFirstNotSelfInverse : shapesPass rotatedX ∧ RequiredEntriesWritten rotatedX ∧ RequiredEntriesInRange rotatedX ∧ rotatedX.dshare = true ∧ rotatedX.decodeOrdering[7 - rotatedX.dord[(0 : Fin 8)].val.toNat]? ≠ some (7 - (0 : Fin 8).val) ∧ (∀ i : Fin 8, i < 0 → rotatedX.decodeOrdering[7 - rotatedX.dord[i].val.toNat]? = some (7 - i.val)) := by
  unfold RequiredEntriesWritten RequiredEntriesInRange
  decide +kernel

theorem witness_PhaseTransitions : (after (step { configX with pending := [.cmd 1] })).phase = .run ∧ (after (step { runX with pending := [.cmd 1] })).phase = .fault ∧ (after (step { faultX with pending := [.reset] })).phase = .config ∧ (after (step runX)).phase = .run ∧ isNext (step { configX with pending := [.cmd 1] }) = true ∧ isNext (step { runX with pending := [.cmd 1] }) = true ∧ isNext (step { faultX with pending := [.reset] }) = true ∧ isNext (step runX) = true := by decide +kernel
theorem witness_ConfigurationIsFrozenOutsideConfig : runX.phase ≠ .config ∧ Txn.regWrite 0x10 3 ≠ .reset ∧ isNext (runTxn (.regWrite 0x10 3) runX) = true ∧ faultX.phase ≠ .config ∧ isNext (runTxn (.regWrite 0x10 3) faultX) = true := by decide
theorem witness_FaultsArePrecise : runP4.phase ≠ .fault ∧ isNext (exec (.decode 8) runP4) = true ∧ (after (exec (.decode 8) runP4)).phase = .fault ∧ isNext (exec .reenc runP4) = true ∧ (after (exec .reenc runP4)).phase = .fault := by decide +kernel
theorem witness_EveryCommandEnds : presentable runX.params (.memWrite .src 15 0) = true ∧ ∀ n, Txn.memWrite .src 15 0 ≠ .regRead n := ⟨by decide, fun n => by simp⟩

/-- A bus with a file slot, an empty slot first and later, and, with `ffwin`, a reserved window. -/
def busL : Bus := ⟨.programROM, 2, ["", "A", ""]⟩

theorem witness_LoadedBusWindows : 0 < busL.chipSize ∧ (loadBus [("A", [1, 2, 3])] (some 4) busL).toOption = some [0, 0, 1, 2, 0xFF, 0xFF] ∧ (loadBus [("A", [1, 2, 3])] none busL).toOption = some [0, 0, 1, 2, 1, 2] ∧ busL.slots[1]? = some "A" ∧ busL.slots[0]? = some "" ∧ busL.slots[2]? = some "" ∧ (busL.role = .programROM ∧ some 4 = some (2 * busL.chipSize)) := by decide
theorem witness_LoadFailsExactlyOnMissingOrShortFiles : busL.slots[1]? = some "A" ∧ SlotFails [("A", [1])] none busL (1 * busL.chipSize) "A" ∧ (∀ other, busL.slots[0]? = some other → ¬ SlotFails [("A", [1])] none busL (0 * busL.chipSize) other) ∧ (match loadBus [("A", [1])] none busL with | .error e => some e | .ok _ => none) = some (.loadError "A") := by
  refine ⟨by decide, ⟨by decide, by decide, fun bs h => ?_⟩, fun other h hf => ?_, by decide⟩
  · cases h; decide
  · cases h; exact hf.1 rfl
theorem witness_LoadThenSaveReproducesFiles : 0 < (⟨.tileROM, 2, ["A", "B"]⟩ : Bus).chipSize ∧ (⟨.tileROM, 2, ["A", "B"]⟩ : Bus).slots = ([("A", [1#8, 2#8]), ("B", [3#8, 4#8])] : List NamedFile).map (fun c => c.1) ∧ ∀ c ∈ ([("A", [1#8, 2#8]), ("B", [3#8, 4#8])] : List NamedFile), c.1 ≠ "" ∧ ([("A", [1#8, 2#8]), ("B", [3#8, 4#8])] : List NamedFile).lookup c.1 = some c.2 ∧ c.2.length = 2 := by decide

/-- The layout of one program bus of one slot. -/
def programLayout (chipSize : Nat) (name : String) : Layout := ⟨[⟨.programROM, chipSize, [name]⟩], by simp⟩

/-- A conversion of a program bus from a file "A" of `src` bytes to a target of `tgt` bytes, with the scheme of R200. -/
def smallConversion (files : List NamedFile) (unwritable : List String) (src tgt : Nat) : Conversion :=
  ⟨files, unwritable, none, programLayout src "A", programLayout tgt "B", ⟨[0, 1], 1, [7, 6, 5, 4, 3, 2, 1, 0], none⟩, false, "o_"⟩

/-- The outcome of a conversion at AW = 2, for the exit signal and the files. -/
def conversionAfter (c : Conversion) : Option (BitVec 4 × List NamedFile) :=
  match convert c (State.afterReset ⟨1, false⟩ 0) with
  | .next r => some (r.exitSignal, r.written)
  | .fault _ => none
  | .refused _ => none

/-- The host error that ended a conversion at AW = 2. -/
def hostErrorAfter (c : Conversion) : Option HostError :=
  match convert c (State.afterReset ⟨1, false⟩ 0) with
  | .next r => r.hostError
  | .fault _ => none
  | .refused _ => none

/-- The bytes of R200's example; the missing file; the name that cannot be written. -/
theorem witness_ConversionExitSignal : conversionAfter (smallConversion [("A", [0xA0, 0xA1, 0xA2, 0xA3])] [] 4 4) = some (0, [("o_B", [0xA2, 0xA0, 0xA3, 0xA1])]) ∧ conversionAfter (smallConversion [] [] 4 4) = some (2, []) ∧ conversionAfter (smallConversion [("A", [0xA0, 0xA1, 0xA2, 0xA3])] ["o_B"] 4 4) = some (3, []) := by decide +kernel
theorem witness_ConversionExitSignal_hostError : hostErrorAfter (smallConversion [] [] 4 4) = some (.loadError "A") ∧ hostErrorAfter (smallConversion [("A", [0xA0, 0xA1, 0xA2, 0xA3])] ["o_B"] 4 4) = some (.saveError "o_B") := by decide +kernel

/-- Errors of the block end a run at once: `SRCLEN` = 5 > 2^AW fails `COMMIT` (R243), before any byte is written; a source bus
larger than the target's raises `OutOfRangeError` in the sweep (R206). -/
theorem test_conversion_block_errors : conversionAfter (smallConversion [("A", [1, 2, 3, 4, 5])] [] 5 4) = some (1, []) ∧ conversionAfter (smallConversion [("A", [1, 2, 3, 4])] [] 4 3) = some (4, []) := by decide +kernel

end Sys2Proof.Tests
end

/-! The register map of R40 read backwards, and what `RegRead` and `RegWrite` do by register and by phase
(10_state.md R36 to R40). -/

namespace Sys2Proof.Machine

/-! ### The register map -/

/-- Only the number 0x00 names `CMD`. -/
theorem ne_cmd_of_number_ne_zero {p : Params} {n : BitVec 8} {r : RegId} (hn : n ≠ 0)
    (hr : regOfNumber p n = some r) : r ≠ .cmd := by
  rintro rfl
  exact hn (regOfNumber_sound hr).1.symm

/-- The numbers of the registers that exist lie in the ranges of R40. -/
theorem numberOfReg_mem_ranges (p : Params) (r : RegId) (haord : ∀ k, r = .aord k → k.val < p.aw) :
    (numberOfReg r).toNat < 0x04 ∨ (0x10 ≤ (numberOfReg r).toNat ∧ (numberOfReg r).toNat < 0x17) ∨
      (0x20 ≤ (numberOfReg r).toNat ∧ (numberOfReg r).toNat < 0x20 + p.aw) ∨
      (0x40 ≤ (numberOfReg r).toNat ∧ (numberOfReg r).toNat < 0x50) ∨
      (0x60 ≤ (numberOfReg r).toNat ∧ (numberOfReg r).toNat < 0x80) := by
  cases r with
  | aord k =>
    have hk := haord k rfl
    rw [numberOfReg_aord]
    omega
  | dord k =>
    rw [numberOfReg_dord]
    omega
  | eord k =>
    rw [numberOfReg_eord]
    omega
  | gord k =>
    rw [numberOfReg_gord]
    omega
  | _ => simp [numberOfReg]

/-- "Every other number names no register" (R40). -/
theorem regOfNumber_eq_none {p : Params} {n : BitVec 8}
    (h : ¬ (n.toNat < 0x04 ∨ (0x10 ≤ n.toNat ∧ n.toNat < 0x17) ∨ (0x20 ≤ n.toNat ∧ n.toNat < 0x20 + p.aw) ∨
      (0x40 ≤ n.toNat ∧ n.toNat < 0x50) ∨ (0x60 ≤ n.toNat ∧ n.toNat < 0x80))) :
    regOfNumber p n = none := by
  cases hr : regOfNumber p n with
  | none => rfl
  | some r =>
    obtain ⟨rfl, haord⟩ := regOfNumber_sound hr
    exact absurd (numberOfReg_mem_ranges p r haord) h

/-- The four ordering slots by number (R31). -/
theorem regOfNumber_aord (p : Params) (k : Fin 31) (hk : k.val < p.aw) :
    regOfNumber p (BitVec.ofNat 8 (0x20 + k.val)) = some (.aord k) :=
  regOfNumber_numberOfReg p (.aord k) (by rintro _ ⟨⟩; exact hk)
theorem regOfNumber_dord (p : Params) (k : Fin 8) : regOfNumber p (BitVec.ofNat 8 (0x40 + k.val)) = some (.dord k) :=
  regOfNumber_numberOfReg p (.dord k) (by simp)
theorem regOfNumber_eord (p : Params) (k : Fin 8) : regOfNumber p (BitVec.ofNat 8 (0x48 + k.val)) = some (.eord k) :=
  regOfNumber_numberOfReg p (.eord k) (by simp)
theorem regOfNumber_gord (p : Params) (k : Fin 32) : regOfNumber p (BitVec.ofNat 8 (0x60 + k.val)) = some (.gord k) :=
  regOfNumber_numberOfReg p (.gord k) (by simp)

/-! ### The frames of a reply, a rejected access and a register write -/

theorem sameConfiguration_reply (s : State) (y : Reply) : SameConfiguration s (s.reply y) := by
  simp [SameConfiguration]

theorem sameStatus_reply (s : State) (y : Reply) : SameStatus s (s.reply y) := by
  simp [SameStatus]

theorem sameMemory_reply (s : State) (y : Reply) : SameMemory s (s.reply y) :=
  fun m a => readByte_reply s m y a

/-- The `FINFO` of a rejected register access: the sub-code, and the register's number as the detail (R266). -/
theorem illegalCommand_number_info (sub n : BitVec 8) :
    (illegalCommand sub (n.setWidth 24)).info = sub ++ (0#16 ++ n) := by
  have hdetail : n.setWidth 24 = 0#16 ++ n := by
    apply BitVec.eq_of_toNat_eq
    simp only [BitVec.toNat_setWidth, BitVec.toNat_append, BitVec.toNat_ofNat, Nat.zero_mod, Nat.zero_shiftLeft,
      Nat.zero_or]
    omega
  rw [hdetail]
  rfl

/-- A rejected register access is fault entry with `FOP` 0xFF (R266, R270). -/
theorem faultedFrom_rejectedAccess (s : State) (sub n : BitVec 8) :
    FaultedFrom s (s.raise 0xFF (illegalCommand sub (n.setWidth 24))) .illegalCommandError 0xFF
      (sub ++ (0#16 ++ n)) := by
  rw [← illegalCommand_number_info]
  exact faultedFrom_raise s 0xFF _

theorem sameStatus_writeReg (s : State) (r : RegId) (v : BitVec 64) : SameStatus s (s.writeReg r v) := by
  obtain ⟨hphase, herr, hfop, hfinfo, -⟩ := writeReg_keeps s r v
  exact ⟨hphase, herr, hfop, hfinfo⟩

theorem sameModelFields_writeReg (s : State) (r : RegId) (v : BitVec 64) : SameModelFields s (s.writeReg r v) := by
  obtain ⟨-, -, -, -, -, hparams, hepoch, hpending, hreplies, -⟩ := writeReg_keeps s r v
  exact ⟨hparams, hepoch, hpending, hreplies⟩

theorem sameMemory_writeReg (s : State) (r : RegId) (v : BitVec 64) : SameMemory s (s.writeReg r v) := by
  obtain ⟨-, -, -, -, -, -, hepoch, -, -, hmem⟩ := writeReg_keeps s r v
  intro m a
  simp only [State.readByte, hmem, hepoch]

/-! ### What a written register reads -/

/-- A value that fits a register reads back whole. -/
theorem readMarked_write {w k : Nat} {v : BitVec 64} (hv : v.toNat < 2 ^ k) (hk : k ≤ w) :
    readMarked (Reg.write v : Reg w) = some (v.setWidth 32) := by
  have hvw : v.toNat < 2 ^ w := hv.trans_le (Nat.pow_le_pow_right (by decide) hk)
  simp only [readMarked, Reg.write, if_true, Option.some.injEq]
  apply BitVec.eq_of_toNat_eq
  simp only [BitVec.toNat_setWidth, Nat.mod_eq_of_lt hvw]

/-- A configuration register reads the value the port carried to it: no port is wider than its register (R29, R31). -/
theorem readReg_writeReg_self {s : State} {n : BitVec 8} {r : RegId} {v : BitVec 64}
    (hr : regOfNumber s.params n = some r) (hc : r.isConfig = true) (hv : v.toNat < 2 ^ portWidth s.params n) :
    (s.writeReg r v).readReg r = some (v.setWidth 32) := by
  have haw := aw_le s.params
  rw [portWidth, hr] at hv
  cases r with
  | cmd | status | finfo | result => cases hc
  | amask => exact readMarked_write hv (show s.params.aw ≤ 32 by omega)
  | bussize | srclen => exact readMarked_write hv (show s.params.aw + 1 ≤ 32 by omega)
  | dctl | cmode | gwin | glen => exact readMarked_write hv le_rfl
  | aord k | dord k | eord k | gord k =>
    simp only [State.writeReg, State.readReg, Fin.getElem_fin, Vector.getElem_set_self]
    exact readMarked_write hv le_rfl

/-! ### `RegRead` (R37 to R39) -/

theorem runTxn_regRead (n : BitVec 8) (s : State) : runTxn (.regRead n) s = runRegRead n s := rfl

/-- `RegRead` of an existing register other than `CMD`: its value, or the refusal of R38. -/
theorem runRegRead_register {s : State} {n : BitVec 8} {r : RegId} (hr : regOfNumber s.params n = some r)
    (hne : r ≠ .cmd) :
    runRegRead n s =
      (s.readReg r).elim (.refused (.unwrittenRegister n)) (fun v => .next (s.reply (.reg v))) := by
  simp only [runRegRead, hr]
  cases s.readReg r <;> rfl

/-- `RegRead` of no register, or of `CMD` (R39). -/
theorem runRegRead_noRegister {s : State} {n : BitVec 8} (h : regOfNumber s.params n = none ∨ n = 0) :
    runRegRead n s = readNoRegister n s := by
  rcases h with hnone | rfl
  · simp only [runRegRead, hnone]
  · rfl

/-! ### `RegWrite` (R36) -/

/-- What the host can present on the port of a register (R29). -/
theorem presentable_regWrite_iff (p : Params) (n : BitVec 8) (v : BitVec 64) :
    presentable p (.regWrite n v) = true ↔ v.toNat < 2 ^ portWidth p n := by
  by_cases hv : v.toNat < 2 ^ portWidth p n <;> simp [presentable, presentationFault, hv]

theorem runTxn_regWrite {s : State} {n : BitVec 8} {v : BitVec 64}
    (h : presentable s.params (.regWrite n v) = true) : runTxn (.regWrite n v) s = runRegWrite n v s :=
  runTxn_presented (Option.isNone_iff_eq_none.mp h)

/-- `RegWrite` of an existing register other than `CMD`. -/
theorem runRegWrite_register {s : State} {n : BitVec 8} {r : RegId} (v : BitVec 64)
    (hr : regOfNumber s.params n = some r) (hne : r ≠ .cmd) :
    runRegWrite n v s =
      if s.phase = .fault then .next s
      else if r.isConfig = true ∧ s.phase = .config then .next (s.writeReg r v)
      else .next (s.raise 0xFF (illegalCommand 4 (n.setWidth 24))) := by
  unfold runRegWrite
  rw [hr]
  cases r with
  | cmd => exact absurd rfl hne
  | _ => rfl

/-- `RegWrite` of a number that names no register. -/
theorem runRegWrite_noRegister {s : State} {n : BitVec 8} (v : BitVec 64) (hr : regOfNumber s.params n = none) :
    runRegWrite n v s =
      if s.phase = .fault then .next s else .next (s.raise 0xFF (illegalCommand 4 (n.setWidth 24))) := by
  simp only [runRegWrite, hr]

/-- A configuration register is written in `CONFIG`. -/
theorem runRegWrite_config {s : State} {n : BitVec 8} {r : RegId} (v : BitVec 64) (hphase : s.phase = .config)
    (hr : regOfNumber s.params n = some r) (hc : r.isConfig = true) :
    runRegWrite n v s = .next (s.writeReg r v) := by
  have hne : r ≠ .cmd := by
    rintro rfl
    cases hc
  rw [runRegWrite_register v hr hne, if_neg (by simp [hphase]), if_pos ⟨hc, hphase⟩]

/-- Outside `FAULT`, a write in `RUN` or to no configuration register raises sub-code 4. -/
theorem runRegWrite_rejected {s : State} {n : BitVec 8} (v : BitVec 64) (hn : n ≠ 0) (hf : s.phase ≠ .fault)
    (h : s.phase = .run ∨ ∀ r, regOfNumber s.params n = some r → r.isConfig = false) :
    runRegWrite n v s = .next (s.raise 0xFF (illegalCommand 4 (n.setWidth 24))) := by
  cases hr : regOfNumber s.params n with
  | none => rw [runRegWrite_noRegister v hr, if_neg hf]
  | some r =>
    have hclosed : ¬ (r.isConfig = true ∧ s.phase = .config) := by
      rintro ⟨hc, hphase⟩
      rcases h with hrun | hall
      · simp [hrun] at hphase
      · simp [hall r hr] at hc
    rw [runRegWrite_register v hr (ne_cmd_of_number_ne_zero hn hr), if_neg hf, if_neg hclosed]

/-- In `FAULT` a write is ignored. -/
theorem runRegWrite_fault {s : State} {n : BitVec 8} (v : BitVec 64) (hn : n ≠ 0) (hf : s.phase = .fault) :
    runRegWrite n v s = .next s := by
  cases hr : regOfNumber s.params n with
  | none => rw [runRegWrite_noRegister v hr, if_pos hf]
  | some r => rw [runRegWrite_register v hr (ne_cmd_of_number_ne_zero hn hr), if_pos hf]

/-! ### The statements -/

/-- Settles O10: the map by `regOfNumber_numberOfReg` and its converse, the reads by the two cases of `RegRead`. -/
theorem regReadByCase : Obligations.RegReadByCase := by
  intro s n
  refine ⟨⟨rfl, rfl, rfl, rfl, rfl, rfl, rfl, rfl, rfl, rfl, rfl, regOfNumber_aord _,
      fun k => ⟨regOfNumber_dord _ k, regOfNumber_eord _ k⟩, regOfNumber_gord _, regOfNumber_eq_none⟩,
    ?value, rfl, rfl, ?unwritten, ?noRegister⟩
  case value =>
    intro r v hr hv
    have hne : r ≠ .cmd := by
      rintro rfl
      cases hv
    refine ⟨s.reply (.reg v), ?_, rfl, sameConfiguration_reply s _, sameStatus_reply s _, rfl, sameMemory_reply s _⟩
    rw [runTxn_regRead, runRegRead_register hr hne, hv, Option.elim_some]
  case unwritten =>
    intro r hr hne hv
    rw [runTxn_regRead, runRegRead_register hr hne, hv, Option.elim_none]
  case noRegister =>
    intro h
    rw [runTxn_regRead, runRegRead_noRegister h, readNoRegister]
    exact ⟨fun hf => ⟨_, if_neg hf, faultedFrom_rejectedAccess s 5 n, sameMemory_raise s _ _⟩, fun hf => if_pos hf⟩

/-- Settles O11: one case of R36's table after another. -/
theorem regWriteByPhase : Obligations.RegWriteByPhase := by
  intro s n v hn hp
  rw [runTxn_regWrite hp]
  refine ⟨fun r hphase hr hc => ?written, fun hf h => ?rejected, runRegWrite_fault v hn⟩
  case written =>
    have hv := (presentable_regWrite_iff s.params n v).mp hp
    exact ⟨_, runRegWrite_config v hphase hr hc, readReg_writeReg_self hr hc hv,
      fun _ hne => readReg_writeReg_of_ne s v hne, sameStatus_writeReg s r v, sameModelFields_writeReg s r v,
      sameMemory_writeReg s r v⟩
  case rejected =>
    exact ⟨_, runRegWrite_rejected v hn hf h, faultedFrom_rejectedAccess s 4 n, sameMemory_raise s _ _⟩

end Sys2Proof.Machine

/-! What the host's one-byte accesses do to a byte inside its memory (20_memory.md R61, R62, R64). -/

namespace Sys2Proof.Machine

/-! ### Reaching the memory port -/

theorem runTxn_memWrite {s : State} {m : MemId} {a : Nat} (b : Byte) (ha : a < memSize s.params m) :
    runTxn (.memWrite m a b) s = runMemWrite m a b s :=
  runTxn_presented (if_pos ha)

theorem runTxn_memRead {s : State} {m : MemId} {a : Nat} (ha : a < memSize s.params m) :
    runTxn (.memRead m a) s = runMemRead m a s :=
  runTxn_presented (if_pos ha)

/-! ### The one-byte write -/

theorem readByte_writeByte_self (s : State) (m : MemId) (a : Nat) (b : Byte) :
    (s.writeBytes m a [b]).readByte m a = b := by
  simp [readByte_writeBytes]

/-- The block write of one byte touches its own address only (R62, R64). -/
theorem sameMemoryOutside_writeByte (s : State) (m : MemId) (a : Nat) (b : Byte) :
    SameMemoryOutside (fun m' a' => m' = m ∧ a' = a) s (s.writeBytes m a [b]) := by
  intro m' a' houtside
  apply sameMemoryOutside_writeBytes s m a [b]
  rintro ⟨rfl, hlo, hhi⟩
  have haddr : a' = a := by
    rw [List.length_singleton] at hhi
    omega
  exact houtside ⟨rfl, haddr⟩

/-! ### The statement -/

/-- Settles O12: the sizes by definition, the write by its phase, the read as a reply that changes nothing else. -/
theorem hostMemoryAccess : Obligations.HostMemoryAccess := by
  refine ⟨fun p => ⟨rfl, rfl, rfl, rfl, rfl⟩, fun s m a b ha => ?_⟩
  rw [runTxn_memWrite b ha, runTxn_memRead ha]
  refine ⟨fun hf => ?stored, fun hf => if_pos hf, ?read⟩
  case stored =>
    exact ⟨s.writeBytes m a [b], if_neg hf, readByte_writeByte_self s m a b, sameRegisters_writeBytes s m a [b],
      sameMemoryOutside_writeByte s m a b⟩
  case read =>
    exact ⟨s.reply (.byte (s.readByte m a)), rfl, rfl, sameConfiguration_reply s _, sameStatus_reply s _, rfl,
      sameMemory_reply s _⟩

end Sys2Proof.Machine

/-! Permutation as a map of bit positions: which bit of the input each bit of the result is, the laws that follow
bit by bit, and the orderings that undo one another (40_permute.md R120 to R130). -/

namespace Sys2Proof.Machine

/-! ### The source position of a result bit -/

/-- The position in the input of bit p of the result, for p below the ordering's length (R120). -/
def sourceBit (o : List Nat) (p : Nat) : Nat := o.getD (o.length - 1 - p) 0

theorem sourceBit_eq_getElem {o : List Nat} {p : Nat} (hp : p < o.length) :
    sourceBit o p = o[o.length - 1 - p]'(by omega) := by
  simp [sourceBit, show o.length - 1 - p < o.length by omega]

/-- Entry k is the source of the bit that the list order puts at position n − 1 − k (R9). -/
theorem sourceBit_reflect {o : List Nat} {k : Nat} (hk : k < o.length) : sourceBit o (o.length - 1 - k) = o[k] := by
  rw [sourceBit_eq_getElem (by omega)]
  simp [show o.length - 1 - (o.length - 1 - k) = k by omega]

theorem sourceBit_mem {o : List Nat} {p : Nat} (hp : p < o.length) : sourceBit o p ∈ o := by
  rw [sourceBit_eq_getElem hp]
  exact List.getElem_mem _

theorem getLsbD_permute_sourceBit {w : Nat} (v : BitVec w) {o : List Nat} {p : Nat} (hp : p < o.length) :
    (permute v o).getLsbD p = v.getLsbD (sourceBit o p) := by
  rw [getLsbD_permute, dif_pos hp, sourceBit_eq_getElem hp]

theorem getLsbD_permuteTo_sourceBit {w n : Nat} (v : BitVec w) {o : List Nat} (ho : o.length = n) {p : Nat}
    (hp : p < n) : (permuteTo n v o).getLsbD p = v.getLsbD (sourceBit o p) := by
  rw [getLsbD_permuteTo, decide_eq_true hp, Bool.true_and, getLsbD_permute_sourceBit v (ho ▸ hp)]

/-! ### The sources of the spec's own orderings -/

@[simp] theorem length_identityOrdering (n : Nat) : (identityOrdering n).length = n := by simp [identityOrdering]

@[simp] theorem length_inverseOrdering (o : List Nat) : (inverseOrdering o).length = o.length := by
  simp [inverseOrdering]

@[simp] theorem length_composeOrderings (o1 o2 : List Nat) : (composeOrderings o1 o2).length = o2.length := by
  simp [composeOrderings]

theorem sourceBit_identityOrdering {n p : Nat} (hp : p < n) : sourceBit (identityOrdering n) p = p := by
  rw [sourceBit_eq_getElem (by simpa using hp)]
  simp only [identityOrdering, List.getElem_map, List.getElem_range, List.length_map, List.length_range]
  omega

theorem sourceBit_range {n p : Nat} (hp : p < n) : sourceBit (List.range n) p = n - 1 - p := by
  rw [sourceBit_eq_getElem (by simpa using hp)]
  simp

theorem getElem?_inverseOrdering {o : List Nat} {j : Nat} (hj : j < o.length) :
    (inverseOrdering o)[j]? = some (o.length - 1 - o.idxOf (o.length - 1 - j)) := by
  simp [inverseOrdering, hj]

/-- The inverse sends a position to the place where the ordering names it, counted from the right (R127). -/
theorem sourceBit_inverseOrdering {o : List Nat} {p : Nat} (hp : p < o.length) :
    sourceBit (inverseOrdering o) p = o.length - 1 - o.idxOf p := by
  rw [sourceBit_eq_getElem (by simpa using hp)]
  simp [inverseOrdering, show o.length - 1 - (o.length - 1 - p) = p by omega]

/-- Composing orderings composes their source positions (R130). -/
theorem sourceBit_composeOrderings (o1 : List Nat) {o2 : List Nat} {p : Nat} (hp : p < o2.length) :
    sourceBit (composeOrderings o1 o2) p = sourceBit o1 (sourceBit o2 p) := by
  rw [sourceBit_eq_getElem (by simpa using hp), sourceBit_eq_getElem hp]
  simp [composeOrderings, sourceBit]

/-! ### Orderings in range -/

theorem orderingInRange_iff {win : Nat} {o : List Nat} : orderingInRange win o = true ↔ ∀ e ∈ o, e < win := by
  simp [orderingInRange]

theorem sourceBit_lt {win : Nat} {o : List Nat} (hr : orderingInRange win o = true) {p : Nat} (hp : p < o.length) :
    sourceBit o p < win :=
  orderingInRange_iff.mp hr _ (sourceBit_mem hp)

theorem orderingInRange_identityOrdering (n : Nat) : orderingInRange n (identityOrdering n) = true := by
  simp only [orderingInRange_iff, identityOrdering, List.mem_map, List.mem_range]
  rintro _ ⟨k, hk, rfl⟩
  omega

theorem orderingInRange_range (n : Nat) : orderingInRange n (List.range n) = true := by
  simp [orderingInRange_iff]

theorem orderingInRange_inverseOrdering (o : List Nat) : orderingInRange o.length (inverseOrdering o) = true := by
  simp only [orderingInRange_iff, inverseOrdering, List.mem_map, List.mem_range]
  rintro _ ⟨j, hj, rfl⟩
  omega

/-! ### Permuting twice -/

/-- Permuting twice reads through both source maps, the second ordering's first. -/
theorem getLsbD_permute_permute {w : Nat} (v : BitVec w) {o q : List Nat} (hq : orderingInRange o.length q = true)
    {p : Nat} (hp : p < q.length) :
    (permute (permute v o) q).getLsbD p = v.getLsbD (sourceBit o (sourceBit q p)) := by
  rw [getLsbD_permute_sourceBit _ hp, getLsbD_permute_sourceBit _ (sourceBit_lt hq hp)]

theorem getLsbD_permuteTo_permuteTo {w n : Nat} (v : BitVec w) {o q : List Nat} (ho : o.length = n)
    (hlen : q.length = n) (hq : orderingInRange n q = true) {p : Nat} (hp : p < n) :
    (permuteTo n (permuteTo n v o) q).getLsbD p = v.getLsbD (sourceBit o (sourceBit q p)) := by
  rw [getLsbD_permuteTo_sourceBit _ hlen hp, getLsbD_permuteTo_sourceBit _ ho (sourceBit_lt hq (hlen.symm ▸ hp))]

/-- `q` undoes `o` on every value exactly when the source maps compose to the identity; a value with a single bit set
tells the positions apart. -/
theorem permuteTo_permuteTo_eq_self_iff {n : Nat} {o q : List Nat} (ho : o.length = n) (hlen : q.length = n)
    (hq : orderingInRange n q = true) :
    (∀ v : BitVec n, permuteTo n (permuteTo n v o) q = v) ↔ ∀ p < n, sourceBit o (sourceBit q p) = p := by
  constructor
  · intro hundo p hp
    have hbit := getLsbD_permuteTo_permuteTo (BitVec.twoPow n p) ho hlen hq hp
    rw [hundo, BitVec.getLsbD_twoPow, BitVec.getLsbD_twoPow] at hbit
    simpa [hp, eq_comm] using hbit
  · intro hsource v
    apply BitVec.eq_of_getLsbD_eq
    intro p hp
    rw [getLsbD_permuteTo_permuteTo v ho hlen hq hp, hsource p hp]

/-! ### Bijective and self-inverse orderings -/

/-- An ordering that names all of its n positions names each exactly once, for it has only n entries. -/
theorem range_perm_of_forall_mem {o : List Nat} (hmem : ∀ p < o.length, p ∈ o) : (List.range o.length).Perm o := by
  have hsub : List.range o.length ⊆ o := fun p hp => hmem p (List.mem_range.mp hp)
  exact (List.nodup_range.subperm hsub).perm_of_length_le (by simp)

/-- The bijective orderings are the rearrangements of 0 .. n−1 (R127). -/
theorem orderingBijective_iff_perm {o : List Nat} : orderingBijective o = true ↔ (List.range o.length).Perm o := by
  simp only [orderingBijective, Bool.and_eq_true, List.all_eq_true, decide_eq_true_eq, List.mem_range]
  constructor
  · rintro ⟨-, hcount⟩
    exact range_perm_of_forall_mem fun p hp => List.count_pos_iff.mp (by rw [hcount p hp]; exact Nat.one_pos)
  · intro hperm
    refine ⟨orderingInRange_iff.mpr fun e he => List.mem_range.mp (hperm.mem_iff.mpr he), fun p hp => ?_⟩
    rw [← hperm.count_eq]
    exact List.count_eq_one_of_mem List.nodup_range (List.mem_range.mpr hp)

/-- Where a bijective ordering names a position, its inverse points, so reading one through the other gives it back. -/
theorem sourceBit_sourceBit_inverseOrdering {o : List Nat} (hb : orderingBijective o = true) {p : Nat}
    (hp : p < o.length) : sourceBit o (sourceBit (inverseOrdering o) p) = p := by
  have hmem : p ∈ o := (orderingBijective_iff_perm.mp hb).subset (List.mem_range.mpr hp)
  rw [sourceBit_inverseOrdering hp, sourceBit_reflect (List.idxOf_lt_length_iff.mpr hmem)]
  exact List.getElem_idxOf _

/-- No position is named twice, so the place where the inverse finds a source is the place it was read from. -/
theorem sourceBit_inverseOrdering_sourceBit {o : List Nat} (hb : orderingBijective o = true) {p : Nat}
    (hp : p < o.length) : sourceBit (inverseOrdering o) (sourceBit o p) = p := by
  have hperm := orderingBijective_iff_perm.mp hb
  have hlt : sourceBit o p < o.length := List.mem_range.mp (hperm.mem_iff.mpr (sourceBit_mem hp))
  rw [sourceBit_inverseOrdering hlt, sourceBit_eq_getElem hp, (hperm.nodup List.nodup_range).idxOf_getElem]
  omega

/-- The test of R129 in terms of positions: index j is position n − 1 − j. -/
theorem orderingSelfInverse_iff {o : List Nat} :
    orderingSelfInverse o = true ↔
      orderingInRange o.length o = true ∧ ∀ p < o.length, sourceBit o (sourceBit o p) = p := by
  have hentry {j : Nat} (hj : j < o.length) :
      o[o.length - 1 - o.getD j 0]? = some (o.length - 1 - j) ↔
        sourceBit o (sourceBit o (o.length - 1 - j)) = o.length - 1 - j := by
    have hlt : o.length - 1 - o[j] < o.length := by omega
    rw [sourceBit_reflect hj]
    simp [sourceBit, hj, hlt]
  simp only [orderingSelfInverse, Bool.and_eq_true, List.all_eq_true, decide_eq_true_eq, List.mem_range]
  refine and_congr_right fun _ => ⟨fun h p hp => ?_, fun h j hj => (hentry hj).mpr (h _ (by omega))⟩
  have hreflect := (hentry (by omega)).mp (h (o.length - 1 - p) (by omega))
  rwa [show o.length - 1 - (o.length - 1 - p) = p by omega] at hreflect

/-- A self-inverse ordering names every position, as the source of its source. -/
theorem orderingBijective_of_selfInverse {o : List Nat} (hs : orderingSelfInverse o = true) :
    orderingBijective o = true := by
  obtain ⟨hr, hsource⟩ := orderingSelfInverse_iff.mp hs
  refine orderingBijective_iff_perm.mpr (range_perm_of_forall_mem fun p hp => ?_)
  rw [← hsource p hp]
  exact sourceBit_mem (sourceBit_lt hr hp)

theorem orderingSelfInverse_identityOrdering (n : Nat) : orderingSelfInverse (identityOrdering n) = true := by
  rw [orderingSelfInverse_iff, length_identityOrdering]
  refine ⟨orderingInRange_identityOrdering n, fun p hp => ?_⟩
  rw [sourceBit_identityOrdering hp, sourceBit_identityOrdering hp]

theorem orderingSelfInverse_range (n : Nat) : orderingSelfInverse (List.range n) = true := by
  rw [orderingSelfInverse_iff, List.length_range]
  refine ⟨orderingInRange_range n, fun p hp => ?_⟩
  rw [sourceBit_range hp, sourceBit_range (by omega)]
  omega

/-! ### The result as a number, and the laws of R130 -/

/-- Each entry in turn gives the most significant bit of what is left, so its weight is the rest's length (R120). -/
theorem toNat_permute {w : Nat} (v : BitVec w) (o : List Nat) :
    (permute v o).toNat = ∑ k : Fin o.length, (v.getLsbD o[k]).toNat * 2 ^ (o.length - 1 - k.val) := by
  induction o with
  | nil => rfl
  | cons e o ih =>
    calc (permute v (e :: o)).toNat
        = (v.getLsbD e).toNat * 2 ^ o.length + (permute v o).toNat := by
          rw [permute, BitVec.toNat_cons', Nat.shiftLeft_eq]
      _ = (v.getLsbD e).toNat * 2 ^ o.length +
            ∑ k : Fin o.length, (v.getLsbD o[k]).toNat * 2 ^ (o.length - 1 - k.val) := by rw [ih]
      _ = _ := by
          refine Eq.trans ?_ (Fin.sum_univ_succ _).symm
          simp [Nat.sub_sub, Nat.add_comm]

/-- An operation that acts bit by bit passes through `permute`. -/
theorem permute_bitwise {w : Nat} {v u z : BitVec w} {o : List Nat} {f : Bool → Bool → Bool} {r : BitVec o.length}
    (hz : ∀ e, z.getLsbD e = f (v.getLsbD e) (u.getLsbD e))
    (hr : ∀ p, r.getLsbD p = f ((permute v o).getLsbD p) ((permute u o).getLsbD p)) : permute z o = r := by
  apply BitVec.eq_of_getLsbD_eq
  intro p hp
  simp only [hr, getLsbD_permute_sourceBit _ hp, hz]

theorem permute_zero (w : Nat) (o : List Nat) : permute (0#w) o = 0#o.length := by
  apply BitVec.eq_of_getLsbD_eq
  intro p hp
  rw [getLsbD_permute_sourceBit _ hp, BitVec.getLsbD_zero, BitVec.getLsbD_zero]

theorem permute_allOnes {win : Nat} {o : List Nat} (hr : orderingInRange win o = true) :
    permute (BitVec.allOnes win) o = BitVec.allOnes o.length := by
  apply BitVec.eq_of_getLsbD_eq
  intro p hp
  simp [getLsbD_permute_sourceBit _ hp, sourceBit_lt hr hp, hp]

/-- Stated on numbers, because the two results' widths agree by a lemma and not by definition. -/
theorem toNat_permute_permute {w : Nat} (v : BitVec w) {o o2 : List Nat} (h2 : orderingInRange o.length o2 = true) :
    (permute (permute v o) o2).toNat = (permute v (composeOrderings o o2)).toNat := by
  apply Nat.eq_of_testBit_eq
  intro p
  rw [BitVec.testBit_toNat, BitVec.testBit_toNat]
  by_cases hp : p < o2.length
  · rw [getLsbD_permute_permute v h2 hp, getLsbD_permute_sourceBit v (by simpa using hp),
      sourceBit_composeOrderings o hp]
  · rw [BitVec.getLsbD_of_ge _ _ (by omega), BitVec.getLsbD_of_ge _ _ (by simpa using hp)]

/-! ### The statements -/

/-- Settles O20: the bit law is `sourceBit_reflect`, the sum an induction on the ordering. -/
theorem permuteSelectsBits : Obligations.PermuteSelectsBits := by
  refine fun w v o => ⟨fun k hk => ?_, toNat_permute v o⟩
  rw [getLsbD_permute_sourceBit v (by omega), sourceBit_reflect hk]

/-- Settles O21: every law is read off one bit of the result through its source position. -/
theorem permuteLaws : Obligations.PermuteLaws := by
  intro win v u o hr
  refine ⟨?xor, ?and, ?or, permute_zero win o, permute_allOnes hr, fun o2 h2 => toNat_permute_permute v h2⟩
  case xor => exact permute_bitwise (fun _ => BitVec.getLsbD_xor) (fun _ => BitVec.getLsbD_xor)
  case and => exact permute_bitwise (fun _ => BitVec.getLsbD_and) (fun _ => BitVec.getLsbD_and)
  case or => exact permute_bitwise (fun _ => BitVec.getLsbD_or) (fun _ => BitVec.getLsbD_or)

/-- Settles O22: the source maps of a bijective ordering and of its inverse undo each other on both sides. -/
theorem inverseOrderingUndoesPermute : Obligations.InverseOrderingUndoesPermute := by
  intro o hb
  have hr : orderingInRange o.length o = true := (Bool.and_eq_true_iff.mp hb).1
  have hlen := length_inverseOrdering o
  refine ⟨hlen, fun j => getElem?_inverseOrdering, fun v => ⟨?after, ?before⟩⟩
  case after =>
    exact (permuteTo_permuteTo_eq_self_iff rfl hlen (orderingInRange_inverseOrdering o)).mpr
      (fun _ => sourceBit_sourceBit_inverseOrdering hb) v
  case before =>
    exact (permuteTo_permuteTo_eq_self_iff hlen rfl hr).mpr (fun _ => sourceBit_inverseOrdering_sourceBit hb) v

/-- Settles O23: the test and the law are the same equation of source positions. -/
theorem selfInverseTestIsExact : Obligations.SelfInverseTestIsExact := by
  refine ⟨fun o hr => ?exact, fun o => orderingBijective_of_selfInverse,
    fun n => ⟨orderingSelfInverse_identityOrdering n, orderingSelfInverse_range n⟩, by decide, by decide⟩
  case exact =>
    rw [orderingSelfInverse_iff, permuteTo_permuteTo_eq_self_iff rfl rfl hr]
    exact and_iff_right hr

/-- Settles O24: the identity ordering's source of p is p, the ascending list's is n − 1 − p. -/
theorem identityOrderingIsIdentity : Obligations.IdentityOrderingIsIdentity := by
  refine fun n v => ⟨BitVec.eq_of_getLsbD_eq fun p hp => ?identity, fun p hp => ?ascending⟩
  case identity =>
    rw [getLsbD_permuteTo_sourceBit v (length_identityOrdering n) hp, sourceBit_identityOrdering hp]
  case ascending =>
    rw [getLsbD_permuteTo_sourceBit v List.length_range hp, sourceBit_range hp]

end Sys2Proof.Machine

/-! The address path bit by bit, a sweep in which no index raises as one block write, and the inverse configuration
(41_scheme.md R142 to R154). -/

namespace Sys2Proof.Machine

/-! ### The orderings of a state -/

/-- `AORD` holds all AW entries: its 31 registers are enough for every AW (R6, R31). -/
@[simp] theorem length_addressOrdering (s : State) : s.addressOrdering.length = s.params.aw := by
  simp [State.addressOrdering, orderingOf, aw_le]

/-- The encode direction uses `DORD` itself when `DSHARE` = 1 (R145). -/
theorem encodeOrdering_of_dshare {s : State} (h : s.dshare = true) : s.encodeOrdering = s.decodeOrdering := if_pos h

theorem orderingInRange_of_bijective {o : List Nat} (hb : orderingBijective o = true) :
    orderingInRange o.length o = true :=
  (Bool.and_eq_true_iff.mp hb).1

/-! ### The address path -/

/-- A scrambled address has AW bits (R143). -/
theorem physicalAddress_lt (s : State) (la : Word) : physicalAddress s la < 2 ^ s.params.aw :=
  (permute_toNat_lt _ s.addressOrdering).trans_eq (congrArg _ (length_addressOrdering s))

/-- Each bit of the scrambled address is a bit of the masked logical one (R142, R143). -/
theorem testBit_physicalAddress {s : State} (hr : orderingInRange s.params.aw s.addressOrdering = true) (la : Word)
    {p : Nat} (hp : p < s.params.aw) :
    (physicalAddress s la).testBit p = (la ^^^ s.amask.val).getLsbD (sourceBit s.addressOrdering p) := by
  have hlen : p < s.addressOrdering.length := by rwa [length_addressOrdering]
  rw [physicalAddress, BitVec.testBit_toNat, getLsbD_permute_sourceBit _ hlen, ← BitVec.setWidth_xor,
    BitVec.getLsbD_setWidth, decide_eq_true (sourceBit_lt hr hlen), Bool.true_and]

/-- An address below 2^AW is its own value on the 32-bit operand. -/
theorem toNat_address {p : Params} {a : Nat} (ha : a < 2 ^ p.aw) : (BitVec.ofNat 32 a).toNat = a := by
  have hpow : 2 ^ p.aw ≤ 2 ^ 32 := Nat.pow_le_pow_right (by decide) ((aw_le p).trans (by decide))
  exact Nat.mod_eq_of_lt (ha.trans_le hpow)

/-- With both sizes at 2^AW no address of the bus raises (R141, R144). -/
theorem pathAccepts_of_fullSize {s : State} (hbus : s.bussize.val.toNat = 2 ^ s.params.aw)
    (hsrc : s.srclen.val.toNat = 2 ^ s.params.aw) {a : Nat} (ha : a < 2 ^ s.params.aw) :
    PathAccepts s (BitVec.ofNat 32 a) := by
  refine ⟨?_, hsrc ▸ physicalAddress_lt s _⟩
  rwa [toNat_address ha, hbus]

/-! ### A command whose addresses are all accepted -/

/-- A byte that is fetched is returned, whatever the command's opcode (R146, R147). -/
theorem returnByte_fetchThrough {s : State} {la : Word} (ha : PathAccepts s la) (op : BitVec 8) (o : List Nat) :
    returnByte s op (fetchThrough s o la) =
      s.setResult ((permuteTo 8 (s.readByte .src (physicalAddress s la)) o).setWidth 32) := by
  rw [fetchThrough_ok ha.1 ha.2]
  rfl

/-- The bytes a sweep through the data ordering `o` gathers, one for each index below `SRCLEN` (R203). -/
def gatheredBytes (s : State) (o : List Nat) : List Byte :=
  (List.range s.srclen.val.toNat).map
    (fun i => permuteTo 8 (s.readByte .src (physicalAddress s (BitVec.ofNat 32 i))) o)

/-- A sweep in which no index raises is one block write to `DST`, whatever the command's opcode (R200, R201). -/
theorem sweep_fetchThrough {s : State} (ha : ∀ i, i < s.srclen.val.toNat → PathAccepts s (BitVec.ofNat 32 i))
    (op : BitVec 8) (o : List Nat) :
    sweep s op (fetchThrough s o) = s.writeBytes .dst 0 (gatheredBytes s o) := by
  have hfetch (i : Nat) (hi : i < s.srclen.val.toNat) := fetchThrough_ok (o := o) (ha i hi).1 (ha i hi).2
  obtain ⟨bs, hbs, hlen, hbyte⟩ := sweepBytes_ok (fetchThrough s o) s.srclen.val.toNat 0
    (fun j hj => ⟨_, by rw [Nat.zero_add]; exact hfetch j hj⟩)
  have hgathered : bs = gatheredBytes s o := by
    refine List.ext_getElem (by simp [hlen, gatheredBytes]) fun i hi _ => ?_
    have hi' : i < s.srclen.val.toNat := hlen ▸ hi
    have hgot := hbyte i hi'
    rw [Nat.zero_add, hfetch i hi'] at hgot
    simpa [gatheredBytes, hi] using (Except.ok.inj hgot).symm
  simp only [sweep, hbs, hgathered]

/-- The byte at index i of a written sweep. -/
theorem readByte_writeBytes_gatheredBytes (s : State) (o : List Nat) {i : Nat} (hi : i < s.srclen.val.toNat) :
    (s.writeBytes .dst 0 (gatheredBytes s o)).readByte .dst i =
      permuteTo 8 (s.readByte .src (physicalAddress s (BitVec.ofNat 32 i))) o := by
  simp [readByte_writeBytes, gatheredBytes, hi]

theorem exec_decsw_of_accepts {s : State} (hrun : s.phase = .run)
    (ha : ∀ i, i < s.srclen.val.toNat → PathAccepts s (BitVec.ofNat 32 i)) :
    exec .decsw s = .next (s.writeBytes .dst 0 (gatheredBytes s s.decodeOrdering)) :=
  (exec_of_legal hrun).trans (congrArg _ (sweep_fetchThrough ha 0x28 s.decodeOrdering))

theorem exec_reenc_of_accepts {s : State} (hrun : s.phase = .run)
    (ha : ∀ i, i < s.srclen.val.toNat → PathAccepts s (BitVec.ofNat 32 i)) :
    exec .reenc s = .next (s.writeBytes .dst 0 (gatheredBytes s s.encodeOrdering)) :=
  (exec_of_legal hrun).trans (congrArg _ (sweep_fetchThrough ha 0x29 s.encodeOrdering))

/-! ### The inverse configuration (R154) -/

/-- The inverse of a bijective data ordering gives a byte back (R127). -/
theorem permuteTo_inverseOrdering_permuteTo {n : Nat} {o : List Nat} (hlen : o.length = n)
    (hb : orderingBijective o = true) (v : BitVec n) :
    permuteTo n (permuteTo n v o) (inverseOrdering o) = v := by
  subst hlen
  exact (permuteTo_permuteTo_eq_self_iff rfl (length_inverseOrdering o) (orderingInRange_inverseOrdering o)).mpr
    (fun _ => sourceBit_sourceBit_inverseOrdering hb) v

/-- The mask `permute(m, o)`: its bit p is the bit of m that the ordering moves to p. -/
theorem getLsbD_permutedMask {n : Nat} {m m' : Word} {o : List Nat} (hlen : o.length = n)
    (hr : orderingInRange n o = true) (hm : (m'.setWidth n).toNat = (permute (m.setWidth n) o).toNat) {p : Nat}
    (hp : p < n) : m'.getLsbD p = m.getLsbD (sourceBit o p) := by
  have hpo : p < o.length := hlen ▸ hp
  have hbit := congrArg (Nat.testBit · p) hm
  simpa only [BitVec.testBit_toNat, getLsbD_permute_sourceBit _ hpo, BitVec.getLsbD_setWidth, hp, sourceBit_lt hr hpo,
    decide_true, Bool.true_and] using hbit

/-- Two addresses of n bits that agree on each of them are equal. -/
theorem eq_of_testBit_eq_below {n a b : Nat} (ha : a < 2 ^ n) (hb : b < 2 ^ n)
    (h : ∀ p < n, a.testBit p = b.testBit p) : a = b := by
  apply Nat.eq_of_testBit_eq
  intro p
  by_cases hp : p < n
  · exact h p hp
  · have hpow : 2 ^ n ≤ 2 ^ p := Nat.pow_le_pow_right (by decide) (by omega)
    rw [Nat.testBit_eq_false_of_lt (ha.trans_le hpow), Nat.testBit_eq_false_of_lt (hb.trans_le hpow)]

/-- Scrambling under S the address scrambled under S′ gives the address back: position p is fetched from where the
inverse points, so both source maps cancel, and the mask of S meets its own permuted copy. -/
theorem physicalAddress_physicalAddress_inverse {s s' : State} (haw : s'.params.aw = s.params.aw)
    (hb : orderingBijective s.addressOrdering = true)
    (ho : s'.addressOrdering = inverseOrdering s.addressOrdering)
    (hm : (s'.amask.val.setWidth s.params.aw).toNat =
      (permute (s.amask.val.setWidth s.params.aw) s.addressOrdering).toNat)
    {a : Nat} (ha : a < 2 ^ s.params.aw) :
    physicalAddress s (BitVec.ofNat 32 (physicalAddress s' (BitVec.ofNat 32 a))) = a := by
  have hlen := length_addressOrdering s
  have hr : orderingInRange s.params.aw s.addressOrdering = true := hlen ▸ orderingInRange_of_bijective hb
  have hr' : orderingInRange s'.params.aw s'.addressOrdering = true := by
    rw [ho, haw, ← hlen]
    exact orderingInRange_inverseOrdering _
  have hbit (p : Nat) (hp : p < s.params.aw) :
      (physicalAddress s (BitVec.ofNat 32 (physicalAddress s' (BitVec.ofNat 32 a)))).testBit p = a.testBit p := by
    have hq : sourceBit s.addressOrdering p < s.params.aw := sourceBit_lt hr (hlen.symm ▸ hp)
    calc _ = ((physicalAddress s' (BitVec.ofNat 32 a)).testBit (sourceBit s.addressOrdering p) ^^
              s.amask.val.getLsbD (sourceBit s.addressOrdering p)) := by
          rw [testBit_physicalAddress hr _ hp, BitVec.getLsbD_xor, ← BitVec.testBit_toNat,
            toNat_address (physicalAddress_lt s' _)]
      _ = ((a.testBit p ^^ s'.amask.val.getLsbD p) ^^ s.amask.val.getLsbD (sourceBit s.addressOrdering p)) := by
          rw [testBit_physicalAddress hr' _ (haw ▸ hq), ho, sourceBit_inverseOrdering_sourceBit hb (hlen.symm ▸ hp),
            BitVec.getLsbD_xor, ← BitVec.testBit_toNat, toNat_address ha]
      _ = a.testBit p := by
          rw [getLsbD_permutedMask hlen hr hm hp, Bool.xor_assoc, Bool.xor_self, Bool.xor_false]
  exact eq_of_testBit_eq_below (physicalAddress_lt s _) ha hbit

/-! ### The statements -/

/-- Settles O32: the two directions differ in the data ordering only, and `DSHARE` = 1 makes it `DORD` in both. -/
theorem sharedOrderingMakesDirectionsEqual : Obligations.SharedOrderingMakesDirectionsEqual := by
  intro s hshare
  have hord := encodeOrdering_of_dshare hshare
  refine ⟨fun la => ?bytes, fun la hrun ha => ?commands, fun hrun ha => ?sweeps⟩
  case bytes => exact congrArg (fetchThrough s · la) hord
  case commands =>
    rw [exec_of_legal hrun, exec_of_legal hrun]
    simp only [ownRule, encByte, decByte, hord, returnByte_fetchThrough ha]
  case sweeps => rw [exec_reenc_of_accepts hrun ha, exec_decsw_of_accepts hrun ha, hord]

/-- Settles O38: the byte `REENC` under S′ fetches was written by `DECSW` under S from the very same address
(`physicalAddress_physicalAddress_inverse`), and the data orderings cancel. -/
theorem inverseConfigurationUndoesDecodeSweep : Obligations.InverseConfigurationUndoesDecodeSweep := by
  intro s s' t hrun hrun' haw hbo hbd hbus hsrc ho hm hd hbus' hsrc' hdecsw hL
  have hacc (i : Nat) (hi : i < s.srclen.val.toNat) := pathAccepts_of_fullSize hbus hsrc (hsrc ▸ hi)
  have hacc' (i : Nat) (hi : i < s'.srclen.val.toNat) :=
    pathAccepts_of_fullSize (haw ▸ hbus') (haw ▸ hsrc') (haw ▸ hsrc' ▸ hi)
  obtain rfl : s.writeBytes .dst 0 (gatheredBytes s s.decodeOrdering) = t := by
    simpa [exec_decsw_of_accepts hrun hacc] using hdecsw
  refine ⟨_, exec_reenc_of_accepts hrun' hacc', fun a ha => ?_⟩
  have hpa : physicalAddress s' (BitVec.ofNat 32 a) < 2 ^ s.params.aw := haw ▸ physicalAddress_lt s' _
  calc (s'.writeBytes .dst 0 (gatheredBytes s' s'.encodeOrdering)).readByte .dst a
      = permuteTo 8 (s'.readByte .src (physicalAddress s' (BitVec.ofNat 32 a))) s'.encodeOrdering :=
        readByte_writeBytes_gatheredBytes s' _ (hsrc' ▸ ha)
    _ = permuteTo 8 (permuteTo 8 (s.readByte .src a) s.decodeOrdering) (inverseOrdering s.decodeOrdering) := by
        rw [hL _ hpa, readByte_writeBytes_gatheredBytes s _ (hsrc ▸ hpa),
          physicalAddress_physicalAddress_inverse haw hbo ho hm ha, hd]
    _ = s.readByte .src a := permuteTo_inverseOrdering_permuteTo (length_decodeOrdering s) hbd _

end Sys2Proof.Machine

/-! A sweep in which some index raises: one fault entry, with what the least such index raises (43_reencode.md R204). -/

namespace Sys2Proof.Machine

/-- An address below `SRCLEN` is its own value on the 32-bit operand, whatever the configuration. -/
theorem toNat_index_of_lt_srclen {s : State} {i : Nat} (hi : i < s.srclen.val.toNat) :
    (BitVec.ofNat 32 i).toNat = i :=
  Nat.mod_eq_of_lt (hi.trans s.srclen.val.isLt)

@[simp] theorem length_unspecifiedDst (s : State) (op : BitVec 8) :
    (unspecifiedDst s op).length = s.srclen.val.toNat := by
  simp [unspecifiedDst]

/-- What an address that fails a range check raises: the logical check is the first (R141, R144). -/
theorem fetchThrough_of_not_accepts {s : State} {la : Word} (h : ¬ PathAccepts s la) (o : List Nat) :
    fetchThrough s o la =
      .error ⟨if s.bussize.val.toNat ≤ la.toNat then .outOfRangeError else .physRangeError, la⟩ := by
  rcases scramble_cases s la with ⟨hout, hs⟩ | ⟨hin, _, hs⟩ | ⟨hin, hpa, _⟩
  · rw [fetchThrough, hs, if_pos hout]
  · rw [fetchThrough, hs, if_neg (by omega)]
  · exact absurd ⟨hin, hpa⟩ h

/-- A sweep whose least raising index is k: fault entry with what k raises, and no byte but those of `DST` below
`SRCLEN` is written (R204, R270). -/
theorem sweep_of_least_raise {s : State} {path : Word → Except Raise Byte} {k : Nat} {r : Raise}
    (hk : k < s.srclen.val.toNat) (hbelow : ∀ i, i < k → ∃ b, path (BitVec.ofNat 32 i) = .ok b)
    (hraise : path (BitVec.ofNat 32 k) = .error r) (op : BitVec 8) :
    FaultedFrom s (sweep s op path) r.err op r.info ∧
      SameMemoryOutside (fun m a => m = .dst ∧ a < s.srclen.val.toNat) s (sweep s op path) := by
  have hbytes : sweepBytes path 0 s.srclen.val.toNat = .error r :=
    sweepBytes_error path r _ 0 k hk (by simpa using hbelow) (by simpa using hraise)
  have hsweep : sweep s op path = (s.writeBytes .dst 0 (unspecifiedDst s op)).raise op r := by
    rw [sweep, hbytes]
  obtain ⟨hconf, hres, hmodel⟩ := sweep_keeps s op path
  rw [hsweep] at hconf hres hmodel ⊢
  refine ⟨⟨rfl, rfl, rfl, rfl, hconf, hres, hmodel⟩, fun m a ha => ?_⟩
  rw [readByte_raise]
  exact sameMemoryOutside_writeBytes s .dst 0 (unspecifiedDst s op) m a (by simpa using ha)

/-- Settles O36: both sweeps run the same address path and differ in their data ordering only, which no range check
looks at. -/
theorem faultingSweepReportsTheLeastIndex : Obligations.FaultingSweepReportsTheLeastIndex := by
  intro s k hrun hk hbelow hrefused c hc
  have hfault (op : BitVec 8) (o : List Nat) := sweep_of_least_raise (path := fetchThrough s o) hk
    (fun i hi => ⟨_, fetchThrough_ok (hbelow i hi).1 (hbelow i hi).2⟩) (fetchThrough_of_not_accepts hrefused o) op
  rw [toNat_index_of_lt_srclen hk] at hfault
  rcases hc with rfl | rfl
  case inl => exact ⟨_, exec_of_legal hrun, hfault 0x29 s.encodeOrdering⟩
  case inr => exact ⟨_, exec_of_legal hrun, hfault 0x28 s.decodeOrdering⟩

end Sys2Proof.Machine

/-! The colour-plane unit: the physical colour index in closed form, and what each step of the repacker leaves in `CMB`
and `COUT` (44_color.md R215 to R226). -/

namespace Sys2Proof.Machine

/-! ### The physical colour index -/

/-- The index in closed form: the low five bits, and bit 5 twice, as bits 5 and 6 (R215). -/
theorem cphys_eq (i : Nat) : cphys i = i % 0x20 + 0x60 * (i / 0x20 % 2) := by
  have hlow : i &&& 0x3F = i % 2 ^ 6 := Nat.and_two_pow_sub_one_eq_mod i 6
  have hbit : (i &&& 0x20) <<< 1 = 2 ^ 6 * (i / 0x20 % 2) := by
    have hand : i &&& 0x20 = (i.testBit 5).toNat * 0x20 := Nat.and_two_pow i 5
    rw [hand, Nat.toNat_testBit, Nat.shiftLeft_eq]
    omega
  have hsplit : i % (0x20 * 2) = i % 0x20 + 0x20 * (i / 0x20 % 2) := Nat.mod_mul
  rw [cphys, hlow, hbit, Nat.or_comm, ← Nat.two_pow_add_eq_or_of_lt (Nat.mod_lt i (by decide))]
  omega

theorem cphys_mem_ranges (i : Nat) : cphys i < 0x20 ∨ (0x60 ≤ cphys i ∧ cphys i < 0x80) := by
  have := cphys_eq i
  omega

/-- The index fixes the numbers of its two ranges. -/
theorem cphys_of_mem_ranges {a : Nat} (ha : a < 0x20 ∨ (0x60 ≤ a ∧ a < 0x80)) : cphys a = a := by
  have := cphys_eq a
  omega

theorem cphys_cphys (i : Nat) : cphys (cphys i) = cphys i := cphys_of_mem_ranges (cphys_mem_ranges i)

theorem cphys_and_mask (i : Nat) : cphys (i &&& 0x3F) = cphys i := by
  simp only [cphys, Nat.and_assoc, Nat.reduceAnd]

/-- The index is a permutation of the low byte, with bit 5 taken twice (R215). -/
theorem toNat_permute_colourOrdering (i : Nat) :
    (permute (BitVec.ofNat 8 i) [5, 5, 4, 3, 2, 1, 0]).toNat = cphys i := by
  have hdigits : (permute (BitVec.ofNat 8 i) [5, 5, 4, 3, 2, 1, 0]).toNat =
      i / 32 % 2 * 64 + (i / 32 % 2 * 32 + (i / 16 % 2 * 16 + (i / 8 % 2 * 8 + (i / 4 % 2 * 4 +
        (i / 2 % 2 * 2 + i % 2))))) := by
    simp [toNat_permute, Fin.sum_univ_succ, Nat.toNat_testBit, BitVec.getLsbD_ofNat, -BitVec.getLsbD_eq_getElem,
      -Nat.testBit_zero]
  rw [hdigits, cphys_eq]
  omega

/-- Settles O39: the closed form of the index gives its ranges, and the numbers of the ranges are fixed by it. -/
theorem colourIndex : Obligations.ColourIndex :=
  ⟨fun i => ⟨rfl, (toNat_permute_colourOrdering i).symm, cphys_cphys i, (cphys_and_mask i).symm, cphys_mem_ranges i⟩,
    fun _ => cphys_of_mem_ranges⟩

/-! ### The three steps of the repacker -/

/-- The entries that narrowing clears (R219). -/
abbrev NarrowedEntry (i : Nat) : Prop := (0x20 ≤ i ∧ i < 0x60) ∨ (0x80 ≤ i ∧ i < 0x100)

/-- A sample depends on the 128 bytes of `CIN` that physical indices name and on `HP_LOW` only (R216, R228). -/
theorem combined_congr {s s' : State} (hp : s'.params.hpLow = s.params.hpLow)
    (hcin : ∀ a, (a < 0x20 ∨ (0x60 ≤ a ∧ a < 0x80)) →
      s'.readByte .cin a = s.readByte .cin a ∧ s'.readByte .cin (a + 0x100) = s.readByte .cin (a + 0x100)) (i : Nat) :
    combined s' i = combined s i := by
  obtain ⟨hlow, hhigh⟩ := hcin (cphys i) (cphys_mem_ranges i)
  rw [combined, combined, hp, hlow, hhigh]

/-- Step 1 fills every entry of `CMB` (R217). -/
theorem readByte_delinearize_cmb (s : State) {i : Nat} (hi : i < 256) :
    (delinearize s).readByte .cmb i = combined s i := by
  simp [delinearize, readByte_writeBytes, csamples, hi]

@[simp] theorem delinearize_narrow (s : State) : (delinearize s).narrow = s.narrow := by
  simp [State.narrow, delinearize]

@[simp] theorem delinearize_params (s : State) : (delinearize s).params = s.params := by
  simp [delinearize]

theorem readByte_writeBytes_zeros (s : State) (m : MemId) (lo n a : Nat) :
    (s.writeBytes m lo (List.replicate n 0#8)).readByte m a =
      if lo ≤ a ∧ a < lo + n then 0#8 else s.readByte m a := by
  rw [readByte_writeBytes]
  by_cases h : lo ≤ a ∧ a < lo + n
  · have : a - lo < n := by omega
    simp [h, this]
  · simp [h]

/-- Step 2 clears its entries in the narrow mode, and no others (R219). -/
theorem readByte_narrowing_cmb (s : State) (i : Nat) :
    (narrowing s).readByte .cmb i = if s.narrow = true ∧ NarrowedEntry i then 0#8 else s.readByte .cmb i := by
  by_cases hn : s.narrow = true
  case neg => simp [narrowing, hn]
  case pos =>
    rw [narrowing, if_pos hn, readByte_writeBytes_zeros, readByte_writeBytes_zeros, ← ite_or]
    exact if_congr (by simp only [hn, true_and]; omega) rfl rfl

@[simp] theorem narrowing_params (s : State) : (narrowing s).params = s.params := by
  unfold narrowing
  split <;> simp

/-- The low plane of `COUT` after step 3 (R222). -/
theorem readByte_resplit_lowPlane (s : State) {i : Nat} (hi : i < 256) :
    (resplit s).readByte .cout i = lowPlaneOf s i := by
  have : i < 512 := by omega
  simp [resplit, readByte_writeBytes, csamples, hi, this]

/-- The high plane of `COUT` after step 3 (R222). -/
theorem readByte_resplit_highPlane (s : State) {i : Nat} (hi : i < 256) :
    (resplit s).readByte .cout (i + 256) = highPlaneOf s i := by
  have : i + 256 < 512 := by omega
  simp [resplit, readByte_writeBytes, csamples, this]

/-! ### The two colour modes -/

/-- The entries that step 3 splits in `CREPACK`: the samples, less those that narrowing clears (R217, R219). -/
theorem readByte_repacked_cmb (s : State) {i : Nat} (hi : i < 256) :
    (narrowing (delinearize s)).readByte .cmb i =
      if s.narrow = true ∧ NarrowedEntry i then 0#8 else combined s i := by
  rw [readByte_narrowing_cmb, delinearize_narrow, readByte_delinearize_cmb s hi]

/-- In `RUN` the command answers the three steps' state and nothing else (R224). -/
theorem eq_of_exec_crepack {s t : State} (hrun : s.phase = .run) (h : exec .crepack s = .next t) :
    t = resplit (narrowing (delinearize s)) := by
  rw [exec_of_legal hrun] at h
  exact (Host.Outcome.next.inj h).symm

section Cleared

variable {u u' : State} {i : Nat} {p : Prop} [Decidable p]

/-- A cleared entry has a zero low nibble. -/
theorem lowPlaneOf_cleared (he : u'.readByte .cmb i = if p then 0#8 else u.readByte .cmb i) :
    lowPlaneOf u' i = if p then 0#8 else lowPlaneOf u i := by
  rw [lowPlaneOf, lowPlaneOf, he]
  split <;> rfl

/-- A cleared entry has a zero high nibble, which is a zero byte wherever `HP_LOW` puts it. -/
theorem highPlaneOf_cleared (hp : u'.params.hpLow = u.params.hpLow)
    (he : u'.readByte .cmb i = if p then 0#8 else u.readByte .cmb i) :
    highPlaneOf u' i = if p then 0#8 else highPlaneOf u i := by
  rw [highPlaneOf, highPlaneOf, hp, he]
  split
  · cases u.params.hpLow <;> rfl
  · rfl

end Cleared

/-- Settles O46: the two runs split entry buffers that differ in the cleared entries only, and both planes of a cleared
entry are 0. -/
theorem narrowImageIsTheWideOneZeroed : Obligations.NarrowImageIsTheWideOneZeroed := by
  intro s s' t t' hrun hrun' hp hwide hnarrow hcin ht ht' a ha
  obtain rfl := eq_of_exec_crepack hrun ht
  obtain rfl := eq_of_exec_crepack hrun' ht'
  have hsample (i : Nat) : combined s' i = combined s i :=
    combined_congr hp (fun a _ => ⟨hcin a (by omega), hcin (a + 0x100) (by omega)⟩) i
  have hentry (i : Nat) (hi : i < 256) : (narrowing (delinearize s')).readByte .cmb i =
      if NarrowedEntry i then 0#8 else (narrowing (delinearize s)).readByte .cmb i := by
    simp [readByte_repacked_cmb _ hi, hwide, hnarrow, hsample]
  rcases Nat.lt_or_ge a 256 with hlow | hhigh
  case inl =>
    rw [readByte_resplit_lowPlane _ hlow, readByte_resplit_lowPlane _ hlow, lowPlaneOf_cleared (hentry a hlow)]
    exact if_congr (by omega) rfl rfl
  case inr =>
    obtain ⟨i, rfl⟩ := Nat.exists_eq_add_of_le' hhigh
    have hi : i < 256 := by omega
    rw [readByte_resplit_highPlane _ hi, readByte_resplit_highPlane _ hi,
      highPlaneOf_cleared (by simpa using hp) (hentry i hi)]
    exact if_congr (by omega) rfl rfl

end Sys2Proof.Machine

/-! `COMMIT` that fails: the required entries by register and in ascending number, and what the first failing check
reports (45_control.md R241 to R246). -/

namespace Sys2Proof.Machine

/-! ### The first failure in a list -/

/-- The first element at which `f` answers, by position. -/
theorem findSome?_eq_some_of_getElem {α β : Type} {l : List α} {f : α → Option β} {b : β} {k : Nat} (hk : k < l.length)
    (hfk : f l[k] = some b) (hbefore : ∀ j (hj : j < k), f l[j] = none) : l.findSome? f = some b := by
  refine List.findSome?_eq_some_iff.2 ⟨l.take k, l[k], l.drop (k + 1), by simp, hfk, fun a ha => ?_⟩
  obtain ⟨j, hj, rfl⟩ := List.mem_take_iff_getElem.1 ha
  exact hbefore j (by omega)

/-! ### The register order of the required entries -/

/-- Entries in strictly ascending register number, from `lo` on and below `hi`. -/
def AscendingEntries (lo hi : Nat) (l : List Entry) : Prop :=
  l.Pairwise (fun e e' => e.number.toNat < e'.number.toNat) ∧ ∀ e ∈ l, lo ≤ e.number.toNat ∧ e.number.toNat < hi

theorem ascendingEntries_nil (lo hi : Nat) : AscendingEntries lo hi [] := by simp [AscendingEntries]

theorem AscendingEntries.append {lo mid hi : Nat} {l l' : List Entry} (hl : AscendingEntries lo mid l)
    (hl' : AscendingEntries mid hi l') (hlo : lo ≤ mid) (hhi : mid ≤ hi) : AscendingEntries lo hi (l ++ l') := by
  obtain ⟨hsorted, hrange⟩ := hl
  obtain ⟨hsorted', hrange'⟩ := hl'
  constructor
  · refine List.pairwise_append.2 ⟨hsorted, hsorted', fun e he e' he' => ?_⟩
    exact (hrange e he).2.trans_le (hrange' e' he').1
  · refine List.forall_mem_append.2 ⟨fun e he => ?_, fun e he => ?_⟩
    · exact ⟨(hrange e he).1, (hrange e he).2.trans_le hhi⟩
    · exact ⟨hlo.trans (hrange' e he).1, (hrange' e he).2⟩

theorem slotEntries_ascending {base hi : Nat} (win n : Nat) {regs : List (Reg 8)} (h : base + regs.length ≤ hi)
    (hhi : hi ≤ 2 ^ 8) : AscendingEntries base hi (slotEntries base win n regs) := by
  have hnumber (k : Nat) (hk : k < regs.length) : (BitVec.ofNat 8 (base + k)).toNat = base + k :=
    Nat.mod_eq_of_lt (by omega)
  constructor
  · refine List.pairwise_iff_getElem.2 fun i j hi hj hij => ?_
    obtain ⟨-, hj'⟩ : j < n ∧ j < regs.length := by simpa [slotEntries] using hj
    simp [slotEntries, -BitVec.toNat_ofNat, hnumber i (hij.trans hj'), hnumber j hj', hij]
  · intro e he
    obtain ⟨k, hk, -, rfl⟩ := (mem_slotEntries _ _ _ _ _).1 he
    rw [hnumber k hk]
    omega

/-- The required entries stand in ascending register number (R244). -/
theorem requiredEntries_ascending (s : State) : AscendingEntries 0x20 0x80 (requiredEntries s) := by
  have haord : AscendingEntries 0x20 0x40 _ :=
    slotEntries_ascending s.params.aw s.params.aw (regs := s.aord.toList) (by simp) (by decide)
  have hdord : AscendingEntries 0x40 0x48 _ := slotEntries_ascending 8 8 (regs := s.dord.toList) (by simp) (by decide)
  have heord : AscendingEntries 0x48 0x60 (if s.dshare then [] else slotEntries 0x48 8 8 s.eord.toList) := by
    split
    · exact ascendingEntries_nil _ _
    · exact slotEntries_ascending 8 8 (by simp) (by decide)
  have hgord : AscendingEntries 0x60 0x80 _ :=
    slotEntries_ascending s.gwin.val.toNat s.glen.val.toNat (regs := s.gord.toList) (by simp) (by decide)
  have hdata := hdord.append (heord.append hgord (by decide) (by decide)) (by decide) (by decide)
  exact haord.append hdata (by decide) (by decide)

/-! ### The required entries by register -/

/-- What the checks look at in an ordering entry register. -/
def entryOf (s : State) (r : RegId) : Entry :=
  ⟨numberOfReg r, entryIndex r, entryWidth s r, ⟨entryValue s r, (s.readReg r).isSome⟩⟩

/-- A register is its bits with its mark, which is whether it reads (R21, R38). -/
theorem reg_mk_isSome_readMarked {w : Nat} (r : Reg w) : (⟨r.val, (readMarked r).isSome⟩ : Reg w) = r := by
  obtain ⟨v, mark⟩ := r
  cases mark <;> rfl

theorem entryOf_aord (s : State) (k : Fin 31) :
    entryOf s (.aord k) = ⟨BitVec.ofNat 8 (0x20 + k), k, s.params.aw, s.aord[k]⟩ :=
  congrArg (Entry.mk _ _ _) (reg_mk_isSome_readMarked _)
theorem entryOf_dord (s : State) (k : Fin 8) : entryOf s (.dord k) = ⟨BitVec.ofNat 8 (0x40 + k), k, 8, s.dord[k]⟩ :=
  congrArg (Entry.mk _ _ _) (reg_mk_isSome_readMarked _)
theorem entryOf_eord (s : State) (k : Fin 8) : entryOf s (.eord k) = ⟨BitVec.ofNat 8 (0x48 + k), k, 8, s.eord[k]⟩ :=
  congrArg (Entry.mk _ _ _) (reg_mk_isSome_readMarked _)
theorem entryOf_gord (s : State) (k : Fin 32) :
    entryOf s (.gord k) = ⟨BitVec.ofNat 8 (0x60 + k), k, s.gwin.val.toNat, s.gord[k]⟩ :=
  congrArg (Entry.mk _ _ _) (reg_mk_isSome_readMarked _)

/-- The required entries are those of the registers `RequiredEntry` names (R244). -/
theorem forall_mem_requiredEntries_iff_reg (s : State) (P : Entry → Prop) :
    (∀ e ∈ requiredEntries s, P e) ↔ ∀ r, RequiredEntry s r → P (entryOf s r) := by
  rw [forall_mem_requiredEntries]
  constructor
  · rintro ⟨ha, hd, he, hg⟩ r hr
    cases r with
    | aord k => exact entryOf_aord s k ▸ ha k hr
    | dord k => exact entryOf_dord s k ▸ hd k
    | eord k => exact entryOf_eord s k ▸ he hr k
    | gord k => exact entryOf_gord s k ▸ hg k hr
    | _ => exact hr.elim
  · intro h
    exact ⟨fun k hk => entryOf_aord s k ▸ h (.aord k) hk,
      fun k => entryOf_dord s k ▸ h (.dord k) trivial, fun hs k => entryOf_eord s k ▸ h (.eord k) hs,
      fun k hk => entryOf_gord s k ▸ h (.gord k) hk⟩

/-- A check over the required entries reports the failing entry of least register number (R244, R245). -/
theorem findSome?_requiredEntries {s : State} {r : RegId} {f : Entry → Option Word} {info : Word}
    (hr : RequiredEntry s r) (hfr : f (entryOf s r) = some info)
    (hbefore : ∀ r', RequiredEntry s r' → (numberOfReg r').toNat < (numberOfReg r).toNat → f (entryOf s r') = none) :
    (requiredEntries s).findSome? f = some info := by
  have hmem := (forall_mem_requiredEntries_iff_reg s (· ∈ requiredEntries s)).1 (fun _ he => he) r hr
  have hpass := (forall_mem_requiredEntries_iff_reg s
    (fun e => e.number.toNat < (numberOfReg r).toNat → f e = none)).2 hbefore
  obtain ⟨k, hk, hek⟩ := List.mem_iff_getElem.1 hmem
  refine findSome?_eq_some_of_getElem hk (hek ▸ hfr) fun j hj => hpass _ (List.getElem_mem _) ?_
  have hlt := List.pairwise_iff_getElem.1 (requiredEntries_ascending s).1 j k (hj.trans hk) hk hj
  rwa [hek] at hlt

/-! ### The checks one by one -/

/-- The written marks of the scalars in ascending register number, from 0x10 on (R241). -/
def scalarMarks (s : State) : List Bool :=
  [s.amask.written, s.bussize.written, s.srclen.written, s.dctl.written, s.cmode.written, s.gwin.written,
    s.glen.written]

/-- Check 1 numbers the scalars by their position (R241). -/
theorem checkScalarsWritten_eq_zipIdx (s : State) :
    checkScalarsWritten s = (scalarMarks s).zipIdx.findSome?
      (fun m => if m.1 then none else some (configInfo 1 (BitVec.ofNat 8 (0x10 + m.2)) 0 0)) := rfl

/-- Check 1 reports the first scalar whose mark is clear (R241). -/
theorem checkScalarsWritten_eq_some {s : State} {k : Nat} (hk : k < (scalarMarks s).length)
    (hmark : (scalarMarks s)[k] = false) (hbefore : ∀ j (hj : j < k), (scalarMarks s)[j] = true) :
    checkScalarsWritten s = some (configInfo 1 (BitVec.ofNat 8 (0x10 + k)) 0 0) := by
  rw [checkScalarsWritten_eq_zipIdx]
  refine findSome?_eq_some_of_getElem (k := k) (by rwa [List.length_zipIdx]) ?_ fun j hj => ?_
  · simp [hmark]
  · simp [hbefore j hj]

theorem checkScalarsWritten_eq_none {s : State} (h : ScalarsWritten s) : checkScalarsWritten s = none := by
  obtain ⟨hamask, hbussize, hsrclen, hdctl, hcmode, hgwin, hglen⟩ := h
  simp [checkScalarsWritten, hamask, hbussize, hsrclen, hdctl, hcmode, hgwin, hglen]

theorem checkGeneralShape_eq_none {s : State} (hgwin : s.gwin.val.toNat ≤ 32) (hglen : s.glen.val.toNat ≤ 32) :
    checkGeneralShape s = none :=
  (if_neg hgwin.not_gt).trans (if_neg hglen.not_gt)

theorem checkSizes_eq_none {s : State} (hbus : s.bussize.val.toNat ≤ 2 ^ s.params.aw)
    (hsrc : s.srclen.val.toNat ≤ 2 ^ s.params.aw) : checkSizes s = none :=
  (if_neg hbus.not_gt).trans (if_neg hsrc.not_gt)

theorem checkEntriesWritten_eq_none {s : State} (h : RequiredEntriesWritten s) : checkEntriesWritten s = none := by
  refine List.findSome?_eq_none_iff.2 ((forall_mem_requiredEntries s _).2 ?_)
  simpa [RequiredEntriesWritten] using h

theorem checkIndexRange_eq_none {s : State} (h : RequiredEntriesInRange s) : checkIndexRange s = none := by
  refine List.findSome?_eq_none_iff.2 ((forall_mem_requiredEntries s _).2 ?_)
  simpa [RequiredEntriesInRange] using h

/-- An entry of the data ordering below its end, with or without the default. -/
theorem getElem?_decodeOrdering_eq_some_iff (s : State) {i : Nat} (hi : i < 8) (v : Nat) :
    s.decodeOrdering[i]? = some v ↔ s.decodeOrdering.getD i 0 = v := by
  have hlen : i < s.decodeOrdering.length := (length_decodeOrdering s).symm ▸ hi
  simp [List.getD_eq_getElem?_getD, List.getElem?_eq_getElem hlen]

theorem getD_decodeOrdering (s : State) (j : Fin 8) : s.decodeOrdering.getD j.val 0 = s.dord[j].val.toNat :=
  (getElem?_decodeOrdering_eq_some_iff s j.isLt _).1 (getElem?_decodeOrdering s j)

/-- Check 6 reports the least j at which `DORD` is not self-inverse (R246). -/
theorem checkSelfInverse_eq_some {s : State} {j : Fin 8} (hshare : s.dshare = true)
    (hj : s.decodeOrdering[7 - s.dord[j].val.toNat]? ≠ some (7 - j.val))
    (hbefore : ∀ i : Fin 8, i < j → s.decodeOrdering[7 - s.dord[i].val.toNat]? = some (7 - i.val)) :
    checkSelfInverse s =
      some (configInfo 5 (BitVec.ofNat 8 (0x40 + j.val)) (BitVec.ofNat 8 j.val) s.dord[j].val) := by
  have hiff (i : Fin 8) : s.decodeOrdering[7 - s.dord[i].val.toNat]? = some (7 - i.val) ↔
      s.decodeOrdering.getD (7 - s.decodeOrdering.getD i.val 0) 0 = 7 - i.val := by
    rw [getD_decodeOrdering, getElem?_decodeOrdering_eq_some_iff s (by omega)]
  rw [checkSelfInverse, if_pos hshare]
  refine findSome?_eq_some_of_getElem (k := j.val) (by simp) ?_ fun i hi => ?_
  · rw [List.getElem_range, if_neg (mt (hiff j).2 hj), getD_decodeOrdering, BitVec.ofNat_toNat, BitVec.setWidth_eq]
  · rw [List.getElem_range]
    exact if_pos ((hiff ⟨i, by omega⟩).1 (hbefore ⟨i, by omega⟩ hi))

/-! ### What `COMMIT` answers -/

/-- A configuration with a defect makes `COMMIT` in `CONFIG` enter `FAULT` with the defect's `info` (R240, R270). -/
theorem exec_commit_of_defect {s : State} {info : Word} (hphase : s.phase = .config)
    (hdefect : configurationDefect s = some info) :
    ∃ t, exec .commit s = .next t ∧ SameMemory s t ∧ FaultedFrom s t .configurationError 0x01 info := by
  refine ⟨_, exec_of_legal hphase, ?_⟩
  simp only [ownRule, hdefect]
  exact ⟨sameMemory_raise s _ _, faultedFrom_raise s _ _⟩

/-- The defect is check 4's, or a later one, when checks 1 to 3 pass. -/
theorem configurationDefect_of_shapes {s : State} (hscalars : ScalarsWritten s) (hgwin : s.gwin.val.toNat ≤ 32)
    (hglen : s.glen.val.toNat ≤ 32) (hbus : s.bussize.val.toNat ≤ 2 ^ s.params.aw)
    (hsrc : s.srclen.val.toNat ≤ 2 ^ s.params.aw) :
    configurationDefect s =
      [checkEntriesWritten s, checkIndexRange s, checkSelfInverse s].findSome? id := by
  simp only [configurationDefect, List.findSome?_cons, id, checkScalarsWritten_eq_none hscalars,
    checkGeneralShape_eq_none hgwin hglen, checkSizes_eq_none hbus hsrc]

/-- Settles O48: the k-th scalar is the first in check 1's list that is unwritten. -/
theorem commitReportsFirstUnwrittenScalar : Obligations.CommitReportsFirstUnwrittenScalar := by
  intro s k hphase hbefore hk
  have hcheck : checkScalarsWritten s = some (configInfo 1 (BitVec.ofNat 8 (0x10 + k.val)) 0 0) :=
    checkScalarsWritten_eq_some k.isLt hk fun j hj => hbefore ⟨j, hj.trans k.isLt⟩ hj
  refine exec_commit_of_defect hphase ?_
  rw [configurationDefect, hcheck, List.findSome?_cons]
  rfl

/-- Settles O49: check 1 passes, and each case is the first branch taken of checks 2 and 3. -/
theorem commitReportsShapesAndSizes : Obligations.CommitReportsShapesAndSizes := by
  intro s hphase hscalars info hcase
  refine exec_commit_of_defect hphase ?_
  have hfirst := checkScalarsWritten_eq_none hscalars
  rcases hcase with ⟨hgwin, rfl⟩ | ⟨hgwin, hglen, rfl⟩ | ⟨hgwin, hglen, hbus, rfl⟩ | ⟨hgwin, hglen, hbus, hsrc, rfl⟩
  · have hcheck : checkGeneralShape s = some (configInfo 3 0x15 0 0) := if_pos hgwin
    simp [configurationDefect, hfirst, hcheck, configInfo]
  · have hcheck : checkGeneralShape s = some (configInfo 3 0x16 0 0) :=
      (if_neg hgwin.not_gt).trans (if_pos hglen)
    simp [configurationDefect, hfirst, hcheck, configInfo]
  · have hcheck : checkSizes s = some (configInfo 4 0x11 0 0) := if_pos hbus
    simp [configurationDefect, hfirst, checkGeneralShape_eq_none hgwin hglen, hcheck, configInfo]
  · have hcheck : checkSizes s = some (configInfo 4 0x12 0 0) := (if_neg hbus.not_gt).trans (if_pos hsrc)
    simp [configurationDefect, hfirst, checkGeneralShape_eq_none hgwin hglen, hcheck, configInfo]

/-- Settles O50: checks 1 to 3 pass, and the unwritten entry of least number is check 4's. -/
theorem commitReportsFirstUnwrittenEntry : Obligations.CommitReportsFirstUnwrittenEntry := by
  intro s r hphase hscalars hgwin hglen hbus hsrc hr hunwritten hbefore
  have hcheck : checkEntriesWritten s = some (configInfo 1 (numberOfReg r) 0 0) :=
    findSome?_requiredEntries hr (by simp [entryOf, hunwritten]) fun r' hr' hlt =>
      if_pos (Option.isSome_iff_ne_none.2 (hbefore r' hr' hlt))
  refine exec_commit_of_defect hphase ?_
  rw [configurationDefect_of_shapes hscalars hgwin hglen hbus hsrc, hcheck]
  rfl

/-- Settles O51: checks 1 to 4 pass, and the out-of-range entry of least number is check 5's. -/
theorem commitReportsFirstIndexOutOfRange : Obligations.CommitReportsFirstIndexOutOfRange := by
  intro s r hphase hscalars hgwin hglen hbus hsrc hwritten hr hout hbefore
  have hcheck : checkIndexRange s =
      some (configInfo 2 (numberOfReg r) (BitVec.ofNat 8 (entryIndex r)) (entryValue s r)) :=
    findSome?_requiredEntries hr (if_neg (Nat.not_lt.2 hout)) fun r' hr' hlt => if_pos (hbefore r' hr' hlt)
  refine exec_commit_of_defect hphase ?_
  rw [configurationDefect_of_shapes hscalars hgwin hglen hbus hsrc, checkEntriesWritten_eq_none hwritten, hcheck]
  rfl

/-- Settles O52: checks 1 to 5 pass, and check 6 goes through j in ascending order. -/
theorem commitReportsFirstNotSelfInverse : Obligations.CommitReportsFirstNotSelfInverse := by
  intro s j hphase hscalars hgwin hglen hbus hsrc hwritten hrange hshare hj hbefore
  refine exec_commit_of_defect hphase ?_
  rw [configurationDefect_of_shapes hscalars hgwin hglen hbus hsrc, checkEntriesWritten_eq_none hwritten,
    checkIndexRange_eq_none hrange, checkSelfInverse_eq_some hshare hj hbefore]
  rfl

end Sys2Proof.Machine

/-! The block in `FAULT`: writes and commands are ignored, a read answers and changes nothing of the block, and so no
run without a `Reset` changes anything but the replies (60_exceptions.md R272 to R274). -/

namespace Sys2Proof.Machine

/-! ### More replies, and nothing else -/

/-- `s` once the reads of a run have answered `ys`, newest first (log 5). -/
def State.replyAll (s : State) (ys : List Reply) : State := { s with replies := ys ++ s.replies }

theorem replyAll_nil (s : State) : s.replyAll [] = s := rfl

theorem replyAll_singleton (s : State) (y : Reply) : s.replyAll [y] = s.reply y := rfl

theorem replyAll_replyAll (s : State) (ys zs : List Reply) : (s.replyAll ys).replyAll zs = s.replyAll (zs ++ ys) := by
  simp [State.replyAll]

@[simp] theorem replyAll_phase (s : State) (ys : List Reply) : (s.replyAll ys).phase = s.phase := rfl

@[simp] theorem replyAll_result (s : State) (ys : List Reply) : (s.replyAll ys).result = s.result := rfl

theorem sameStatus_replyAll (s : State) (ys : List Reply) : SameStatus s (s.replyAll ys) := ⟨rfl, rfl, rfl, rfl⟩

theorem sameConfiguration_replyAll (s : State) (ys : List Reply) : SameConfiguration s (s.replyAll ys) := by
  simp [SameConfiguration, State.replyAll]

theorem sameMemory_replyAll (s : State) (ys : List Reply) : SameMemory s (s.replyAll ys) := by
  intro m a
  cases m <;> rfl

/-! ### Reaching a transaction's own rule -/

theorem runTxn_of_presentable {x : Txn} {s : State} (h : presentable s.params x = true) :
    runTxn x s = runPresented x s :=
  runTxn_presented (Option.isNone_iff_eq_none.mp h)

/-- A transaction that answers a next state was presented. -/
theorem runPresented_of_runTxn_next {x : Txn} {s t : State} (h : runTxn x s = .next t) :
    runPresented x s = .next t := by
  cases hp : presentationFault s.params x with
  | none => rwa [runTxn_presented hp] at h
  | some f => simp [runTxn, hp] at h

/-- A run that answers a next state goes through the state its first transaction leaves. -/
theorem runTxns_cons_next {x : Txn} {ts : List Txn} {s t : State} (h : runTxns (x :: ts) s = .next t) :
    ∃ u, runTxn x s = .next u ∧ runTxns ts u = .next t := by
  cases hx : runTxn x s with
  | next u => exact ⟨u, rfl, by simpa only [runTxns, hx] using h⟩
  | fault r => simp [runTxns, hx] at h
  | refused r => simp [runTxns, hx] at h

/-- `RegRead` of a register that holds a value answers it (R37). -/
theorem runRegRead_value {s : State} {n : BitVec 8} {r : RegId} {v : Word} (hr : regOfNumber s.params n = some r)
    (hv : s.readReg r = some v) : runRegRead n s = .next (s.reply (.reg v)) := by
  have hne : r ≠ .cmd := by
    rintro rfl
    cases hv
  rw [runRegRead_register hr hne, hv, Option.elim_some]

/-! ### Each transaction in `FAULT` (R272) -/

theorem runCmd_fault {s : State} (w : CmdWord) (hf : s.phase = .fault) : runCmd w s = .next s := if_pos hf

/-- In `FAULT` a write is ignored, that of `CMD` included, which stands for a command (R28). -/
theorem runRegWrite_ignored {s : State} (n : BitVec 8) (v : BitVec 64) (hf : s.phase = .fault) :
    runRegWrite n v s = .next s := by
  by_cases hn : n = 0
  · subst hn
    exact runCmd_fault v hf
  · exact runRegWrite_fault v hn hf

theorem runMemWrite_fault {s : State} (m : MemId) (a : Nat) (b : Byte) (hf : s.phase = .fault) :
    runMemWrite m a b s = .next s := if_pos hf

/-- A `RegRead` that answers a next state in `FAULT` has answered a value: there it raises nothing (R38, R39). -/
theorem runRegRead_fault_next {s t : State} {n : BitVec 8} (hf : s.phase = .fault) (h : runRegRead n s = .next t) :
    ∃ v, t = s.reply (.reg v) := by
  have hignored : readNoRegister n s = .refused (.noRegisterInFault n) := if_pos hf
  cases hr : regOfNumber s.params n with
  | none => simp [runRegRead_noRegister (.inl hr), hignored] at h
  | some r =>
    by_cases hn : n = 0
    · simp [runRegRead_noRegister (.inr hn), hignored] at h
    · rw [runRegRead_register hr (ne_cmd_of_number_ne_zero hn hr)] at h
      cases hv : s.readReg r with
      | none => simp [hv] at h
      | some v =>
        rw [hv] at h
        cases h
        exact ⟨v, rfl⟩

/-- All that a transaction other than `Reset` can do in `FAULT`: leave the state, or add a reply to it. -/
theorem runTxn_fault_next {x : Txn} {s t : State} (hf : s.phase = .fault) (hx : x ≠ .reset)
    (h : runTxn x s = .next t) : ∃ ys, t = s.replyAll ys := by
  have hrun := runPresented_of_runTxn_next h
  cases x with
  | regWrite n v =>
    cases (runRegWrite_ignored n v hf).symm.trans hrun
    exact ⟨[], (replyAll_nil _).symm⟩
  | memWrite m a b =>
    cases (runMemWrite_fault m a b hf).symm.trans hrun
    exact ⟨[], (replyAll_nil _).symm⟩
  | cmd w =>
    cases (runCmd_fault w hf).symm.trans hrun
    exact ⟨[], (replyAll_nil _).symm⟩
  | regRead n =>
    obtain ⟨v, rfl⟩ := runRegRead_fault_next hf hrun
    exact ⟨[.reg v], (replyAll_singleton s _).symm⟩
  | memRead m a =>
    cases hrun
    exact ⟨[.byte (s.readByte m a)], (replyAll_singleton s _).symm⟩
  | reset => exact absurd rfl hx

/-- A run without `Reset` only adds replies: after each transaction the block is still in `FAULT` (R273). -/
theorem runTxns_fault_next {ts : List Txn} {s t : State} (hf : s.phase = .fault) (hts : .reset ∉ ts)
    (h : runTxns ts s = .next t) : ∃ ys, t = s.replyAll ys := by
  induction ts generalizing s with
  | nil =>
    cases h
    exact ⟨[], (replyAll_nil _).symm⟩
  | cons x ts ih =>
    have hx : x ≠ .reset := (List.ne_of_not_mem_cons hts).symm
    obtain ⟨u, hfirst, hlater⟩ := runTxns_cons_next h
    obtain ⟨ys, rfl⟩ := runTxn_fault_next hf hx hfirst
    obtain ⟨zs, rfl⟩ := ih ((replyAll_phase s ys).trans hf) (List.not_mem_of_not_mem_cons hts) hlater
    exact ⟨zs ++ ys, replyAll_replyAll s ys zs⟩

/-! ### The statements -/

/-- Settles O9: the run only adds replies, and those are no part of the block. -/
theorem firstFaultStandsUntilReset : Obligations.FirstFaultStandsUntilReset := by
  intro ts s t hf hts h
  obtain ⟨ys, rfl⟩ := runTxns_fault_next hf hts h
  exact ⟨sameStatus_replyAll s ys, sameConfiguration_replyAll s ys, replyAll_result s ys, sameMemory_replyAll s ys⟩

/-- Settles O8: one transaction after another, each by its own rule in `FAULT`. -/
theorem faultPhaseIgnoresWritesAndCommands : Obligations.FaultPhaseIgnoresWritesAndCommands := by
  intro s hf
  refine ⟨fun n v hp => ?regWrite, fun m a b hp => ?memWrite, fun w => runCmd_fault w hf,
    fun n r v hr hv => ?regRead, fun m a ha => runTxn_memRead ha, fun x t hx h => ?record⟩
  case regWrite => exact (runTxn_regWrite hp).trans (runRegWrite_ignored n v hf)
  case memWrite => exact (runTxn_of_presentable hp).trans (runMemWrite_fault m a b hf)
  case regRead => exact (runTxn_regRead n s).trans (runRegRead_value hr hv)
  case record =>
    obtain ⟨ys, rfl⟩ := runTxn_fault_next hf hx h
    exact sameStatus_replyAll s ys

end Sys2Proof.Machine

/-! The state `Reset` leaves, register by register (70_reset_and_hazards.md R301), for all parameters and every reset
count. -/

namespace Sys2Proof.Machine

theorem readMarked_unwritten (w : Nat) : readMarked (Reg.unwritten w) = none := rfl

theorem statusWord_afterReset (p : Params) (epoch : Nat) : (State.afterReset p epoch).statusWord = 0#32 := by
  have hfields : (0#16 ++ (0#8 ++ (0#4 ++ (0#1 ++ (0#1 ++ 0#2)))) : BitVec 32) = 0#32 := by decide
  exact hfields

/-- Only `STATUS` and `FINFO` hold a value after reset: `CMD` holds none at any time, and every other register is
unwritten. -/
theorem readReg_afterReset (p : Params) (epoch : Nat) {r : RegId} (hstatus : r ≠ .status) (hfinfo : r ≠ .finfo) :
    (State.afterReset p epoch).readReg r = none := by
  cases r with
  | status => exact absurd rfl hstatus
  | finfo => exact absurd rfl hfinfo
  | aord k | dord k | eord k | gord k =>
    simp [State.readReg, State.afterReset, readMarked_unwritten]
  | _ => rfl

/-- Settles O16: each value by the rule for `State.afterReset`, and the read of `STATUS` by the rule for `RegRead` of a
register that holds a value (R37). -/
theorem resetRegisterValues : Obligations.ResetRegisterValues := by
  have hstatus : State.reset.statusWord = 0#32 := statusWord_afterReset Params.default 0
  have hvalue : State.reset.readReg .status = some 0#32 := congrArg some hstatus
  have hnumber : regOfNumber State.reset.params 0x01 = some .status := rfl
  exact ⟨hstatus, rfl, rfl, rfl, fun r => readReg_afterReset Params.default 0,
    (runTxn_regRead 0x01 State.reset).trans (runRegRead_value hnumber hvalue)⟩

end Sys2Proof.Machine

/-! The command encoding field by field: which fields a row's `mask` and `match` fix, and that the decoder answers an
instruction exactly for that instruction's own word (30_encoding.md R91, R95, R97). -/

namespace Sys2Proof

/-! ### A word by its fields -/

/-- Two command words are equal when their four fields are (R91). -/
theorem cmdWord_eq_of_fields {w w' : CmdWord} (hop : opField w = opField w') (hsel : selField w = selField w')
    (hrsv : rsvField w = rsvField w') (harg : argField w = argField w') : w = w' := by
  have hbit {n : Nat} (lo : Nat) {i : Nat} (hf : w.extractLsb' lo n = w'.extractLsb' lo n) (hlo : lo ≤ i)
      (hhi : i < lo + n) : w.getLsbD i = w'.getLsbD i := by
    have hlt : i - lo < n := by omega
    simpa [BitVec.getLsbD_extractLsb', hlt, Nat.add_sub_of_le hlo] using congrArg (·.getLsbD (i - lo)) hf
  apply BitVec.eq_of_getLsbD_eq
  intro i hi
  by_cases h8 : i < 8
  · exact hbit 0 hop (by omega) (by omega)
  by_cases h10 : i < 10
  · exact hbit 8 hsel (by omega) (by omega)
  by_cases h32 : i < 32
  · exact hbit 10 hrsv (by omega) (by omega)
  · exact hbit 32 harg (by omega) (by omega)

/-- What a row's `match` asks of a word: the opcode byte, a zero `RSV`, and zeros in the fields that are no operands of
the row (R95). -/
structure FieldsMatch (w : CmdWord) (i : Instr) : Prop where
  op : opField w = (rowOf i).op
  rsv : rsvField w = 0#22
  sel : (rowOf i).usesSel = false → selField w = 0#2
  arg : (rowOf i).usesArg = false → argField w = 0#32

theorem fieldsMatch_encode (i : Instr) : FieldsMatch (encode i) i := by
  have hfields : Laws.RowFields.Statement i := by
    cases i with
    | commit => exact Laws.RowFields.commit
    | permute sel val => exact Laws.RowFields.permute sel val
    | decode la => exact Laws.RowFields.decode la
    | encode la => exact Laws.RowFields.encode la
    | decsw => exact Laws.RowFields.decsw
    | reenc => exact Laws.RowFields.reenc
    | cdelin => exact Laws.RowFields.cdelin
    | cnarrow => exact Laws.RowFields.cnarrow
    | csplit => exact Laws.RowFields.csplit
    | crepack => exact Laws.RowFields.crepack
  obtain ⟨hop, hrsv, hsel, harg⟩ := hfields
  exact ⟨hop, hrsv, hsel, harg⟩

/-! ### The table's `mask` and `match` -/

/-- A row's mask keeps `OP`, `RSV` and the fields that are no operands (R95). -/
theorem mask_fields (i : Instr) :
    opField (rowOf i).mask = BitVec.allOnes 8 ∧ rsvField (rowOf i).mask = BitVec.allOnes 22 ∧
      selField (rowOf i).mask = (bif (rowOf i).usesSel then 0#2 else BitVec.allOnes 2) ∧
      argField (rowOf i).mask = (bif (rowOf i).usesArg then 0#32 else BitVec.allOnes 32) := by
  cases i <;> simp only [rowOf] <;> decide

/-- A row's match is its opcode byte alone (R95). -/
theorem pattern_fields (i : Instr) :
    opField (rowOf i).pattern = (rowOf i).op ∧ rsvField (rowOf i).pattern = 0#22 ∧
      selField (rowOf i).pattern = 0#2 ∧ argField (rowOf i).pattern = 0#32 := by
  cases i <;> simp only [rowOf] <;> decide

/-- Masking a field that is no operand keeps it, and masking an operand clears it. -/
theorem and_fieldMask_eq_zero_iff {n : Nat} (uses : Bool) (x : BitVec n) :
    x &&& (bif uses then 0#n else BitVec.allOnes n) = 0#n ↔ (uses = false → x = 0#n) := by
  cases uses <;> simp

/-- The test of R95, field by field. -/
theorem and_mask_eq_pattern_iff (w : CmdWord) (i : Instr) :
    w &&& (rowOf i).mask = (rowOf i).pattern ↔ FieldsMatch w i := by
  obtain ⟨hmop, hmrsv, hmsel, hmarg⟩ := mask_fields i
  obtain ⟨hpop, hprsv, hpsel, hparg⟩ := pattern_fields i
  have hop : opField (w &&& (rowOf i).mask) = opField w := by
    rw [opField, BitVec.extractLsb'_and, ← opField, ← opField, hmop, BitVec.and_allOnes]
  have hrsv : rsvField (w &&& (rowOf i).mask) = rsvField w := by
    rw [rsvField, BitVec.extractLsb'_and, ← rsvField, ← rsvField, hmrsv, BitVec.and_allOnes]
  have hsel : selField (w &&& (rowOf i).mask) = 0#2 ↔ ((rowOf i).usesSel = false → selField w = 0#2) := by
    rw [selField, BitVec.extractLsb'_and, ← selField, ← selField, hmsel, and_fieldMask_eq_zero_iff]
  have harg : argField (w &&& (rowOf i).mask) = 0#32 ↔ ((rowOf i).usesArg = false → argField w = 0#32) := by
    rw [argField, BitVec.extractLsb'_and, ← argField, ← argField, hmarg, and_fieldMask_eq_zero_iff]
  constructor
  · intro h
    rw [h] at hop hrsv hsel harg
    exact ⟨hop.symm.trans hpop, hrsv.symm.trans hprsv, hsel.1 hpsel, harg.1 hparg⟩
  · rintro ⟨hwop, hwrsv, hwsel, hwarg⟩
    exact cmdWord_eq_of_fields (hop.trans (hwop.trans hpop.symm)) ((hsel.2 hwsel).trans hpsel.symm)
      (hrsv.trans (hwrsv.trans hprsv.symm)) ((harg.2 hwarg).trans hparg.symm)

/-! ### The decoder -/

/-- The decoder answers the instruction of the opcode byte when the other fields are as its row asks (R95, R97). -/
theorem decode_eq_ok_iff {w : CmdWord} {i : Instr} :
    decode w = .ok i ↔ instrOfOp (opField w) (selField w) (argField w) = some i ∧ rsvField w = 0#22 ∧
      ((rowOf i).usesSel = false → selField w = 0#2) ∧ ((rowOf i).usesArg = false → argField w = 0#32) := by
  unfold decode
  cases instrOfOp (opField w) (selField w) (argField w) with
  | none => simp
  | some j =>
    by_cases hrsv : rsvField w = 0#22
    case neg => simp [hrsv]
    by_cases hsel : (rowOf j).usesSel = false ∧ selField w ≠ 0#2
    case pos =>
      have : ¬ ((rowOf j).usesSel = false → selField w = 0#2) := fun h => hsel.2 (h hsel.1)
      simp only [hrsv, ne_eq, not_true_eq_false, if_false, if_pos hsel]
      exact ⟨nofun, fun ⟨hj, _, hs, _⟩ => absurd (Option.some.inj hj ▸ hs) this⟩
    by_cases harg : (rowOf j).usesArg = false ∧ argField w ≠ 0#32
    case pos =>
      have : ¬ ((rowOf j).usesArg = false → argField w = 0#32) := fun h => harg.2 (h harg.1)
      simp only [hrsv, ne_eq, not_true_eq_false, if_false, if_neg hsel, if_pos harg]
      exact ⟨nofun, fun ⟨hj, _, _, ha⟩ => absurd (Option.some.inj hj ▸ ha) this⟩
    simp only [hrsv, ne_eq, not_true_eq_false, if_false, if_neg hsel, if_neg harg]
    constructor
    · rintro ⟨⟩
      exact ⟨rfl, trivial, fun h => not_not.1 fun hs => hsel ⟨h, hs⟩, fun h => not_not.1 fun ha => harg ⟨h, ha⟩⟩
    · rintro ⟨⟨⟩, -⟩
      rfl

/-- An opcode byte of the map names an instruction of its row, whatever the operand fields (R95). -/
theorem instrOfOp_rowOp (i : Instr) (sel : BitVec 2) (arg : Word) :
    ∃ j, instrOfOp (rowOf i).op sel arg = some j ∧ rowOf j = rowOf i := by
  cases i <;> exact ⟨_, rfl, rfl⟩

/-- No two rows have one opcode byte (R95). -/
theorem rowOf_eq_of_op_eq {i j : Instr} (h : (rowOf i).op = (rowOf j).op) : rowOf i = rowOf j := by
  obtain ⟨i', hi, hrowi⟩ := instrOfOp_rowOp i 0 0
  obtain ⟨j', hj, hrowj⟩ := instrOfOp_rowOp j 0 0
  rw [h, hj] at hi
  rw [← hrowi, ← hrowj, Option.some.inj hi]

/-- The instruction of an instruction's own fields is that instruction. -/
theorem instrOfOp_encode (i : Instr) :
    instrOfOp (opField (encode i)) (selField (encode i)) (argField (encode i)) = some i := by
  cases i <;> simp [encode, instrOfOp]

theorem decode_encode (i : Instr) : decode (encode i) = .ok i := by
  obtain ⟨-, hrsv, hsel, harg⟩ := fieldsMatch_encode i
  exact decode_eq_ok_iff.2 ⟨instrOfOp_encode i, hrsv, hsel, harg⟩

/-- An instruction read from fields is packed into the same fields, when those it does not use are 0. -/
theorem encode_of_instrOfOp {op : BitVec 8} {sel : BitVec 2} {arg : Word} {i : Instr}
    (h : instrOfOp op sel arg = some i) (hsel : (rowOf i).usesSel = false → sel = 0#2)
    (harg : (rowOf i).usesArg = false → arg = 0#32) : encode i = packCmd arg sel op := by
  unfold instrOfOp at h
  split_ifs at h
  all_goals
    subst op
    cases h
  -- `PERMUTE` packs both operands, `DECODE` and `ENCODE` the address; the others have none.
  rotate_left
  · rw [encode, selOfSlot_slotOfSel]
    rfl
  iterate 2
    · rw [hsel rfl]
      rfl
  all_goals
    rw [hsel rfl, harg rfl]
    rfl

theorem encode_of_decode {w : CmdWord} {i : Instr} (h : decode w = .ok i) : encode i = w := by
  obtain ⟨hi, hrsv, hsel, harg⟩ := decode_eq_ok_iff.1 h
  rw [encode_of_instrOfOp hi hsel harg, packCmd_fields w hrsv]

/-- A word that decodes matches its instruction's row. -/
theorem fieldsMatch_of_decode {w : CmdWord} {i : Instr} (h : decode w = .ok i) : FieldsMatch w i :=
  encode_of_decode h ▸ fieldsMatch_encode i

/-- A word that matches a row decodes to an instruction of that row. -/
theorem decode_of_fieldsMatch {w : CmdWord} {i : Instr} (h : FieldsMatch w i) :
    ∃ j, decode w = .ok j ∧ rowOf j = rowOf i := by
  obtain ⟨hop, hrsv, hsel, harg⟩ := h
  obtain ⟨j, hj, hrow⟩ := instrOfOp_rowOp i (selField w) (argField w)
  refine ⟨j, decode_eq_ok_iff.2 ⟨hop ▸ hj, hrsv, ?_, ?_⟩, hrow⟩
  · rwa [hrow]
  · rwa [hrow]

/-! ### The statements -/

/-- Settles O1: the fields of an instruction's word are those its row asks for. -/
theorem decodeInvertsEncode : Obligations.DecodeInvertsEncode := fun i _ => decode_encode i

/-- Settles O2: every field of an accepted word is an operand, the opcode byte, or 0. -/
theorem encodeInvertsDecode : Obligations.EncodeInvertsDecode := fun _ _ => encode_of_decode

/-- Settles O3: `mask` and `match` are the decoder's own conditions on the fields, and an opcode byte has one row. -/
theorem decodeAcceptsExactlyTheRows : Obligations.DecodeAcceptsExactlyTheRows := by
  intro w i
  simp only [and_mask_eq_pattern_iff]
  exact ⟨fieldsMatch_of_decode, decode_of_fieldsMatch, fun j hi hj => rowOf_eq_of_op_eq (hi.op.symm.trans hj.op)⟩

/-- Settles O4: the accepted words are those of their instructions, and each refused word has one field that is not as
R97 asks. -/
theorem specWordsDecode : Obligations.SpecWordsDecode :=
  ⟨decode_encode .commit, decode_encode (.permute .gord 0x1D), decode_encode (.decode 14),
    decode_encode (.encode 0xFFFFFFFF), decode_encode .reenc, decode_encode .crepack, by decide, by decide, by decide,
    by decide⟩

end Sys2Proof

/-! `COMMIT` as a test: the six checks find no defect exactly in a configuration that meets the invariants of `RUN`, and a
defect carries a sub-code from 1 to 5 (45_control.md R240 to R248). -/

namespace Sys2Proof.Machine

/-! ### Each check passes exactly on its own clause of the invariants of `RUN` -/

theorem checkScalarsWritten_eq_none_iff (s : State) : checkScalarsWritten s = none ↔ ScalarsWritten s := by
  refine ⟨fun h => ?_, checkScalarsWritten_eq_none⟩
  simpa [checkScalarsWritten, ScalarsWritten] using h

theorem checkGeneralShape_eq_none_iff (s : State) :
    checkGeneralShape s = none ↔ s.gwin.val.toNat ≤ wmax ∧ s.glen.val.toNat ≤ wmax := by
  refine ⟨fun h => ?_, fun ⟨hgwin, hglen⟩ => checkGeneralShape_eq_none hgwin hglen⟩
  unfold checkGeneralShape at h
  split_ifs at h
  omega

theorem checkSizes_eq_none_iff (s : State) :
    checkSizes s = none ↔ s.bussize.val.toNat ≤ 2 ^ s.params.aw ∧ s.srclen.val.toNat ≤ 2 ^ s.params.aw := by
  refine ⟨fun h => ?_, fun ⟨hbus, hsrc⟩ => checkSizes_eq_none hbus hsrc⟩
  unfold checkSizes at h
  split_ifs at h
  omega

theorem checkEntriesWritten_eq_none_iff (s : State) : checkEntriesWritten s = none ↔ RequiredEntriesWritten s := by
  refine ⟨fun h => ?_, checkEntriesWritten_eq_none⟩
  simpa [RequiredEntriesWritten] using (forall_mem_requiredEntries s _).1 (List.findSome?_eq_none_iff.1 h)

theorem checkIndexRange_eq_none_iff (s : State) : checkIndexRange s = none ↔ RequiredEntriesInRange s := by
  refine ⟨fun h => ?_, checkIndexRange_eq_none⟩
  simpa [RequiredEntriesInRange] using (forall_mem_requiredEntries s _).1 (List.findSome?_eq_none_iff.1 h)

theorem orderingInRange_decodeOrdering {s : State} (h : RequiredEntriesInRange s) :
    orderingInRange 8 s.decodeOrdering = true := by
  obtain ⟨-, hdord, -⟩ := h
  refine orderingInRange_iff.2 fun e he => ?_
  obtain ⟨k, hk, rfl⟩ := List.mem_iff_getElem.1 he
  have hk8 : k < 8 := length_decodeOrdering s ▸ hk
  have hentry := getElem?_decodeOrdering s ⟨k, hk8⟩
  rw [List.getElem?_eq_getElem hk] at hentry
  rw [Option.some.inj hentry]
  exact hdord ⟨k, hk8⟩

/-- Check 6 asks what R129 asks of a self-inverse ordering, once the entries are in range. -/
theorem checkSelfInverse_eq_none_iff {s : State} (hrange : RequiredEntriesInRange s) :
    checkSelfInverse s = none ↔ (s.dshare = true → orderingSelfInverse s.decodeOrdering = true) := by
  cases hshare : s.dshare with
  | false => simp [checkSelfInverse, hshare]
  | true =>
    have hentry (j : Nat) := getElem?_decodeOrdering_eq_some_iff s
      (show 7 - s.decodeOrdering.getD j 0 < 8 by omega) (7 - j)
    rw [checkSelfInverse, if_pos hshare, List.findSome?_eq_none_iff, orderingSelfInverse, length_decodeOrdering,
      orderingInRange_decodeOrdering hrange]
    simp [hentry, -List.getD_eq_getElem?_getD]

/-- `COMMIT` finds no defect exactly when the invariants of `RUN` hold (R248). -/
theorem configurationDefect_eq_none_iff (s : State) : configurationDefect s = none ↔ Committed s := by
  have hchecks : configurationDefect s = none ↔ checkScalarsWritten s = none ∧ checkGeneralShape s = none ∧
      checkSizes s = none ∧ checkEntriesWritten s = none ∧ checkIndexRange s = none ∧ checkSelfInverse s = none := by
    simp [configurationDefect, List.findSome?_eq_none_iff]
  rw [hchecks, checkScalarsWritten_eq_none_iff, checkGeneralShape_eq_none_iff, checkSizes_eq_none_iff,
    checkEntriesWritten_eq_none_iff, checkIndexRange_eq_none_iff, Committed, and_assoc, and_assoc]
  exact and_congr_right fun _ => and_congr_right fun _ => and_congr_right fun _ => and_congr_right fun _ =>
    and_congr_right fun _ => and_congr_right fun _ => and_congr_right checkSelfInverse_eq_none_iff

/-! ### The sub-codes -/

/-- The `info` of a `ConfigurationError`, with a sub-code of R262. -/
def ConfigInfo (info : Word) : Prop :=
  ∃ sub reg k value, info = configInfo sub reg k value ∧ 1 ≤ sub.toNat ∧ sub.toNat ≤ 5

/-- The sub-code stands in bits 31:24 (R262). -/
theorem extractLsb'_configInfo (sub reg k value : BitVec 8) :
    (configInfo sub reg k value).extractLsb' 24 8 = sub :=
  BitVec.extractLsb'_append_eq_left

theorem configInfo_mk {sub : BitVec 8} (reg k value : BitVec 8) (hlo : 1 ≤ sub.toNat) (hhi : sub.toNat ≤ 5) :
    ConfigInfo (configInfo sub reg k value) := ⟨sub, reg, k, value, rfl, hlo, hhi⟩

/-- A check that goes through a list reports what one of its elements reports. -/
theorem configInfo_of_firstFailure {α : Type} {l : List α} {passes : α → Prop} [DecidablePred passes]
    {report : α → Word} {info : Word} (h : l.findSome? (fun a => if passes a then none else some (report a)) = some info)
    (hreport : ∀ a, ConfigInfo (report a)) : ConfigInfo info := by
  obtain ⟨a, -, ha⟩ := List.exists_of_findSome?_eq_some h
  split at ha
  · cases ha
  · cases ha
    exact hreport a

/-- Every defect is reported with a sub-code from 1 to 5. -/
theorem configInfo_of_defect {s : State} {info : Word} (h : configurationDefect s = some info) : ConfigInfo info := by
  obtain ⟨check, hmem, rfl⟩ := List.exists_of_findSome?_eq_some h
  simp only [List.mem_cons, List.not_mem_nil, or_false] at hmem
  rcases hmem with hc | hc | hc | hc | hc | hc
  · exact configInfo_of_firstFailure hc.symm fun r => configInfo_mk _ _ _ (by decide) (by decide)
  · unfold checkGeneralShape at hc
    split_ifs at hc <;> cases hc <;> exact configInfo_mk _ _ _ (by decide) (by decide)
  · unfold checkSizes at hc
    split_ifs at hc <;> cases hc <;> exact configInfo_mk _ _ _ (by decide) (by decide)
  · exact configInfo_of_firstFailure hc.symm fun e => configInfo_mk _ _ _ (by decide) (by decide)
  · exact configInfo_of_firstFailure hc.symm fun e => configInfo_mk _ _ _ (by decide) (by decide)
  · unfold checkSelfInverse at hc
    split at hc
    · exact configInfo_of_firstFailure hc.symm fun j => configInfo_mk _ _ _ (by decide) (by decide)
    · cases hc

/-! ### The statement -/

/-- A good configuration makes `COMMIT` change the phase and nothing else. -/
theorem exec_commit_of_committed {s : State} (hphase : s.phase = .config) (h : Committed s) :
    exec .commit s = .next { s with phase := .run } := by
  rw [exec_of_legal hphase, ownRule, (configurationDefect_eq_none_iff s).2 h]

/-- Settles O47: `COMMIT` raises exactly on a defect, and there is one exactly when an invariant of `RUN` fails. -/
theorem commitAcceptsExactlyGoodConfigurations : Obligations.CommitAcceptsExactlyGoodConfigurations := by
  refine fun s hphase => ⟨fun h => ?good, fun h => ?bad⟩
  case good =>
    exact ⟨_, exec_commit_of_committed hphase h, rfl, rfl, rfl, rfl, sameConfiguration_refl s, rfl,
      sameModelFields_refl s, fun m a => readByte_setPhase s m a .run⟩
  case bad =>
    obtain ⟨info, hinfo⟩ := Option.ne_none_iff_exists'.1 (mt (configurationDefect_eq_none_iff s).1 h)
    obtain ⟨t, ht, hmem, hfault⟩ := exec_commit_of_defect hphase hinfo
    obtain ⟨sub, reg, k, value, rfl, hlo, hhi⟩ := configInfo_of_defect hinfo
    refine ⟨t, _, ht, hfault, hmem, ?_⟩
    rw [extractLsb'_configInfo]
    exact ⟨hlo, hhi⟩

end Sys2Proof.Machine

/-! How a transaction is taken: the command word that reaches `exec`, the accesses that cannot be presented, and that
every presented transaction ends (00_scope.md R11, 30_encoding.md R96, R97, 70_reset_and_hazards.md R313). -/

namespace Sys2Proof.Machine

/-! ### Taking a command word (R96) -/

/-- `RegWrite(0x00, w)` is `Cmd(w)` (R11, R28): the port of `CMD` carries every 64-bit word. -/
theorem runTxn_regWrite_cmd (w : CmdWord) (s : State) : runTxn (.regWrite 0 w) s = runCmd w s :=
  runTxn_presented (if_pos w.isLt)

theorem runTxn_cmd (w : CmdWord) (s : State) : runTxn (.cmd w) s = runCmd w s := rfl

theorem runTxn_commandWord {x : Txn} {w : CmdWord} (hx : x = .cmd w ∨ x = .regWrite 0 w) (s : State) :
    runTxn x s = runCmd w s := by
  rcases hx with rfl | rfl
  · exact runTxn_cmd w s
  · exact runTxn_regWrite_cmd w s

/-- A word that decodes runs its command, which `FAULT` ignores as it does every word. -/
theorem runCmd_of_decode {w : CmdWord} {i : Instr} (h : decode w = .ok i) (s : State) : runCmd w s = exec i s := by
  by_cases hf : s.phase = .fault
  · rw [runCmd_fault w hf, exec_of_fault hf]
  · rw [runCmd, if_neg hf, h]

/-- A word that matches no row raises sub-code 1 (R97). -/
theorem runCmd_malformed {w : CmdWord} {e : DecodeError} {s : State} (hf : s.phase ≠ .fault) (h : decode w = .error e) :
    runCmd w s = .next (s.raise (opField w) (illegalCommand 1 (w.extractLsb' 0 24))) := by
  rw [runCmd, if_neg hf, h]

/-- A word that matches no row is refused by the decoder. -/
theorem decode_error_of_no_row {w : CmdWord} (h : ∀ i : Instr, w &&& (rowOf i).mask ≠ (rowOf i).pattern) :
    ∃ e, decode w = .error e := by
  cases hw : decode w with
  | error e => exact ⟨e, rfl⟩
  | ok i => exact absurd ((and_mask_eq_pattern_iff w i).2 (fieldsMatch_of_decode hw)) (h i)

theorem step_of_pending {s : State} {x : Txn} {rest : List Txn} (h : s.pending = x :: rest) :
    step s = runTxn x { s with pending := rest } := takeTxn_cons h

/-! ### The port widths (R28, R29, R31) -/

/-- The port of an ordering entry carries a byte (R31). -/
theorem portWidth_entry {p : Params} {n : BitVec 8}
    (h : (0x20 ≤ n.toNat ∧ n.toNat < 0x20 + p.aw) ∨ (0x40 ≤ n.toNat ∧ n.toNat < 0x50) ∨
      (0x60 ≤ n.toNat ∧ n.toNat < 0x80)) : portWidth p n = 8 := by
  have hreg : regOfNumber p n = entryOfNumber p n := by
    rw [regOfNumber, scalarOfNumber_eq_none (by omega), Option.none_or]
  rw [portWidth, hreg, entryOfNumber]
  by_cases haord : 0x20 ≤ n.toNat ∧ n.toNat < 0x20 + p.aw
  · rw [dif_pos haord]
  rw [dif_neg haord]
  by_cases hdord : 0x40 ≤ n.toNat ∧ n.toNat < 0x48
  · rw [dif_pos hdord]
  rw [dif_neg hdord]
  by_cases heord : 0x48 ≤ n.toNat ∧ n.toNat < 0x50
  · rw [dif_pos heord]
  · rw [dif_neg heord, dif_pos (by omega)]

/-- A transaction that cannot be presented stops the model (log 8). -/
theorem runTxn_unpresentable {x : Txn} {s : State} {f : Fault} (h : presentationFault s.params x = some f) :
    runTxn x s = .fault f := by
  rw [runTxn, h]

/-! ### Every command ends (R313) -/

theorem completes_exec (i : Instr) (s : State) : Completes (exec i s) := by
  by_cases hf : s.phase = .fault
  · exact ⟨_, exec_of_fault hf⟩
  by_cases hp : s.phase = legalPhase i
  · exact ⟨_, exec_of_legal hp⟩
  · exact ⟨_, exec_of_illegal hf hp⟩

theorem completes_runCmd (w : CmdWord) (s : State) : Completes (runCmd w s) := by
  by_cases hf : s.phase = .fault
  · exact ⟨_, runCmd_fault w hf⟩
  cases hw : decode w with
  | error e => exact ⟨_, runCmd_malformed hf hw⟩
  | ok i => exact runCmd_of_decode hw s ▸ completes_exec i s

theorem completes_runRegWrite (n : BitVec 8) (v : BitVec 64) (s : State) : Completes (runRegWrite n v s) := by
  by_cases hn : n = 0
  · subst hn
    exact completes_runCmd v s
  by_cases hf : s.phase = .fault
  · exact ⟨_, runRegWrite_fault v hn hf⟩
  by_cases hw : ∃ r, regOfNumber s.params n = some r ∧ r.isConfig = true ∧ s.phase = .config
  · obtain ⟨r, hr, hc, hphase⟩ := hw
    exact ⟨_, runRegWrite_config v hphase hr hc⟩
  · refine ⟨_, runRegWrite_rejected v hn hf ?_⟩
    cases hphase : s.phase with
    | run => exact .inl rfl
    | fault => exact absurd hphase hf
    | config => exact .inr fun r hr => Bool.eq_false_iff.2 fun hc => hw ⟨r, hr, hc, hphase⟩

/-! ### The statements -/

/-- Settles O5: both transactions that carry a command word run it. -/
theorem stepRunsTheDecodedCommand : Obligations.StepRunsTheDecodedCommand := by
  refine ⟨fun s w rest i hpending hw => ⟨by cases i <;> rfl, ?_⟩, fun s => takeTxn_nil⟩
  obtain ⟨x, hx, hnext⟩ : ∃ x, (x = Txn.cmd w ∨ x = .regWrite 0 w) ∧ s.pending = x :: rest := by
    rcases hpending with h | h
    · exact ⟨_, .inl rfl, h⟩
    · exact ⟨_, .inr rfl, h⟩
  rw [step_of_pending hnext, runTxn_commandWord hx, runCmd_of_decode hw]

/-- Settles O6: a word that matches no row does not decode. -/
theorem malformedCommandRaises : Obligations.MalformedCommandRaises := by
  intro s w x hx hf hrow
  obtain ⟨e, he⟩ := decode_error_of_no_row hrow
  exact ⟨_, (runTxn_commandWord hx s).trans (runCmd_malformed hf he), faultedFrom_raise s _ _, sameMemory_raise s _ _⟩

/-- Settles O7: the phase gate raises before the command's own rule is reached. -/
theorem wrongPhaseCommandRaises : Obligations.WrongPhaseCommandRaises := by
  intro i s hf hp
  refine ⟨_, exec_of_illegal hf hp, ?_, sameMemory_raise s _ _⟩
  rw [← illegalCommand_number_info]
  exact faultedFrom_raise s _ _

/-- Settles O13: the widths by the register map, the stops by the test of what can be presented. -/
theorem unpresentableTransactionsStop : Obligations.UnpresentableTransactionsStop := by
  refine ⟨fun p => ⟨rfl, rfl, rfl, rfl, rfl, rfl, rfl, rfl, fun n => portWidth_entry⟩, fun s => ⟨?_, ?_, ?_⟩⟩
  · exact fun m a b ha => runTxn_unpresentable (if_neg ha.not_gt)
  · exact fun m a ha => runTxn_unpresentable (if_neg ha.not_gt)
  · exact fun n v hv => runTxn_unpresentable (if_neg hv.not_gt)

/-- Settles O56: each transaction's own rule answers a next state in every phase. -/
theorem everyCommandEnds : Obligations.EveryCommandEnds := by
  refine ⟨completes_exec, fun x s hp hread => ?_⟩
  rw [runTxn_of_presentable hp]
  cases x with
  | regWrite n v => exact completes_runRegWrite n v s
  | regRead n => exact absurd rfl (hread n)
  | memWrite m a b =>
    by_cases hf : s.phase = .fault
    · exact ⟨_, runMemWrite_fault m a b hf⟩
    · exact ⟨_, if_neg hf⟩
  | memRead m a => exact ⟨_, rfl⟩
  | cmd w => exact completes_runCmd w s
  | reset => exact ⟨_, rfl⟩

end Sys2Proof.Machine

/-! What one step can do, said once: the effects a command's own rule can have (R96 step 4), the effects a transaction can
have, and from these the transitions of the phase, the frames, and the invariant (10_state.md R25, 60_exceptions.md
R271, 45_control.md R248). -/

namespace Sys2Proof.Machine

/-! ### Frames in a row -/

theorem sameRegisters_refl (s : State) : SameRegisters s s := by
  simp [SameRegisters, SameButResult, SameConfiguration, SameStatus, SameModelFields]

theorem SameConfiguration.trans {s t u : State} (h : SameConfiguration s t) (h' : SameConfiguration t u) :
    SameConfiguration s u := by
  simp_all [SameConfiguration]

theorem SameRegisters.trans {s t u : State} (h : SameRegisters s t) (h' : SameRegisters t u) : SameRegisters s u := by
  simp_all [SameRegisters, SameButResult, SameConfiguration, SameStatus, SameModelFields]

theorem SameRegisters.configuration {s t : State} (h : SameRegisters s t) : SameConfiguration s t := by
  obtain ⟨⟨hconf, -, -⟩, -⟩ := h
  exact hconf

theorem SameRegisters.status {s t : State} (h : SameRegisters s t) : SameStatus s t := by
  obtain ⟨⟨-, hstatus, -⟩, -⟩ := h
  exact hstatus

theorem SameRegisters.params {s t : State} (h : SameRegisters s t) : t.params = s.params := by
  obtain ⟨⟨-, -, hparams, -⟩, -⟩ := h
  exact hparams

theorem sameConfiguration_raise (s : State) (op : BitVec 8) (r : Raise) : SameConfiguration s (s.raise op r) := by
  simp [SameConfiguration]

/-! ### The effects of a command's own rule -/

/-- The codes of R261 that the block itself raises. -/
def BlockError (e : ErrCode) : Prop := e ≠ .none ∧ e ≠ .loadError ∧ e ≠ .saveError

/-- The end of what a command may write in a memory: the sweeps stop at `SRCLEN` (R200, R201), the colour steps fill
their memories (R217, R222). -/
def writeLimit (s : State) (m : MemId) : Nat := if m = .dst then s.srclen.val.toNat else memSize s.params m

/-- `t` is `s` after block writes below the limits, and nothing else. -/
inductive Written (s : State) : State → Prop where
  | refl : Written s s
  | write {t : State} {m : MemId} {lo : Nat} {bs : List Byte} (before : Written s t)
      (fits : lo + bs.length ≤ writeLimit s m) : Written s (t.writeBytes m lo bs)

theorem Written.sameRegisters {s t : State} (h : Written s t) : SameRegisters s t := by
  induction h with
  | refl => exact sameRegisters_refl s
  | write _ _ ih => exact ih.trans (sameRegisters_writeBytes _ _ _ _)

theorem written_writeBytes {s : State} {m : MemId} {lo : Nat} {bs : List Byte} (h : lo + bs.length ≤ writeLimit s m) :
    Written s (s.writeBytes m lo bs) := .write .refl h

/-- Everything a command's own rule can do in its phase. -/
inductive RuleEffect (s : State) : Instr → State → Prop where
  | entersRun (good : configurationDefect s = none) : RuleEffect s .commit { s with phase := .run }
  | raises {i : Instr} {op : BitVec 8} {r : Raise} (err : BlockError r.err) : RuleEffect s i (s.raise op r)
  | returns {i : Instr} {v : Word} (legal : legalPhase i = .run) : RuleEffect s i (s.setResult v)
  | writes {i : Instr} {t : State} (legal : legalPhase i = .run) (written : Written s t) : RuleEffect s i t
  | sweepRaises {i : Instr} {op : BitVec 8} {r : Raise} (sweeps : i = .decsw ∨ i = .reenc) (err : BlockError r.err) :
      RuleEffect s i ((s.writeBytes .dst 0 (unspecifiedDst s op)).raise op r)

theorem blockError_of_fetchThrough {s : State} {o : List Nat} {la : Word} {r : Raise}
    (h : fetchThrough s o la = .error r) : BlockError r.err := by
  rcases fetchThrough_error h with ⟨-, rfl⟩ | ⟨-, -, rfl⟩ <;> simp [BlockError]

/-- What a sweep raises is what some index raises (R204). -/
theorem path_error_of_sweepBytes {path : Word → Except Raise Byte} {r : Raise} {n i : Nat}
    (h : sweepBytes path i n = .error r) : ∃ la, path la = .error r := by
  induction n generalizing i with
  | zero => cases h
  | succ n ih =>
    unfold sweepBytes at h
    split at h
    · next hpath =>
      cases h
      exact ⟨_, hpath⟩
    · split at h
      · next hrest =>
        cases h
        exact ih hrest
      · cases h

/-- `DECODE` and `ENCODE` raise or return a byte (R146, R147). -/
theorem ruleEffect_returnByte {s : State} {i : Instr} (hi : legalPhase i = .run) (op : BitVec 8) (o : List Nat)
    (la : Word) : RuleEffect s i (returnByte s op (fetchThrough s o la)) := by
  cases h : fetchThrough s o la with
  | ok b => exact .returns hi
  | error r => exact .raises (blockError_of_fetchThrough h)

/-- The sweeps write `DST` below `SRCLEN`, and may raise (R200, R201, R204). -/
theorem ruleEffect_sweep {s : State} {i : Instr} (hi : i = .decsw ∨ i = .reenc) (op : BitVec 8) (o : List Nat) :
    RuleEffect s i (sweep s op (fetchThrough s o)) := by
  have hlegal : legalPhase i = .run := by rcases hi with rfl | rfl <;> rfl
  rcases sweep_cases s op (fetchThrough s o) with ⟨bs, hbs, h⟩ | ⟨r, hr, h⟩
  · rw [h]
    exact .writes hlegal (written_writeBytes (by simp [writeLimit, sweepBytes_length hbs]))
  · rw [h]
    obtain ⟨la, hla⟩ := path_error_of_sweepBytes hr
    exact .sweepRaises hi (blockError_of_fetchThrough hla)

theorem written_delinearize {s t : State} (h : Written s t) : Written s (delinearize t) :=
  .write h (by simp [writeLimit, memSize])

theorem written_narrowing {s t : State} (h : Written s t) : Written s (narrowing t) := by
  unfold narrowing
  split
  · exact .write (.write h (by simp [writeLimit, memSize, csamples])) (by simp [writeLimit, memSize, csamples])
  · exact h

theorem written_resplit {s t : State} (h : Written s t) : Written s (resplit t) :=
  .write h (by simp [writeLimit, memSize, csamples, cphysBytes])

theorem ruleEffect_ownRule (s : State) (i : Instr) : RuleEffect s i (ownRule s i) := by
  cases i with
  | commit =>
    rw [ownRule]
    cases h : configurationDefect s with
    | none => exact .entersRun h
    | some info => exact .raises (by simp [BlockError])
  | permute sel val =>
    rw [ownRule]
    split
    · exact .raises (by simp [BlockError, illegalCommand])
    · exact .returns rfl
  | decode la => exact ruleEffect_returnByte rfl _ _ la
  | encode la => exact ruleEffect_returnByte rfl _ _ la
  | decsw => exact ruleEffect_sweep (.inl rfl) _ _
  | reenc => exact ruleEffect_sweep (.inr rfl) _ _
  | cdelin => exact .writes rfl (written_delinearize .refl)
  | cnarrow => exact .writes rfl (written_narrowing .refl)
  | csplit => exact .writes rfl (written_resplit .refl)
  | crepack => exact .writes rfl (written_resplit (written_narrowing (written_delinearize .refl)))

/-- No command changes a configuration register (R248). -/
theorem RuleEffect.sameConfiguration {s t : State} {i : Instr} (h : RuleEffect s i t) : SameConfiguration s t := by
  cases h with
  | entersRun => exact sameConfiguration_refl s
  | raises => exact sameConfiguration_raise s _ _
  | returns => exact (sameButResult_setResult s _).1
  | writes _ written => exact written.sameRegisters.configuration
  | sweepRaises => exact (sameRegisters_writeBytes s _ _ _).configuration.trans (sameConfiguration_raise _ _ _)

/-! ### The effects of a transaction -/

/-- Everything a transaction that answers a next state can do. -/
inductive TxnEffect (s : State) : Txn → State → Prop where
  | ignored {x : Txn} : TxnEffect s x s
  | replies {x : Txn} {y : Reply} : TxnEffect s x (s.reply y)
  | rejects {x : Txn} {op sub : BitVec 8} {detail : BitVec 24} (phase : s.phase ≠ .fault) :
      TxnEffect s x (s.raise op (illegalCommand sub detail))
  | writesRegister {n : BitVec 8} {v : BitVec 64} {r : RegId} (phase : s.phase = .config)
      (reg : regOfNumber s.params n = some r) (fits : v.toNat < 2 ^ portWidth s.params n) :
      TxnEffect s (.regWrite n v) (s.writeReg r v)
  | writesByte {m : MemId} {a : Nat} {b : Byte} (inside : a < memSize s.params m) :
      TxnEffect s (.memWrite m a b) (s.writeBytes m a [b])
  | runs {x : Txn} {w : CmdWord} {i : Instr} {t : State} (word : x = .cmd w ∨ x = .regWrite 0 w)
      (decoded : decode w = .ok i) (phase : s.phase = legalPhase i) (rule : RuleEffect s i t) : TxnEffect s x t
  | resets : TxnEffect s .reset s.doReset

theorem txnEffect_of_runCmd {x : Txn} {w : CmdWord} {s t : State} (hx : x = .cmd w ∨ x = .regWrite 0 w)
    (h : runCmd w s = .next t) : TxnEffect s x t := by
  by_cases hf : s.phase = .fault
  · cases (runCmd_fault w hf).symm.trans h
    exact .ignored
  cases hw : decode w with
  | error e =>
    cases (runCmd_malformed hf hw).symm.trans h
    exact .rejects hf
  | ok i =>
    rw [runCmd_of_decode hw] at h
    rcases exec_cases h with ⟨-, rfl⟩ | ⟨-, -, rfl⟩ | ⟨hp, rfl⟩
    · exact .ignored
    · exact .rejects hf
    · exact .runs hx hw hp (ruleEffect_ownRule s i)

theorem txnEffect_of_runRegWrite {n : BitVec 8} {v : BitVec 64} {s t : State}
    (hfits : v.toNat < 2 ^ portWidth s.params n) (h : runRegWrite n v s = .next t) : TxnEffect s (.regWrite n v) t := by
  by_cases hn : n = 0
  · subst hn
    exact txnEffect_of_runCmd (.inr rfl) h
  by_cases hf : s.phase = .fault
  · cases (runRegWrite_fault v hn hf).symm.trans h
    exact .ignored
  cases hr : regOfNumber s.params n with
  | none =>
    rw [runRegWrite_noRegister v hr, if_neg hf] at h
    cases h
    exact .rejects hf
  | some r =>
    rw [runRegWrite_register v hr (ne_cmd_of_number_ne_zero hn hr), if_neg hf] at h
    split at h
    · next hopen =>
      cases h
      exact .writesRegister hopen.2 hr hfits
    · cases h
      exact .rejects hf

theorem txnEffect_of_runRegRead {x : Txn} {n : BitVec 8} {s t : State} (h : runRegRead n s = .next t) :
    TxnEffect s x t := by
  by_cases hnone : regOfNumber s.params n = none ∨ n = 0
  · rw [runRegRead_noRegister hnone, readNoRegister] at h
    split at h
    · cases h
    · next hf =>
      cases h
      exact .rejects hf
  · obtain ⟨hreg, hn⟩ := not_or.1 hnone
    obtain ⟨r, hr⟩ := Option.ne_none_iff_exists'.1 hreg
    rw [runRegRead_register hr (ne_cmd_of_number_ne_zero hn hr)] at h
    cases hv : s.readReg r with
    | none =>
      rw [hv] at h
      cases h
    | some v =>
      rw [hv] at h
      cases h
      exact .replies

/-- A transaction that answers a next state has one of the effects. -/
theorem txnEffect_of_runTxn {x : Txn} {s t : State} (h : runTxn x s = .next t) : TxnEffect s x t := by
  have hpresented : presentationFault s.params x = none := by
    cases hp : presentationFault s.params x with
    | none => rfl
    | some f => exact absurd ((runTxn_unpresentable hp).symm.trans h) nofun
  rw [runTxn_presented hpresented] at h
  cases x with
  | regWrite n v =>
    exact txnEffect_of_runRegWrite ((presentable_regWrite_iff _ _ _).1 (Option.isNone_iff_eq_none.2 hpresented)) h
  | regRead n => exact txnEffect_of_runRegRead h
  | memWrite m a b =>
    have hinside : a < memSize s.params m := by
      by_contra hout
      exact absurd ((if_neg hout).symm.trans hpresented) nofun
    by_cases hf : s.phase = .fault
    · cases (runMemWrite_fault m a b hf).symm.trans h
      exact .ignored
    · cases (if_neg hf).symm.trans h
      exact .writesByte hinside
  | memRead m a =>
    cases h
    exact .replies
  | cmd w => exact txnEffect_of_runCmd (.inl rfl) h
  | reset =>
    cases h
    exact .resets

/-- A step with nothing pending does nothing; any other has the effect of the next transaction. -/
theorem step_cases {s t : State} (h : step s = .next t) :
    t = s ∨ ∃ x rest, s.pending = x :: rest ∧ TxnEffect { s with pending := rest } x t := by
  cases hp : s.pending with
  | nil =>
    cases (takeTxn_nil hp).symm.trans h
    exact .inl rfl
  | cons x rest => exact .inr ⟨x, rest, rfl, txnEffect_of_runTxn ((step_of_pending hp).symm.trans h)⟩

/-! ### The transitions of the phase and the frames -/

/-- The transitions of R25, by effect. -/
theorem TxnEffect.phase_cases {s t : State} {x : Txn} (h : TxnEffect s x t) :
    t.phase = s.phase ∨
      (s.phase = .config ∧ t.phase = .run ∧ Committed s ∧
        ∃ w, (x = .cmd w ∨ x = .regWrite 0 w) ∧ decode w = .ok .commit) ∨
      (s.phase ≠ .fault ∧ t.phase = .fault ∧ t.err ≠ .none) ∨ (t.phase = .config ∧ x = .reset) := by
  cases h with
  | ignored => exact .inl rfl
  | replies => exact .inl rfl
  | rejects phase => exact .inr (.inr (.inl ⟨phase, rfl, nofun⟩))
  | writesRegister => exact .inl (sameStatus_writeReg s _ _).1
  | writesByte => exact .inl (writeBytes_phase s _ _ _)
  | resets => exact .inr (.inr (.inr ⟨rfl, rfl⟩))
  | @runs _ w i _ word decoded phase rule =>
    have hf : s.phase ≠ .fault := by
      rw [phase]
      cases i <;> simp [legalPhase]
    cases rule with
    | entersRun good =>
      exact .inr (.inl ⟨phase, rfl, (configurationDefect_eq_none_iff s).1 good, w, word, decoded⟩)
    | raises err => exact .inr (.inr (.inl ⟨hf, rfl, err.1⟩))
    | returns => exact .inl rfl
    | writes _ written => exact .inl written.sameRegisters.status.1
    | sweepRaises _ err => exact .inr (.inr (.inl ⟨hf, rfl, err.1⟩))

/-- Settles O53: the effects of the next transaction, one by one. -/
theorem phaseTransitions : Obligations.PhaseTransitions := by
  intro s t h
  rcases step_cases h with rfl | ⟨x, rest, hpending, heffect⟩
  · exact .inl rfl
  rcases heffect.phase_cases with hsame | ⟨hconfig, hrun, hgood, w, hx, hw⟩ | hfault | ⟨hconfig, rfl⟩
  · exact .inl hsame
  · refine .inr (.inl ⟨hconfig, hrun, hgood, w, rest, ?_, hw⟩)
    rcases hx with rfl | rfl
    · exact .inl hpending
    · exact .inr hpending
  · exact .inr (.inr (.inl hfault))
  · exact .inr (.inr (.inr ⟨hconfig, rest, hpending⟩))

/-- Settles O54: only `RegWrite` in `CONFIG` and `Reset` have an effect on a configuration register. -/
theorem configurationIsFrozenOutsideConfig : Obligations.ConfigurationIsFrozenOutsideConfig := by
  intro s t x hphase hx h
  cases txnEffect_of_runTxn h with
  | ignored => exact sameConfiguration_refl s
  | replies => exact sameConfiguration_reply s _
  | rejects => exact sameConfiguration_raise s _ _
  | writesRegister phase => exact absurd phase hphase
  | writesByte => exact (sameRegisters_writeBytes s _ _ _).configuration
  | runs _ _ _ rule => exact rule.sameConfiguration
  | resets => exact absurd rfl hx

/-- A fault entry alone is precise (R271). -/
theorem precise_raise (s : State) (op : BitVec 8) (r : Raise) (touched : MemId → Nat → Prop) :
    SameConfiguration s (s.raise op r) ∧ (s.raise op r).result = s.result ∧ SameModelFields s (s.raise op r) ∧
      SameMemoryOutside touched s (s.raise op r) :=
  ⟨sameConfiguration_raise s op r, rfl, ⟨rfl, rfl, rfl, rfl⟩, fun m a _ => sameMemory_raise s op r m a⟩

/-- Settles O55: of the effects a command can have, those that end in `FAULT` are fault entry, alone or after the sweep's
unspecified bytes. -/
theorem faultsArePrecise : Obligations.FaultsArePrecise := by
  intro i s t hf h ht
  rcases exec_cases h with ⟨hfault, -⟩ | ⟨-, -, rfl⟩ | ⟨-, rfl⟩
  · exact absurd hfault hf
  · exact precise_raise s _ _ _
  have hrule := ruleEffect_ownRule s i
  generalize ownRule s i = t at hrule ht
  cases hrule with
  | entersRun => cases ht
  | raises => exact precise_raise s _ _ _
  | returns => exact absurd ht hf
  | writes _ written => exact absurd (written.sameRegisters.status.1.symm.trans ht) hf
  | @sweepRaises _ op r sweeps =>
    refine ⟨(sameRegisters_writeBytes s _ _ _).configuration.trans (sameConfiguration_raise _ _ _), by simp,
      by simp [SameModelFields], fun m a ha => ?_⟩
    rw [readByte_raise]
    refine sameMemoryOutside_writeBytes s .dst 0 _ m a fun hin => ha ⟨sweeps, hin.1, ?_⟩
    simpa using hin.2

end Sys2Proof.Machine

/-! The invariant: what it looks at, that `Reset` establishes it, and that each effect of a transaction keeps it; the
fields of `STATUS` and the `fault` output (10_state.md R21 to R35, 60_exceptions.md R276, 70_reset_and_hazards.md R301). -/

namespace Sys2Proof.Machine

/-! ### What each clause looks at -/

/-- The invariants of `RUN` are about the configuration and AW. -/
theorem committed_of_same {s t : State} (hconf : SameConfiguration s t) (hparams : t.params = s.params)
    (h : Committed s) : Committed t := by
  obtain ⟨hamask, hbussize, hsrclen, hdctl, hcmode, hgwin, hglen, haord, hdord, heord, hgord⟩ := hconf
  simpa only [Committed, ScalarsWritten, RequiredEntriesWritten, RequiredEntriesInRange, State.dshare,
    State.decodeOrdering, hamask, hbussize, hsrclen, hdctl, hcmode, hgwin, hglen, haord, hdord, heord, hgord,
    hparams] using h

theorem widthsKept_of_same {s t : State} (hconf : SameConfiguration s t) (hparams : t.params = s.params)
    (h : WidthsKept s) : WidthsKept t := by
  obtain ⟨hamask, hbussize, hsrclen, -, -, -, -, haord, -⟩ := hconf
  simpa only [WidthsKept, hamask, hbussize, hsrclen, haord, hparams] using h

theorem memoryInside_of_same {s t : State} {m : MemId} (hmem : t.mem m = s.mem m) (hparams : t.params = s.params)
    (h : MemoryInside s m) : MemoryInside t m := by
  simpa only [MemoryInside, hmem, hparams] using h

/-- A block write inside its memory keeps every memory inside its size. -/
theorem memoryInside_writeBytes {s : State} {m : MemId} {lo : Nat} {bs : List Byte} (h : ∀ m, MemoryInside s m)
    (hfits : lo + bs.length ≤ memSize s.params m) (m' : MemId) : MemoryInside (s.writeBytes m lo bs) m' := by
  by_cases hm : m' = m
  · subst hm
    obtain ⟨hwf, hinside⟩ := h m'
    rw [MemoryInside, State.writeBytes, mem_setMem_self, setMem_params]
    refine ⟨Memory.wf_writeBlock hwf lo bs, fun c hc => ?_⟩
    rcases Memory.address_of_mem_writeBlock hc with hold | hnew
    · exact hinside c hold
    · omega
  · exact memoryInside_of_same (mem_setMem_of_ne s _ hm) (by simp) (h m')

/-- The writes of a command stay inside the memories, when `SRCLEN` is one that `COMMIT` accepts (R243). -/
theorem memoryInside_of_written {s t : State} (h : ∀ m, MemoryInside s m) (hsrc : s.srclen.val.toNat ≤ 2 ^ s.params.aw)
    (hw : Written s t) : ∀ m, MemoryInside t m := by
  induction hw with
  | refl => exact h
  | @write t m lo bs before fits ih =>
    refine memoryInside_writeBytes ih ?_
    rw [before.sameRegisters.params]
    refine fits.trans ?_
    unfold writeLimit
    split
    · next hm => exact hm ▸ hsrc
    · exact le_rfl

/-- A change of memory and of `RESULT` alone keeps the invariant, `RESULT` in `RUN` only (R21, R96). -/
theorem invariant_of_same {s t : State} (h : Invariant s) (hconf : SameConfiguration s t) (hstatus : SameStatus s t)
    (hparams : t.params = s.params) (hresult : t.result = s.result ∨ s.phase = .run) (hmem : ∀ m, MemoryInside t m) :
    Invariant t := by
  obtain ⟨hfault, hload, hsave, hclear, hconfig, hrun, hwidths, -⟩ := h
  obtain ⟨hphase, herr, hfop, hfinfo⟩ := hstatus
  refine ⟨by rw [hphase, herr]; exact hfault, herr ▸ hload, herr ▸ hsave, by rw [herr, hfop, hfinfo]; exact hclear,
    fun hc => ?_, fun hr => committed_of_same hconf hparams (hrun (hphase ▸ hr)), widthsKept_of_same hconf hparams hwidths,
    hmem⟩
  rw [hphase] at hc
  rcases hresult with hres | hr
  · rw [hres]
    exact hconfig hc
  · exact absurd (hc.symm.trans hr) nofun

theorem Invariant.widthsKept {s : State} (h : Invariant s) : WidthsKept s := by
  obtain ⟨-, -, -, -, -, -, hwidths, -⟩ := h
  exact hwidths

theorem Invariant.memoryInside {s : State} (h : Invariant s) : ∀ m, MemoryInside s m := by
  obtain ⟨-, -, -, -, -, -, -, hmem⟩ := h
  exact hmem

theorem Invariant.committed {s : State} (h : Invariant s) (hrun : s.phase = .run) : Committed s := by
  obtain ⟨-, -, -, -, -, hcommitted, -, -⟩ := h
  exact hcommitted hrun

theorem Committed.srclen_le {s : State} (h : Committed s) : s.srclen.val.toNat ≤ 2 ^ s.params.aw := by
  obtain ⟨-, -, -, -, hsrc, -⟩ := h
  exact hsrc

/-! ### Each effect keeps the invariant -/

/-- The state of reset meets the invariant, for all parameters and every reset count. -/
theorem invariant_afterReset (p : Params) (epoch : Nat) : Invariant (State.afterReset p epoch) := by
  refine ⟨by simp [State.afterReset], nofun, nofun, fun _ => ⟨rfl, rfl⟩, fun _ => rfl, nofun, ?_, fun m => ?_⟩
  · simp [WidthsKept, State.afterReset, Reg.unwritten]
  · cases m <;> exact ⟨rfl, nofun⟩

theorem invariant_setPending {s : State} (h : Invariant s) (q : List Txn) : Invariant { s with pending := q } :=
  invariant_of_same h (sameConfiguration_refl s) ⟨rfl, rfl, rfl, rfl⟩ rfl (.inl rfl)
    fun m => memoryInside_of_same (mem_setPending s m q) rfl (h.memoryInside m)

theorem invariant_reply {s : State} (h : Invariant s) (y : Reply) : Invariant (s.reply y) :=
  invariant_of_same h (sameConfiguration_reply s y) (sameStatus_reply s y) rfl (.inl rfl)
    fun m => memoryInside_of_same (mem_reply s m y) rfl (h.memoryInside m)

/-- The reset keeps the host's fields, of which the invariant says nothing (log 12). -/
theorem invariant_doReset (s : State) : Invariant s.doReset :=
  invariant_of_same (invariant_setPending (invariant_afterReset s.params (s.epoch + 1)) s.pending)
    (sameConfiguration_refl _) ⟨rfl, rfl, rfl, rfl⟩ rfl (.inl rfl) fun m => by cases m <;> exact ⟨rfl, nofun⟩

/-- Fault entry with an error of the block (R270). -/
theorem invariant_raise {s : State} {r : Raise} (hwidths : WidthsKept s) (hmem : ∀ m, MemoryInside s m)
    (herr : BlockError r.err) (op : BitVec 8) : Invariant (s.raise op r) := by
  obtain ⟨hnone, hload, hsave⟩ := herr
  exact ⟨by simpa using hnone, hload, hsave, fun h => absurd h hnone, nofun, nofun,
    widthsKept_of_same (sameConfiguration_raise s op r) rfl hwidths,
    fun m => memoryInside_of_same (mem_raise s m op r) rfl (hmem m)⟩

theorem invariant_written {s t : State} (h : Invariant s) (hrun : s.phase = .run) (hw : Written s t) : Invariant t := by
  obtain ⟨⟨hconf, hstatus, hparams, -⟩, hresult⟩ := hw.sameRegisters
  exact invariant_of_same h hconf hstatus hparams (.inl hresult)
    (memoryInside_of_written h.memoryInside (h.committed hrun).srclen_le hw)

/-- A value that the port carried fits its register, and an entry of `AORD` that the port reached exists (R29, R31). -/
theorem widthsKept_writeReg {s : State} {n : BitVec 8} {r : RegId} {v : BitVec 64} (h : WidthsKept s)
    (hr : regOfNumber s.params n = some r) (hfits : v.toNat < 2 ^ portWidth s.params n) :
    WidthsKept (s.writeReg r v) := by
  have hport {w : Nat} (hw : v.toNat < 2 ^ w) : (v.setWidth 32).toNat < 2 ^ w := by
    rw [BitVec.toNat_setWidth]
    exact (Nat.mod_le _ _).trans_lt hw
  obtain ⟨hamask, hbussize, hsrclen, haord⟩ := h
  rw [portWidth, hr] at hfits
  cases r with
  | amask => exact ⟨hport hfits, hbussize, hsrclen, haord⟩
  | bussize => exact ⟨hamask, hport hfits, hsrclen, haord⟩
  | srclen => exact ⟨hamask, hbussize, hport hfits, haord⟩
  | aord k =>
    have hk : k.val < s.params.aw := (regOfNumber_sound hr).2 k rfl
    refine ⟨hamask, hbussize, hsrclen, fun j hj => ?_⟩
    have hne : k.val ≠ j.val := by
      change s.params.aw ≤ j.val at hj
      omega
    simpa [State.writeReg, hne] using haord j hj
  | _ => exact ⟨hamask, hbussize, hsrclen, haord⟩

/-- A register write in `CONFIG` changes the configuration, which the invariant leaves free there but for its widths. -/
theorem invariant_writeReg {s : State} {n : BitVec 8} {r : RegId} {v : BitVec 64} (h : Invariant s)
    (hphase : s.phase = .config) (hr : regOfNumber s.params n = some r)
    (hfits : v.toNat < 2 ^ portWidth s.params n) : Invariant (s.writeReg r v) := by
  have hwidths := widthsKept_writeReg h.widthsKept hr hfits
  obtain ⟨hp, herr, hfop, hfinfo, hresult, hparams, -, -, -, hmem⟩ := writeReg_keeps s r v
  have hinside (m : MemId) := memoryInside_of_same (hmem m) hparams (h.memoryInside m)
  obtain ⟨hfault, hload, hsave, hclear, hconfig, -⟩ := h
  refine ⟨by rw [hp, herr]; exact hfault, herr ▸ hload, herr ▸ hsave, by rw [herr, hfop, hfinfo]; exact hclear,
    fun _ => hresult ▸ hconfig hphase, fun hrun => ?_, hwidths, hinside⟩
  exact absurd (hp.symm.trans hrun) (by simp [hphase])

/-- `COMMIT` of a configuration without a defect (R248). -/
theorem invariant_entersRun {s : State} (h : Invariant s) (hphase : s.phase = .config) (hgood : Committed s) :
    Invariant { s with phase := .run } := by
  have hinside (m : MemId) := memoryInside_of_same (mem_setPhase s m .run) rfl (h.memoryInside m)
  obtain ⟨hfault, hload, hsave, hclear, -, -, hwidths, -⟩ := h
  have hnone : s.err = .none := by
    by_contra herr
    exact absurd (hphase.symm.trans (hfault.2 herr)) nofun
  exact ⟨by simp [hnone], hload, hsave, hclear, nofun, fun _ => hgood, hwidths, hinside⟩

theorem invariant_ruleEffect {s t : State} {i : Instr} (h : Invariant s) (hphase : s.phase = legalPhase i)
    (hrule : RuleEffect s i t) : Invariant t := by
  cases hrule with
  | entersRun good => exact invariant_entersRun h hphase ((configurationDefect_eq_none_iff s).1 good)
  | raises err => exact invariant_raise h.widthsKept h.memoryInside err _
  | returns legal =>
    exact invariant_of_same h (sameButResult_setResult s _).1 ⟨rfl, rfl, rfl, rfl⟩ rfl (.inr (hphase.trans legal))
      fun m => memoryInside_of_same (mem_setResult s m _) rfl (h.memoryInside m)
  | writes legal written => exact invariant_written h (hphase.trans legal) written
  | @sweepRaises _ op _ sweeps err =>
    have hrun : s.phase = .run := by
      rw [hphase]
      rcases sweeps with rfl | rfl <;> rfl
    have hwritten := invariant_written h hrun
      (written_writeBytes (m := .dst) (lo := 0) (bs := unspecifiedDst s op) (by simp [writeLimit]))
    exact invariant_raise hwritten.widthsKept hwritten.memoryInside err _

theorem invariant_txnEffect {s t : State} {x : Txn} (h : Invariant s) (heffect : TxnEffect s x t) : Invariant t := by
  cases heffect with
  | ignored => exact h
  | replies => exact invariant_reply h _
  | rejects => exact invariant_raise h.widthsKept h.memoryInside (by simp [BlockError, illegalCommand]) _
  | writesRegister phase reg fits => exact invariant_writeReg h phase reg fits
  | writesByte inside =>
    obtain ⟨⟨hconf, hstatus, hparams, -⟩, hresult⟩ := sameRegisters_writeBytes s _ _ _
    exact invariant_of_same h hconf hstatus hparams (.inl hresult) (memoryInside_writeBytes h.memoryInside inside)
  | runs _ _ phase rule => exact invariant_ruleEffect h phase rule
  | resets => exact invariant_doReset s

/-- Settles O19: each effect of the next transaction keeps the invariant. -/
theorem stepKeepsTheInvariant : Obligations.StepKeepsTheInvariant := by
  intro s t h hstep
  rcases step_cases hstep with rfl | ⟨x, rest, -, heffect⟩
  · exact h
  · exact invariant_txnEffect (invariant_setPending h rest) heffect

/-- Settles O18: no register is written, no byte is written, and there is no error. -/
theorem resetMeetsTheInvariant : Obligations.ResetMeetsTheInvariant := invariant_afterReset Params.default 0

/-- Settles O17: the state of reset for the parameters there are, with the transactions still to come (log 12). -/
theorem resetFromAnyState : Obligations.ResetFromAnyState := by
  intro s
  refine ⟨s.doReset, rfl, rfl, statusWord_afterReset s.params (s.epoch + 1), rfl, fun r hstatus hfinfo => ?_,
    fun m => by cases m <;> rfl, rfl, rfl⟩
  have hread : s.doReset.readReg r = (State.afterReset s.params (s.epoch + 1)).readReg r := by cases r <;> rfl
  rw [hread, readReg_afterReset _ _ hstatus hfinfo]

/-! ### The `STATUS` word and the `fault` output -/

/-- Settles O14: the word is its fields side by side, the most significant first. -/
theorem statusWordFields : Obligations.StatusWordFields := by
  refine ⟨rfl, rfl, rfl, rfl, rfl, rfl, rfl, rfl, rfl, rfl, fun s => ⟨?phase, ?rvalid, ?reserved, ?err, ?fop, ?high⟩⟩
  case rvalid =>
    simp only [State.statusWord, BitVec.getLsbD_append]
    simp [State.rvalid]
  case reserved =>
    simp only [State.statusWord, BitVec.getLsbD_append]
    simp
  case phase =>
    rw [State.statusWord, BitVec.extractLsb'_append_eq_of_add_le (by decide),
      BitVec.extractLsb'_append_eq_of_add_le (by decide), BitVec.extractLsb'_append_eq_of_add_le (by decide),
      BitVec.extractLsb'_append_eq_of_add_le (by decide), BitVec.extractLsb'_append_eq_right]
  case err =>
    rw [State.statusWord, BitVec.extractLsb'_append_eq_of_add_le (by decide),
      BitVec.extractLsb'_append_eq_of_add_le (by decide)]
    exact BitVec.extractLsb'_append_eq_left
  case fop =>
    rw [State.statusWord, BitVec.extractLsb'_append_eq_of_add_le (by decide)]
    exact BitVec.extractLsb'_append_eq_left
  case high => exact BitVec.extractLsb'_append_eq_left

theorem faultOutput_eq_true_iff (s : State) : s.faultOutput = true ↔ s.err ≠ .none := by
  rw [ne_eq, ← faultOutput_eq_false_iff, Bool.not_eq_false]

/-- Settles O15: the output follows `ERR`, which in `FAULT` only `Reset` changes. -/
theorem faultOutputIsHighUntilReset : Obligations.FaultOutputIsHighUntilReset := by
  intro s h
  have hiff : s.faultOutput = true ↔ s.phase = .fault := (faultOutput_eq_true_iff s).trans h.1.symm
  refine ⟨hiff, fun x t hhigh hx hrun => ?_, fun t hreset => ?_⟩
  · obtain ⟨ys, rfl⟩ := runTxn_fault_next (hiff.1 hhigh) hx hrun
    exact hhigh
  · cases hreset
    exact (faultOutput_eq_false_iff _).2 rfl

end Sys2Proof.Machine

/-! `PERMUTE`, `DECODE`, `ENCODE` and the two sweeps bit by bit, and the range checks (40_permute.md R124, 41_scheme.md
R141 to R152, 43_reencode.md R200 to R205). -/

namespace Sys2Proof.Machine

/-! ### The orderings of a state by entry -/

/-- The entries of a slot are its first `n` registers (R31). -/
theorem getElem?_orderingOf {N : Nat} (v : Vector (Reg 8) N) {n : Nat} (k : Fin N) (hk : k.val < n) :
    (orderingOf v.toList n)[k.val]? = some v[k].val.toNat := by
  simp [orderingOf, hk]

theorem length_orderingOf {N : Nat} (v : Vector (Reg 8) N) (n : Nat) : (orderingOf v.toList n).length = min n N := by
  simp [orderingOf]

@[simp] theorem length_encodeOrdering (s : State) : s.encodeOrdering.length = 8 := by
  unfold State.encodeOrdering
  split
  · exact length_decodeOrdering s
  · exact length_orderingOf s.eord 8

/-- The encode direction's entries: `DORD` when `DSHARE` = 1, else `EORD` (R145). -/
theorem getElem?_encodeOrdering (s : State) (k : Fin 8) :
    s.encodeOrdering[k.val]? = some (if s.dshare then s.dord[k].val.toNat else s.eord[k].val.toNat) := by
  unfold State.encodeOrdering
  split
  · exact getElem?_decodeOrdering s k
  · exact getElem?_orderingOf s.eord k k.isLt

/-- No ordering a `PERMUTE` can select is longer than `RESULT` (R6, R31). -/
theorem length_slotOperand_le (s : State) (sel : Slot) : (s.slotOperand sel).2.length ≤ 32 := by
  have haw := aw_le s.params
  cases sel with
  | aord => exact (length_addressOrdering s).trans_le (by omega)
  | dord => exact (length_decodeOrdering s).trans_le (by decide)
  | eord => exact (length_orderingOf s.eord 8).trans_le (by decide)
  | gord => exact (length_orderingOf s.gord s.glen.val.toNat).trans_le (min_le_right _ _)

/-- Settles O25: every slot's ordering is the values of its first registers. -/
theorem slotOperands : Obligations.SlotOperands := by
  refine fun s => ⟨rfl, length_addressOrdering s, fun k hk => getElem?_orderingOf s.aord k hk, rfl,
    length_decodeOrdering s, getElem?_decodeOrdering s, rfl, length_orderingOf s.eord 8,
    fun k => getElem?_orderingOf s.eord k k.isLt, rfl, fun hlen => ?_,
    fun k hk => getElem?_orderingOf s.gord k hk⟩
  exact (length_orderingOf s.gord _).trans (min_eq_left hlen)

/-! ### `PERMUTE` -/

/-- Bit n − 1 − k of the result is the bit that entry k names, a 0 bit for an entry at or above the input width
(R7, R124; log 11). -/
theorem getLsbD_permuteResult (s : State) (sel : Slot) (val : Word) {k : Nat}
    (hk : k < (s.slotOperand sel).2.length) :
    (permuteResult s sel val).getLsbD ((s.slotOperand sel).2.length - 1 - k) =
      (decide ((s.slotOperand sel).2[k] < (s.slotOperand sel).1) && val.getLsbD (s.slotOperand sel).2[k]) := by
  have hlen := length_slotOperand_le s sel
  have hbit : (s.slotOperand sel).2.length - 1 - k < 32 := by omega
  rw [permuteResult, getLsbD_permuteTo, decide_eq_true hbit, Bool.true_and, getLsbD_permute_sourceBit _ (by omega),
    sourceBit_reflect hk, BitVec.getLsbD_setWidth]

/-- The bits above the ordering's length are 0 (R121). -/
theorem getLsbD_permuteTo_of_length_le {w n : Nat} (v : BitVec w) {o : List Nat} {p : Nat} (hp : o.length ≤ p) :
    (permuteTo n v o).getLsbD p = false := by
  rw [getLsbD_permuteTo, BitVec.getLsbD_of_ge _ _ hp, Bool.and_false]

/-- Settles O26: the command's own rule has two branches, and only one of them raises. -/
theorem permuteCommand : Obligations.PermuteCommand := by
  intro s sel val hrun
  have hrule : exec (.permute sel val) s = .next (ownRule s (.permute sel val)) := exec_of_legal hrun
  rw [ownRule] at hrule
  constructor
  · intro hfree
    rw [if_neg hfree] at hrule
    exact ⟨_, hrule, rfl, fun k hk => getLsbD_permuteResult s sel val hk,
      fun p hp => getLsbD_permuteTo_of_length_le _ hp, sameButResult_setResult s _, sameMemory_setResult s _⟩
  · intro hraise
    rw [if_pos hraise] at hrule
    exact ⟨_, hrule, faultedFrom_raise s _ _, sameMemory_raise s _ _⟩

/-! ### The address path -/

/-- Settles O27: entry k of `AORD` is the source of bit AW − 1 − k of the address. -/
theorem scrambledAddressBits : Obligations.ScrambledAddressBits := by
  refine fun s la => ⟨physicalAddress_lt s la, fun k hk hentry => ?_⟩
  have hlen := length_addressOrdering s
  have hkl : k.val < s.addressOrdering.length := hlen.symm ▸ hk
  have hsource : sourceBit s.addressOrdering (s.params.aw - 1 - k.val) = s.aord[k].val.toNat := by
    rw [← hlen, sourceBit_reflect hkl]
    exact (List.getElem_eq_iff hkl).2 (getElem?_orderingOf s.aord k hk)
  rw [physicalAddress, BitVec.testBit_toNat, getLsbD_permute_sourceBit _ (by omega), hsource, ← BitVec.setWidth_xor,
    BitVec.getLsbD_setWidth, decide_eq_true hentry, Bool.true_and]

/-- An address at or above `BUSSIZE` is refused, whatever its scrambled address (R141). -/
theorem not_pathAccepts_of_bussize_le {s : State} {la : Word} (h : s.bussize.val.toNat ≤ la.toNat) :
    ¬ PathAccepts s la := fun ha => absurd ha.1 h.not_gt

/-- What `DECODE` and `ENCODE` raise for an address that a range check refuses (R264). -/
theorem faultedFrom_returnByte {s : State} {la : Word} (h : ¬ PathAccepts s la) (op : BitVec 8) (o : List Nat) :
    FaultedFrom s (returnByte s op (fetchThrough s o la))
        (if s.bussize.val.toNat ≤ la.toNat then .outOfRangeError else .physRangeError) op la ∧
      SameMemory s (returnByte s op (fetchThrough s o la)) := by
  rw [fetchThrough_of_not_accepts h o]
  exact ⟨faultedFrom_raise s op _, sameMemory_raise s op _⟩

/-- Settles O30: the logical check is the first. -/
theorem logicalRangeCheck : Obligations.LogicalRangeCheck := by
  intro s la hrun hout
  have hfault := faultedFrom_returnByte (not_pathAccepts_of_bussize_le hout)
  simp only [if_pos hout] at hfault
  exact ⟨⟨_, exec_of_legal hrun, hfault 0x20 s.decodeOrdering⟩,
    ⟨_, exec_of_legal hrun, hfault 0x21 s.encodeOrdering⟩⟩

/-- Settles O31: the physical check comes next, and an address of AW bits is below 2^AW. -/
theorem physicalRangeCheck : Obligations.PhysicalRangeCheck := by
  refine fun s la hrun hin => ⟨fun hout => ?_, fun hfull => (physicalAddress_lt s la).trans_eq hfull.symm⟩
  have hfault := faultedFrom_returnByte (s := s) (la := la) fun ha => absurd ha.2 hout.not_gt
  simp only [if_neg hin.not_ge] at hfault
  exact ⟨⟨_, exec_of_legal hrun, hfault 0x20 s.decodeOrdering⟩,
    ⟨_, exec_of_legal hrun, hfault 0x21 s.encodeOrdering⟩⟩

/-! ### The byte through a data ordering -/

/-- Entry k of a data ordering is the source of bit 7 − k (R120, R145). -/
theorem getLsbD_permuteTo_entry {o : List Nat} (hlen : o.length = 8) {k : Fin 8} {e : Nat} (he : o[k.val]? = some e)
    (v : Byte) : (permuteTo 8 v o).getLsbD (7 - k.val) = v.getLsbD e := by
  have hk : k.val < o.length := k.isLt.trans_eq hlen.symm
  have hsource : sourceBit o (7 - k.val) = e := by
    have hreflect := sourceBit_reflect hk
    rw [hlen] at hreflect
    exact hreflect.trans ((List.getElem_eq_iff hk).2 he)
  rw [getLsbD_permuteTo_sourceBit v hlen (by omega), hsource]

/-- What `DECODE` and `ENCODE` leave when both range checks pass, for the command's own data ordering (R146, R147). -/
theorem exec_fetch_of_accepts {s : State} {i : Instr} {la : Word} {op : BitVec 8} {o : List Nat} {e : Fin 8 → Nat}
    (hrun : s.phase = legalPhase i) (ha : PathAccepts s la) (hrule : ownRule s i = returnByte s op (fetchThrough s o la))
    (hlen : o.length = 8) (he : ∀ k : Fin 8, o[k.val]? = some (e k)) :
    ∃ t, exec i s = .next t ∧ t.result.written = true ∧
      (∀ k : Fin 8, t.result.val.getLsbD (7 - k.val) =
        (s.readByte .src (physicalAddress s la)).getLsbD (e k)) ∧
      (∀ p, 8 ≤ p → t.result.val.getLsbD p = false) ∧ SameButResult s t ∧ SameMemory s t := by
  refine ⟨_, exec_of_legal hrun, ?_⟩
  rw [hrule, returnByte_fetchThrough ha]
  refine ⟨rfl, fun k => ?_, fun p hp => ?_, sameButResult_setResult s _, sameMemory_setResult s _⟩
  · rw [setResult_result, BitVec.getLsbD_setWidth, decide_eq_true (show 7 - k.val < 32 by omega), Bool.true_and,
      getLsbD_permuteTo_entry hlen (he k)]
  · rw [setResult_result, BitVec.getLsbD_setWidth, BitVec.getLsbD_of_ge _ _ hp, Bool.and_false]

/-- Settles O28: the fetched byte goes through `DORD`. -/
theorem decodeCommand : Obligations.DecodeCommand := fun s _ hrun ha =>
  exec_fetch_of_accepts hrun ha rfl (length_decodeOrdering s) (getElem?_decodeOrdering s)

/-- Settles O29: the fetched byte goes through the encode ordering. -/
theorem encodeCommand : Obligations.EncodeCommand := fun s _ hrun ha =>
  exec_fetch_of_accepts hrun ha rfl (length_encodeOrdering s) (getElem?_encodeOrdering s)

/-! ### The scheme `no` (R152) -/

/-- The identity ordering gives its input, whatever name its length has. -/
theorem permute_identityOrdering_toNat {n : Nat} {o : List Nat} (ho : o = identityOrdering n) (v : BitVec n) :
    (permute v o).toNat = v.toNat := by
  subst ho
  apply Nat.eq_of_testBit_eq
  intro p
  rw [BitVec.testBit_toNat, BitVec.testBit_toNat]
  by_cases hp : p < n
  · rw [getLsbD_permute_sourceBit v (by simpa using hp), sourceBit_identityOrdering hp]
  · rw [BitVec.getLsbD_of_ge _ _ (by simpa using hp), BitVec.getLsbD_of_ge _ _ (by omega)]

/-- An identity address ordering with an empty mask does not move an address of the bus. -/
theorem physicalAddress_of_identity {s : State} (ho : s.addressOrdering = identityOrdering s.params.aw)
    (hmask : s.amask.val = 0) {la : Word} (hla : la.toNat < 2 ^ s.params.aw) : physicalAddress s la = la.toNat := by
  rw [physicalAddress, permute_identityOrdering_toNat ho, hmask, BitVec.ofNat_eq_ofNat, BitVec.setWidth_zero,
    BitVec.xor_zero, BitVec.toNat_setWidth, Nat.mod_eq_of_lt hla]

/-- Settles O33: neither the address nor the byte moves, and both range checks pass. -/
theorem schemeNoIsIdentity : Obligations.SchemeNoIsIdentity := by
  intro s ho hmask hd hshare hbus la hla hsrc
  have hpa := physicalAddress_of_identity ho hmask (hla.trans_le hbus)
  have hdec : decByte s la = .ok (s.readByte .src la.toNat) := by
    rw [decByte, fetchThrough_ok hla (hpa.trans_lt hsrc), hpa, hd]
    exact congrArg Except.ok (identityOrderingIsIdentity 8 _).1
  refine ⟨?_, hdec, ?_⟩
  · rw [scramble, if_neg hla.not_ge, if_neg (by omega), hpa]
  · rw [encByte, encodeOrdering_of_dshare hshare]
    exact hdec

/-! ### The sweeps -/

/-- What a sweep leaves when no index raises, for the command's own data ordering (R200, R201). -/
theorem written_gatheredBytes (s : State) {o : List Nat} {e : Fin 8 → Nat} (hlen : o.length = 8)
    (he : ∀ k : Fin 8, o[k.val]? = some (e k)) :
    (∀ i, i < s.srclen.val.toNat → ∀ k : Fin 8,
        ((s.writeBytes .dst 0 (gatheredBytes s o)).readByte .dst i).getLsbD (7 - k.val) =
          (s.readByte .src (physicalAddress s (BitVec.ofNat 32 i))).getLsbD (e k)) ∧
      SameRegisters s (s.writeBytes .dst 0 (gatheredBytes s o)) ∧
      SameMemoryOutside (fun m a => m = .dst ∧ a < s.srclen.val.toNat) s
        (s.writeBytes .dst 0 (gatheredBytes s o)) := by
  refine ⟨fun i hi k => ?_, sameRegisters_writeBytes s _ _ _, fun m a ha => ?_⟩
  · rw [readByte_writeBytes_gatheredBytes s o hi, getLsbD_permuteTo_entry hlen (he k)]
  · exact sameMemoryOutside_writeBytes s .dst 0 _ m a (by simpa [gatheredBytes] using ha)

/-- Settles O34: the sweep is one block write through the encode ordering. -/
theorem reencCommand : Obligations.ReencCommand := fun s hrun ha =>
  ⟨_, exec_reenc_of_accepts hrun ha, written_gatheredBytes s (length_encodeOrdering s) (getElem?_encodeOrdering s)⟩

/-- Settles O35: the sweep is one block write through `DORD`. -/
theorem decswCommand : Obligations.DecswCommand := fun s hrun ha =>
  ⟨_, exec_decsw_of_accepts hrun ha, written_gatheredBytes s (length_decodeOrdering s) (getElem?_decodeOrdering s)⟩

/-- A sweep in which every index is accepted stays in `RUN`. -/
theorem sweep_phase_of_accepts {s t : State} {c : Instr} (hrun : s.phase = .run) (hc : c = .reenc ∨ c = .decsw)
    (ha : ∀ i, i < s.srclen.val.toNat → PathAccepts s (BitVec.ofNat 32 i)) (h : exec c s = .next t) :
    t.phase = .run := by
  rcases hc with rfl | rfl
  · cases (exec_reenc_of_accepts hrun ha).symm.trans h
    simpa using hrun
  · cases (exec_decsw_of_accepts hrun ha).symm.trans h
    simpa using hrun

/-- A sweep that faults has a least index that a range check refuses (R204). -/
theorem exists_least_refused_of_sweep_fault {s t : State} {c : Instr} (hrun : s.phase = .run)
    (hc : c = .reenc ∨ c = .decsw) (h : exec c s = .next t) (hfault : t.phase = .fault) :
    ∃ k, k < s.srclen.val.toNat ∧ (∀ i, i < k → PathAccepts s (BitVec.ofNat 32 i)) ∧
      ¬ PathAccepts s (BitVec.ofNat 32 k) := by
  classical
  have hrefused : ∃ k, k < s.srclen.val.toNat ∧ ¬ PathAccepts s (BitVec.ofNat 32 k) := by
    by_contra hall
    push Not at hall
    exact absurd (hfault.symm.trans (sweep_phase_of_accepts hrun hc hall h)) nofun
  obtain ⟨hk, hnot⟩ := Nat.find_spec hrefused
  refine ⟨Nat.find hrefused, hk, fun i hi => ?_, hnot⟩
  by_contra hi'
  exact Nat.find_min hrefused hi ⟨hi.trans hk, hi'⟩

/-- Settles O37: the reported index is the least refused one; the indices below it are accepted, so it is at most
`BUSSIZE`. -/
theorem sweepErrorKinds : Obligations.SweepErrorKinds := by
  intro s t c hrun hc h hfault
  obtain ⟨k, hk, hbelow, hrefused⟩ := exists_least_refused_of_sweep_fault hrun hc h hfault
  obtain ⟨t', ht', ⟨-, herr, -, hinfo, -⟩, -⟩ := faultingSweepReportsTheLeastIndex s k hrun hk hbelow hrefused c hc
  obtain rfl : t' = t := Host.Outcome.next.inj (ht'.symm.trans h)
  have hindex := toNat_index_of_lt_srclen hk
  rw [hinfo, herr]
  by_cases hout : s.bussize.val.toNat ≤ k
  · have hle : k ≤ s.bussize.val.toNat := by
      by_contra hgt
      have hacc := (hbelow _ (by omega : s.bussize.val.toNat < k)).1
      rw [BitVec.ofNat_toNat, BitVec.setWidth_eq] at hacc
      exact lt_irrefl _ hacc
    have hkeq : k = s.bussize.val.toNat := le_antisymm hle hout
    refine .inl ⟨if_pos hout, by omega, ?_⟩
    rw [hkeq, BitVec.ofNat_toNat, BitVec.setWidth_eq]
  · refine .inr ⟨if_neg hout, by omega, by omega, ?_⟩
    by_contra hpa
    exact hrefused ⟨by omega, by omega⟩

end Sys2Proof.Machine

/-! The commands of the colour-plane unit: what each of the three steps leaves, byte by byte, and what it leaves
unchanged; the three together; and the round trip of an image (44_color.md R216 to R228). -/

namespace Sys2Proof.Machine

/-! ### Nibbles of a byte -/

theorem zero_append_low4 : ∀ b : Byte, (0#4 ++ low4 b : Byte) = b &&& 0x0F#8 := by decide
theorem zero_append_high4 : ∀ b : Byte, (0#4 ++ high4 b : Byte) = b >>> 4 := by decide
theorem low4_append_zero : ∀ b : Byte, (low4 b ++ 0#4 : Byte) = (b &&& 0x0F#8) <<< 4 := by decide
theorem high4_append_zero : ∀ b : Byte, (high4 b ++ 0#4 : Byte) = b &&& 0xF0#8 := by decide
theorem high4_append_low4 : ∀ b : Byte, (high4 b ++ low4 b : Byte) = b := by decide

/-- A byte is its two nibbles, each in its place. -/
theorem append_eq_or (h l : BitVec 4) : (h ++ l : Byte) = (0#4 ++ l : Byte) ||| (h ++ 0#4 : Byte) := by
  rw [BitVec.or_append, BitVec.zero_or, BitVec.or_zero]

theorem low4_zero_append : ∀ n : BitVec 4, low4 (0#4 ++ n) = n := by decide

/-- The sample is read from the nibble it was put in, for both values of `HP_LOW` (R228). -/
theorem highSample_highPlaneByte : ∀ (hp : Bool) (n : BitVec 4), highSample hp (highPlaneByte hp n) = n := by decide

/-- The entry's byte as R216 writes it. -/
theorem highSample_append_low4 (hp : Bool) (h l : Byte) :
    (highSample hp h ++ low4 l : Byte) =
      (l &&& 0x0F#8) ||| (if hp then (h &&& 0x0F#8) <<< 4 else h &&& 0xF0#8) := by
  rw [append_eq_or, zero_append_low4]
  cases hp with
  | false => exact congrArg _ (high4_append_zero h)
  | true => exact congrArg _ (low4_append_zero h)

/-- The high-plane byte as R222 writes it. -/
theorem highPlaneByte_high4 (hp : Bool) (b : Byte) :
    highPlaneByte hp (high4 b) = if hp then b >>> 4 else b &&& 0xF0#8 := by
  cases hp with
  | false => exact high4_append_zero b
  | true => exact zero_append_high4 b

/-! ### The frames of the three steps -/

theorem SameMemoryOutside.mono {touched touched' : MemId → Nat → Prop} {s t : State}
    (h : SameMemoryOutside touched s t) (hsub : ∀ m a, touched m a → touched' m a) : SameMemoryOutside touched' s t :=
  fun m a ha => h m a (mt (hsub m a) ha)

theorem SameMemoryOutside.trans {touched : MemId → Nat → Prop} {s t u : State} (h : SameMemoryOutside touched s t)
    (h' : SameMemoryOutside touched t u) : SameMemoryOutside touched s u :=
  fun m a ha => (h' m a ha).trans (h m a ha)

theorem sameMemoryOutside_delinearize (s : State) :
    SameMemoryOutside (fun m a => m = .cmb ∧ a < 256) s (delinearize s) :=
  (sameMemoryOutside_writeBytes s .cmb 0 _).mono fun m a ⟨hm, _, ha⟩ => ⟨hm, by simpa [csamples] using ha⟩

theorem readByte_narrowing_of_ne (s : State) {m : MemId} (hm : m ≠ .cmb) (a : Nat) :
    (narrowing s).readByte m a = s.readByte m a := by
  unfold narrowing
  split
  · rw [readByte_writeBytes_of_ne _ hm, readByte_writeBytes_of_ne _ hm]
  · rfl

theorem sameMemoryOutside_narrowing (s : State) :
    SameMemoryOutside (fun m a => m = .cmb ∧ NarrowedEntry a) s (narrowing s) := by
  intro m a ha
  by_cases hm : m = .cmb
  · subst hm
    rw [readByte_narrowing_cmb, if_neg fun hcleared => ha ⟨rfl, hcleared.2⟩]
  · exact readByte_narrowing_of_ne s hm a

theorem narrowing_of_wide {s : State} (h : s.narrow = false) : narrowing s = s :=
  if_neg (Bool.eq_false_iff.1 h)

theorem sameMemoryOutside_resplit (s : State) : SameMemoryOutside (fun m a => m = .cout ∧ a < 512) s (resplit s) :=
  (sameMemoryOutside_writeBytes s .cout 0 _).mono fun m a ⟨hm, _, ha⟩ => ⟨hm, by simpa [csamples] using ha⟩

theorem readByte_resplit_cmb (s : State) (i : Nat) : (resplit s).readByte .cmb i = s.readByte .cmb i :=
  readByte_writeBytes_of_ne s (by decide) _ _ i

/-! ### The commands in `RUN` -/

theorem eq_of_exec_cdelin {s t : State} (hrun : s.phase = .run) (h : exec .cdelin s = .next t) : t = delinearize s :=
  (Host.Outcome.next.inj ((exec_of_legal hrun).symm.trans h)).symm

theorem eq_of_exec_cnarrow {s t : State} (hrun : s.phase = .run) (h : exec .cnarrow s = .next t) : t = narrowing s :=
  (Host.Outcome.next.inj ((exec_of_legal hrun).symm.trans h)).symm

theorem eq_of_exec_csplit {s t : State} (hrun : s.phase = .run) (h : exec .csplit s = .next t) : t = resplit s :=
  (Host.Outcome.next.inj ((exec_of_legal hrun).symm.trans h)).symm

@[simp] theorem delinearize_phase (s : State) : (delinearize s).phase = s.phase := writeBytes_phase s _ _ _

@[simp] theorem narrowing_phase (s : State) : (narrowing s).phase = s.phase := (sameRegisters_narrowing s).status.1

/-- An entry depends on the physical index only (R217). -/
theorem combined_of_cphys_eq (s : State) {i j : Nat} (h : cphys i = cphys j) : combined s i = combined s j := by
  rw [combined, combined, h]

/-- Settles O40: every entry is the sample of its physical index, which ignores bits 6 and 7. -/
theorem cdelinCommand : Obligations.CdelinCommand := by
  refine fun s hrun => ⟨delinearize s, exec_of_legal hrun, fun i hi => ?_, fun i hi => ?_,
    sameRegisters_writeBytes s _ _ _, sameMemoryOutside_delinearize s⟩
  · rw [readByte_delinearize_cmb s hi, combined, highSample_append_low4]
    rfl
  · have hmask : i &&& 0x3F < 256 := Nat.and_le_left.trans_lt hi
    rw [readByte_delinearize_cmb s hi, readByte_delinearize_cmb s hmask,
      combined_of_cphys_eq s (cphys_and_mask i).symm]

/-- Settles O41: the cleared entries are the narrow mode's, and the wide mode writes nothing. -/
theorem cnarrowCommand : Obligations.CnarrowCommand := by
  refine fun s hrun => ⟨narrowing s, exec_of_legal hrun, sameRegisters_narrowing s, fun hn => ⟨fun i hi => ?_,
    sameMemoryOutside_narrowing s⟩, fun hw => ?_⟩
  · rw [readByte_narrowing_cmb, if_pos ⟨hn, hi⟩]
  · rw [narrowing_of_wide hw]
    exact sameMemory_refl s

/-- Settles O42: each plane's byte is a nibble of the entry. -/
theorem csplitCommand : Obligations.CsplitCommand := by
  refine fun s hrun => ⟨resplit s, exec_of_legal hrun, fun i hi => ⟨?_, ?_⟩, sameRegisters_writeBytes s _ _ _,
    sameMemoryOutside_resplit s⟩
  · rw [readByte_resplit_lowPlane s hi, lowPlaneOf, zero_append_low4]
  · rw [readByte_resplit_highPlane s hi, highPlaneOf, highPlaneByte_high4]

/-- Settles O43: each step leaves the phase, and the three steps' frames add up. -/
theorem crepackIsTheThreeSteps : Obligations.CrepackIsTheThreeSteps := by
  intro s hrun
  have hwritten := written_resplit (written_narrowing (written_delinearize (.refl (s := s))))
  have hrun1 : (delinearize s).phase = .run := (delinearize_phase s).trans hrun
  have hrun2 : (narrowing (delinearize s)).phase = .run := (narrowing_phase _).trans hrun1
  refine ⟨delinearize s, narrowing (delinearize s), resplit (narrowing (delinearize s)), exec_of_legal hrun,
    exec_of_legal hrun1, exec_of_legal hrun2, exec_of_legal hrun, hwritten.sameRegisters, ?_⟩
  have hfirst := (sameMemoryOutside_delinearize s).mono (touched' := fun m a => (m = .cmb ∧ a < 256) ∨
    (m = .cout ∧ a < 512)) fun _ _ h => .inl h
  have hsecond := (sameMemoryOutside_narrowing (delinearize s)).mono (touched' := fun m a => (m = .cmb ∧ a < 256) ∨
    (m = .cout ∧ a < 512)) fun _ _ ⟨hm, ha⟩ => .inl ⟨hm, by omega⟩
  exact hfirst.trans (hsecond.trans ((sameMemoryOutside_resplit _).mono fun _ _ h => .inr h))

/-! ### `CREPACK` and the bytes it looks at -/

theorem lowPlaneOf_congr {u u' : State} {i : Nat} (he : u'.readByte .cmb i = u.readByte .cmb i) :
    lowPlaneOf u' i = lowPlaneOf u i := by
  rw [lowPlaneOf, lowPlaneOf, he]

theorem highPlaneOf_congr {u u' : State} {i : Nat} (hp : u'.params.hpLow = u.params.hpLow)
    (he : u'.readByte .cmb i = u.readByte .cmb i) : highPlaneOf u' i = highPlaneOf u i := by
  rw [highPlaneOf, highPlaneOf, hp, he]

/-- Settles O44: the entries depend on the samples and the mode, and the image on the entries and `HP_LOW`. -/
theorem crepackDependsOnlyOnItsInputs : Obligations.CrepackDependsOnlyOnItsInputs := by
  intro s s' t t' hrun hrun' hp hnarrow hcin ht ht'
  obtain rfl := eq_of_exec_crepack hrun ht
  obtain rfl := eq_of_exec_crepack hrun' ht'
  have hentry (i : Nat) (hi : i < 256) :
      (narrowing (delinearize s')).readByte .cmb i = (narrowing (delinearize s)).readByte .cmb i := by
    rw [readByte_repacked_cmb s' hi, readByte_repacked_cmb s hi, hnarrow, combined_congr hp hcin]
  refine ⟨fun i hi => ?_, fun a ha => ?_⟩
  · rw [readByte_resplit_cmb, readByte_resplit_cmb, hentry i hi]
  · rcases Nat.lt_or_ge a 256 with hlow | hhigh
    · rw [readByte_resplit_lowPlane _ hlow, readByte_resplit_lowPlane _ hlow, lowPlaneOf_congr (hentry a hlow)]
    · obtain ⟨i, rfl⟩ := Nat.exists_eq_add_of_le' hhigh
      have hi : i < 256 := by omega
      rw [readByte_resplit_highPlane _ hi, readByte_resplit_highPlane _ hi,
        highPlaneOf_congr (by simpa using hp) (hentry i hi)]

/-! ### The round trip of an image (R225) -/

/-- Narrowing clears no entry that a physical index names. -/
theorem not_narrowedEntry_cphys (i : Nat) : ¬ NarrowedEntry (cphys i) := by
  have := cphys_mem_ranges i
  omega

/-- Feeding a split image back gives the entry of the physical index. -/
theorem combined_of_fed_back {s u : State} (hp : s.params.hpLow = u.params.hpLow)
    (hcin : ∀ a, a < 512 → s.readByte .cin a = (resplit u).readByte .cout a) (i : Nat) :
    combined s i = u.readByte .cmb (cphys i) := by
  have hlt : cphys i < 256 := by
    have := cphys_mem_ranges i
    omega
  rw [combined, hp, hcin _ (by omega), hcin _ (by omega), readByte_resplit_highPlane u hlt,
    readByte_resplit_lowPlane u hlt, highPlaneOf, highSample_highPlaneByte, lowPlaneOf, low4_zero_append,
    high4_append_low4]

/-- Settles O45: the image fed back carries the entries of the physical indices, which narrowing does not clear and
which delinearizing reads. -/
theorem repackRoundTrip : Obligations.RepackRoundTrip := by
  intro s t1 t2 t3 s' t4 hrun h1 h2 h3 hrun' hp hcin h4 i hi
  obtain rfl := eq_of_exec_cdelin hrun h1
  obtain rfl := eq_of_exec_cdelin hrun' h4
  have hstep2 : t2 = delinearize s ∨ t2 = narrowing (delinearize s) :=
    h2.imp_right (eq_of_exec_cnarrow (by simpa using hrun))
  have hrun2 : t2.phase = .run := by rcases hstep2 with rfl | rfl <;> simpa using hrun
  have hp2 : s'.params.hpLow = t2.params.hpLow := by rcases hstep2 with rfl | rfl <;> simpa using hp
  have hkept : t2.readByte .cmb (cphys i) = (delinearize s).readByte .cmb (cphys i) := by
    rcases hstep2 with rfl | rfl
    · rfl
    · rw [readByte_narrowing_cmb, if_neg fun hcleared => not_narrowedEntry_cphys i hcleared.2]
  obtain rfl := eq_of_exec_csplit hrun2 h3
  have hlt : cphys i < 256 := by
    have := cphys_mem_ranges i
    omega
  rw [readByte_delinearize_cmb s' hi, combined_of_fed_back hp2 hcin, hkept, readByte_delinearize_cmb s hlt,
    readByte_delinearize_cmb s hi, combined_of_cphys_eq s (cphys_cphys i)]

end Sys2Proof.Machine

/-! The host side: the walk of a bus's load slot by slot, the load and the save back of full files, and the exit signal of
a conversion run (42_host_layout.md R172 to R186, 60_exceptions.md R277). -/

namespace Sys2Proof.Machine

/-! ### Replacing the bytes of a buffer -/

@[simp] theorem length_overlay {buf bs : List Byte} {off : Nat} (h : off + bs.length ≤ buf.length) :
    (overlay buf off bs).length = buf.length := by
  simp [overlay]
  omega

/-- What an overlay does to each position: the bytes laid over, and nothing else. -/
theorem getElem?_overlay {buf bs : List Byte} {off : Nat} (h : off + bs.length ≤ buf.length) (p : Nat) :
    (overlay buf off bs)[p]? = if off ≤ p ∧ p < off + bs.length then bs[p - off]? else buf[p]? := by
  have htake : (buf.take off).length = off := by simp; omega
  unfold overlay
  by_cases hlo : p < off
  · rw [List.getElem?_append_left (by omega), List.getElem?_take_of_lt hlo, if_neg (by omega)]
  rw [List.getElem?_append_right (by omega), htake]
  by_cases hhi : p < off + bs.length
  · rw [List.getElem?_append_left (by omega), if_pos (by omega)]
  · rw [List.getElem?_append_right (by omega), List.getElem?_drop, if_neg (by omega)]
    congr 1
    omega

/-! ### A slot that loads -/

/-- `buf'` is `buf` with some bytes of the window at `off` replaced. -/
def SameOutsideWindow (off size : Nat) (buf buf' : List Byte) : Prop :=
  buf'.length = buf.length ∧ ∀ p, p < off ∨ off + size ≤ p → buf'[p]? = buf[p]?

/-- The window of slot number `k` in `buf'` is filled by the case of R174 that applies, an empty first slot keeping the
bytes of `buf`. -/
def WindowLoaded (files : List NamedFile) (ff : Option Nat) (b : Bus) (k : Nat) (slot : ChipSlot)
    (buf buf' : List Byte) : Prop :=
  ∀ j, j < b.chipSize →
    ((b.role = .programROM ∧ ff = some (k * b.chipSize)) → buf'[k * b.chipSize + j]? = some 0xFF#8) ∧
      (¬ (b.role = .programROM ∧ ff = some (k * b.chipSize)) →
        (slot ≠ "" →
          ∃ bs, files.lookup slot = some bs ∧ b.chipSize ≤ bs.length ∧ buf'[k * b.chipSize + j]? = bs[j]?) ∧
        (slot = "" → k = 0 → buf'[j]? = buf[j]?) ∧
        (slot = "" → 0 < k → buf'[k * b.chipSize + j]? = buf'[(k - 1) * b.chipSize + j]?))

/-- Bytes that are laid over a window fill it and touch no other byte. -/
theorem overlay_window {buf bs : List Byte} {off size : Nat} (hfits : off + size ≤ buf.length)
    (hlen : bs.length = size) :
    SameOutsideWindow off size buf (overlay buf off bs) ∧
      ∀ j, j < size → (overlay buf off bs)[off + j]? = bs[j]? := by
  subst hlen
  refine ⟨⟨length_overlay hfits, fun p hp => ?_⟩, fun j hj => ?_⟩
  · rw [getElem?_overlay hfits, if_neg (by omega)]
  · rw [getElem?_overlay hfits, if_pos (by omega), Nat.add_sub_cancel_left]

/-- The four cases of R174 in which a slot loads. -/
theorem loadSlot_cases {files : List NamedFile} {ff : Option Nat} {b : Bus} {off : Nat} {slot : ChipSlot}
    {buf buf' : List Byte} (h : loadSlot files ff b off slot buf = .ok buf') :
    ((b.role = .programROM ∧ ff = some off) ∧ buf' = overlay buf off (List.replicate b.chipSize 0xFF#8)) ∨
      ¬ (b.role = .programROM ∧ ff = some off) ∧
        ((slot ≠ "" ∧ ∃ bs, files.lookup slot = some bs ∧ b.chipSize ≤ bs.length ∧
            buf' = overlay buf off (bs.take b.chipSize)) ∨
          (slot = "" ∧ off = 0 ∧ buf' = buf) ∨
          (slot = "" ∧ off ≠ 0 ∧ buf' = overlay buf off ((buf.drop (off - b.chipSize)).take b.chipSize))) := by
  unfold loadSlot at h
  split at h
  case isTrue hreserved =>
    cases h
    exact .inl ⟨hreserved, rfl⟩
  case isFalse hfree =>
    refine .inr ⟨hfree, ?_⟩
    split at h
    case isTrue hname =>
      split at h
      · cases h
      next bs hbs =>
        split at h
        · cases h
        next hlong =>
          cases h
          exact .inl ⟨hname, bs, hbs, Nat.le_of_not_gt hlong, rfl⟩
    case isFalse hempty =>
      split at h
      case isTrue hzero =>
        cases h
        exact .inr (.inl ⟨not_not.1 hempty, hzero, rfl⟩)
      case isFalse hnonzero =>
        cases h
        exact .inr (.inr ⟨not_not.1 hempty, hnonzero, rfl⟩)

/-- What the load of one slot can do: fill its own window by its case, and touch no other byte (R174 to R178). -/
theorem loadSlot_ok {files : List NamedFile} {ff : Option Nat} {b : Bus} {k : Nat} {slot : ChipSlot}
    {buf buf' : List Byte} (hfits : k * b.chipSize + b.chipSize ≤ buf.length) (hsize : 0 < b.chipSize)
    (h : loadSlot files ff b (k * b.chipSize) slot buf = .ok buf') :
    SameOutsideWindow (k * b.chipSize) b.chipSize buf buf' ∧ WindowLoaded files ff b k slot buf buf' := by
  rcases loadSlot_cases h with ⟨hreserved, rfl⟩ | ⟨hfree, ⟨hname, bs, hbs, hlong, rfl⟩ | ⟨rfl, hzero, rfl⟩ |
    ⟨rfl, hnonzero, rfl⟩⟩
  case inl =>
    obtain ⟨hsame, hbyte⟩ := overlay_window hfits (bs := List.replicate b.chipSize 0xFF#8) (by simp)
    refine ⟨hsame, fun j hj => ⟨fun _ => ?_, fun hn => absurd hreserved hn⟩⟩
    rw [hbyte j hj, List.getElem?_replicate, if_pos hj]
  case inr.inl =>
    obtain ⟨hsame, hbyte⟩ := overlay_window hfits (bs := bs.take b.chipSize) (by simpa using hlong)
    refine ⟨hsame, fun j hj => ⟨fun hr => absurd hr hfree, fun _ => ⟨fun _ => ⟨bs, hbs, hlong, ?_⟩,
      fun he => absurd he hname, fun he => absurd he hname⟩⟩⟩
    rw [hbyte j hj, List.getElem?_take_of_lt hj]
  case inr.inr.inl =>
    have hk : k = 0 := (Nat.mul_eq_zero.1 hzero).resolve_right hsize.ne'
    exact ⟨⟨rfl, fun _ _ => rfl⟩, fun j hj => ⟨fun hr => absurd hr hfree, fun _ => ⟨fun hn => absurd rfl hn,
      fun _ _ => rfl, fun _ hpos => absurd hk hpos.ne'⟩⟩⟩
  case inr.inr.inr =>
    have hpos : 0 < k := Nat.pos_of_ne_zero fun hk => hnonzero (by rw [hk, Nat.zero_mul])
    have hprev : (k - 1) * b.chipSize + b.chipSize = k * b.chipSize := by
      rw [← Nat.succ_mul, Nat.succ_eq_add_one, Nat.sub_add_cancel hpos]
    rw [← hprev] at hfits ⊢
    obtain ⟨hsame, hbyte⟩ := overlay_window hfits
      (bs := (buf.drop ((k - 1) * b.chipSize + b.chipSize - b.chipSize)).take b.chipSize) (by simp; omega)
    refine ⟨hsame, fun j hj => ⟨fun hr => absurd (hprev ▸ hr) hfree, fun _ => ⟨fun hn => absurd rfl hn,
      fun _ hz => absurd hz hpos.ne', fun _ _ => ?_⟩⟩⟩
    have hcopied : ((buf.drop ((k - 1) * b.chipSize + b.chipSize - b.chipSize)).take b.chipSize)[j]? =
        buf[(k - 1) * b.chipSize + j]? := by
      rw [List.getElem?_take_of_lt hj, List.getElem?_drop, Nat.add_sub_cancel]
    rw [← hprev]
    exact (hbyte j hj).trans (hcopied.trans (hsame.2 _ (.inl (by omega))).symm)

/-! ### The walk over the slots -/

/-- A walk that loads keeps the buffer's length and the bytes before its first window, and fills every window; a later
slot's window lies after the earlier ones, so each stays as it was filled. -/
theorem loadSlots_ok {files : List NamedFile} {ff : Option Nat} {b : Bus} (hsize : 0 < b.chipSize)
    {slots : List ChipSlot} {k : Nat} {buf buf' : List Byte} (hfits : (k + slots.length) * b.chipSize ≤ buf.length)
    (h : loadSlots files ff b k slots buf = .ok buf') :
    buf'.length = buf.length ∧ (∀ p, p < k * b.chipSize → buf'[p]? = buf[p]?) ∧
      ∀ i slot, slots[i]? = some slot → WindowLoaded files ff b (k + i) slot buf buf' := by
  induction slots generalizing k buf with
  | nil =>
    cases h
    exact ⟨rfl, fun _ _ => rfl, fun i slot hi => by simp at hi⟩
  | cons slot rest ih =>
    rw [loadSlots] at h
    split at h
    · cases h
    next buf1 hslot =>
      have hlen : k + (slot :: rest).length = k + 1 + rest.length := by simp; omega
      have hfirst : k * b.chipSize + b.chipSize ≤ buf.length := by
        rw [← Nat.succ_mul]
        exact (Nat.mul_le_mul_right _ (by omega)).trans (hlen ▸ hfits)
      obtain ⟨⟨hlen1, hsame1⟩, hwin1⟩ := loadSlot_ok hfirst hsize hslot
      obtain ⟨hlen', hbelow, hwin⟩ := ih (hlen ▸ hlen1 ▸ hfits) h
      have hk : k * b.chipSize + b.chipSize = (k + 1) * b.chipSize := (Nat.succ_mul _ _).symm
      refine ⟨hlen'.trans hlen1, fun p hp => (hbelow p (by omega)).trans (hsame1 p (.inl hp)), fun i name hi => ?_⟩
      cases i with
      | zero =>
        cases hi
        intro j hj
        obtain ⟨hreserved, hother⟩ := hwin1 j hj
        have hhere := hbelow (k * b.chipSize + j) (by omega)
        rw [Nat.add_zero, hhere]
        refine ⟨hreserved, fun hn => ?_⟩
        obtain ⟨hfile, hzero, hdup⟩ := hother hn
        refine ⟨hfile, fun he hz => ?_, fun he hpos => ?_⟩
        · subst hz
          rw [← hzero he rfl]
          exact hbelow j (by omega)
        · have hprev : (k - 1) * b.chipSize ≤ k * b.chipSize := Nat.mul_le_mul_right _ (by omega)
          rw [hdup he hpos, hbelow ((k - 1) * b.chipSize + j) (by omega)]
      | succ i =>
        intro j hj
        obtain ⟨hreserved, hother⟩ := hwin i name hi j hj
        rw [show k + (i + 1) = k + 1 + i by omega]
        refine ⟨hreserved, fun hn => ?_⟩
        obtain ⟨hfile, -, hdup⟩ := hother hn
        exact ⟨hfile, fun _ hz => absurd hz (by omega), hdup⟩

/-- Every window of a bus that loads (R174). -/
theorem loadBus_ok {files : List NamedFile} {ff : Option Nat} {b : Bus} {buf : List Byte} (hsize : 0 < b.chipSize)
    (h : loadBus files ff b = .ok buf) :
    buf.length = b.chipSize * b.slots.length ∧
      ∀ k slot, b.slots[k]? = some slot →
        WindowLoaded files ff b k slot (List.replicate b.size 0#8) buf := by
  obtain ⟨hlen, -, hwin⟩ := loadSlots_ok hsize (by simp [Bus.size, Nat.mul_comm]) h
  refine ⟨by simpa [Bus.size] using hlen, fun k slot hk => ?_⟩
  simpa using hwin k slot hk

/-- Settles O57: the walk fills every window by its case, and the buffer it starts from is zero-filled. -/
theorem loadedBusWindows : Obligations.LoadedBusWindows := by
  intro files ff b buf hsize h
  obtain ⟨hlen, hwin⟩ := loadBus_ok hsize h
  refine ⟨hlen, fun k j hk hj => ?_⟩
  obtain ⟨slot, hslot⟩ : ∃ slot, b.slots[k]? = some slot := ⟨_, List.getElem?_eq_getElem hk⟩
  obtain ⟨hreserved, hother⟩ := hwin k slot hslot j hj
  refine ⟨hreserved, fun hn => ?_⟩
  obtain ⟨hfile, hzero, hdup⟩ := hother hn
  have hempty (he : b.slots[k]? = some "") : slot = "" := Option.some.inj (hslot.symm.trans he)
  refine ⟨fun name hname hne => ?_, fun he hz => ?_, fun he hpos => hdup (hempty he) hpos⟩
  · obtain rfl : slot = name := Option.some.inj (hslot.symm.trans hname)
    exact hfile hne
  · have hin : j < b.size := hj.trans_le (Nat.le_mul_of_pos_right _ (by omega))
    rw [hzero (hempty he) hz, List.getElem?_replicate, if_pos hin]

/-! ### A bus that fails to load -/

/-- The first slot of a walk from number `k` that fails is the one of the name (R177). -/
def FirstFailure (files : List NamedFile) (ff : Option Nat) (b : Bus) (k : Nat) (slots : List ChipSlot)
    (name : ChipSlot) : Prop :=
  ∃ i, slots[i]? = some name ∧ SlotFails files ff b ((k + i) * b.chipSize) name ∧
    ∀ j other, j < i → slots[j]? = some other → ¬ SlotFails files ff b ((k + j) * b.chipSize) other

theorem firstFailure_cons_of_fails {files : List NamedFile} {ff : Option Nat} {b : Bus} {k : Nat} {slot : ChipSlot}
    {rest : List ChipSlot} {name : ChipSlot} (hslot : SlotFails files ff b (k * b.chipSize) slot) :
    FirstFailure files ff b k (slot :: rest) name ↔ slot = name := by
  constructor
  · rintro ⟨i, hi, -, hbefore⟩
    cases i with
    | zero => exact Option.some.inj hi
    | succ i => exact absurd hslot (hbefore 0 slot (by omega) rfl)
  · rintro rfl
    exact ⟨0, rfl, hslot, fun j _ hj => absurd hj (by omega)⟩

theorem firstFailure_cons_of_loads {files : List NamedFile} {ff : Option Nat} {b : Bus} {k : Nat} {slot : ChipSlot}
    {rest : List ChipSlot} {name : ChipSlot} (hslot : ¬ SlotFails files ff b (k * b.chipSize) slot) :
    FirstFailure files ff b k (slot :: rest) name ↔ FirstFailure files ff b (k + 1) rest name := by
  have hshift (i : Nat) : k + (i + 1) = k + 1 + i := by omega
  constructor
  · rintro ⟨i, hi, hfails, hbefore⟩
    cases i with
    | zero =>
      cases hi
      exact absurd hfails hslot
    | succ i =>
      exact ⟨i, hi, hshift i ▸ hfails, fun j other hj ho => hshift j ▸ hbefore (j + 1) other (by omega) ho⟩
  · rintro ⟨i, hi, hfails, hbefore⟩
    refine ⟨i + 1, hi, hshift i ▸ hfails, fun j other hj ho => ?_⟩
    cases j with
    | zero =>
      cases ho
      exact hslot
    | succ j => exact hshift j ▸ hbefore j other (by omega) ho

/-- A walk fails exactly at its first slot that fails. -/
theorem loadSlots_error_iff {files : List NamedFile} {ff : Option Nat} {b : Bus} {slots : List ChipSlot} {k : Nat}
    {buf : List Byte} {name : ChipSlot} :
    loadSlots files ff b k slots buf = .error (.loadError name) ↔ FirstFailure files ff b k slots name := by
  induction slots generalizing k buf with
  | nil =>
    constructor
    · intro h
      cases h
    · rintro ⟨i, hi, -⟩
      simp at hi
  | cons slot rest ih =>
    rw [loadSlots]
    split
    next e he =>
      obtain ⟨rfl, hfails⟩ := (loadSlot_error_iff ..).1 he
      rw [firstFailure_cons_of_fails hfails]
      simp
    next buf1 hok =>
      have hloads : ¬ SlotFails files ff b (k * b.chipSize) slot := fun hfails =>
        absurd (hok.symm.trans ((loadSlot_error_iff ..).2 ⟨rfl, hfails⟩)) nofun
      rw [ih, firstFailure_cons_of_loads hloads]

/-- Settles O58: the walk stops at the first slot that fails, with that slot's LoadError. -/
theorem loadFailsExactlyOnMissingOrShortFiles : Obligations.LoadFailsExactlyOnMissingOrShortFiles := by
  refine fun files ff b => ⟨fun name => ?_, fun e he => loadSlots_error files ff b _ _ _ he⟩
  rw [loadBus, loadSlots_error_iff, FirstFailure]
  simp only [Nat.zero_add]

/-! ### Full files, loaded and saved -/

/-- A window that holds a file's bytes is that file. -/
theorem take_drop_eq_of_window {buf bs : List Byte} {off size : Nat} (hlen : bs.length = size)
    (h : ∀ j, j < size → buf[off + j]? = bs[j]?) : (buf.drop off).take size = bs := by
  apply List.ext_getElem?
  intro j
  by_cases hj : j < size
  · rw [List.getElem?_take_of_lt hj, List.getElem?_drop, h j hj]
  · rw [List.getElem?_take_eq_none (by omega), List.getElem?_eq_none (by omega)]

/-- A slot whose window holds a file is saved as that file, under its target name (R180). -/
theorem saveSlot_of_window {pre : String} {size off : Nat} {buf : List Byte} {chip : NamedFile} (hname : chip.1 ≠ "")
    (hsize : 0 < size) (hfits : off + size ≤ buf.length) (hlen : chip.2.length = size)
    (h : ∀ j, j < size → buf[off + j]? = chip.2[j]?) :
    saveSlot pre [] size buf off chip.1 = .ok [(pre ++ chip.1, chip.2)] := by
  have hopen : ¬ (chip.1 = "" ∨ buf.length ≤ off) := not_or.2 ⟨hname, by omega⟩
  rw [saveSlot, if_neg hopen, if_neg (by omega), if_neg (by simp), take_drop_eq_of_window hlen h]

/-- Slots whose windows hold files are saved as those files, in order. -/
theorem saveSlots_of_windows {pre : String} {size : Nat} {buf : List Byte} (hsize : 0 < size) {chips : List NamedFile}
    {k : Nat} (hfits : (k + chips.length) * size ≤ buf.length)
    (hchips : ∀ i chip, chips[i]? = some chip → chip.1 ≠ "" ∧ chip.2.length = size ∧
      ∀ j, j < size → buf[(k + i) * size + j]? = chip.2[j]?) :
    saveSlots pre [] size buf k (chips.map (fun c => c.1)) = .ok (chips.map (fun c => (pre ++ c.1, c.2))) := by
  induction chips generalizing k with
  | nil => rfl
  | cons chip rest ih =>
    have hlen : k + (chip :: rest).length = k + 1 + rest.length := by simp; omega
    have hfirst : k * size + size ≤ buf.length := by
      rw [← Nat.succ_mul]
      exact (Nat.mul_le_mul_right _ (by omega)).trans (hlen ▸ hfits)
    obtain ⟨hname, hchip, hwin⟩ := hchips 0 chip rfl
    have hrest := ih (k := k + 1) (hlen ▸ hfits) fun i c hi => by
      have := hchips (i + 1) c hi
      rwa [show k + (i + 1) = k + 1 + i by omega] at this
    rw [List.map_cons, saveSlots, saveSlot_of_window hname hsize hfirst hchip hwin, hrest]
    rfl

/-- Settles O59: no slot fails, so the bus loads; every window then holds its slot's file, which the save writes. -/
theorem loadThenSaveReproducesFiles : Obligations.LoadThenSaveReproducesFiles := by
  intro files chips b pre hsize hslots hchips
  have hchip (i : Nat) (chip : NamedFile) (hi : chips[i]? = some chip) := hchips chip (List.mem_of_getElem? hi)
  have hslot (i : Nat) (chip : NamedFile) (hi : chips[i]? = some chip) : b.slots[i]? = some chip.1 := by
    simp [hslots, hi]
  cases hload : loadBus files none b with
  | error e =>
    obtain ⟨name, rfl⟩ := loadSlots_error files none b _ _ _ hload
    obtain ⟨i, hi, ⟨-, -, hshort⟩, -⟩ := loadSlots_error_iff.1 hload
    rw [hslots, List.getElem?_map, Option.map_eq_some_iff] at hi
    obtain ⟨chip, hget, rfl⟩ := hi
    obtain ⟨-, hfile, hlen⟩ := hchip i chip hget
    exact absurd hlen (hshort _ hfile).ne
  | ok buf =>
    obtain ⟨hlen, hwin⟩ := loadBus_ok hsize hload
    have hcount : b.slots.length = chips.length := by simp [hslots]
    refine ⟨buf, rfl, ?_⟩
    rw [saveBus, hslots]
    refine saveSlots_of_windows hsize (by rw [hlen, hcount, Nat.zero_add, Nat.mul_comm]) fun i chip hi => ?_
    obtain ⟨hname, hfile, hsz⟩ := hchip i chip hi
    refine ⟨hname, hsz, fun j hj => ?_⟩
    obtain ⟨hbytes, -⟩ := (hwin i chip.1 (hslot i chip hi) j hj).2 nofun
    obtain ⟨bs, hbs, -, hbyte⟩ := hbytes hname
    obtain rfl : bs = chip.2 := Option.some.inj (hbs.symm.trans hfile)
    rwa [Nat.zero_add]

/-! ### The exit signal -/

theorem errCode_code_eq_zero_iff (e : ErrCode) : e.code = 0#4 ↔ e = .none := by cases e <;> decide

/-- How the save ends a run (R183 step 7, R185). -/
theorem finishConversion_cases {c : Conversion} {out : List (Role × List Byte)} {s : State} {r : ConversionResult}
    (h : finishConversion c out s = .next r) :
    (∃ fs, r = ⟨s.exitSignal, fs, none, s⟩ ∧ ∀ f ∈ fs, f.1 ∉ c.unwritable) ∨
      ∃ name, r = ⟨3, [], some (.saveError name), s⟩ ∧ name ∈ c.unwritable := by
  obtain ⟨hfiles, hstop⟩ := saveBuses_spec c.filePrefix c.unwritable out c.target.buses
  unfold finishConversion at h
  split at h
  next fs hfs =>
    cases h
    exact .inl ⟨fs, rfl, hfiles fs hfs⟩
  next e he =>
    cases h
    obtain ⟨name, rfl, hname⟩ := hstop e he
    exact .inr ⟨name, rfl, hname⟩
  · cases h

/-- The four ways a run ends: a LoadError, an error of the block, files written, a SaveError (R185, R277). -/
inductive ConversionEnd (c : Conversion) : ConversionResult → Prop where
  | loadError {name : String} {t : State} (load : loadLayout c.files c.ffwinOff c.source = .error (.loadError name))
      (clear : t.err = .none) : ConversionEnd c ⟨2, [], some (.loadError name), t⟩
  | blockError {t : State} {bufs : List (Role × List Byte)} (load : loadLayout c.files c.ffwinOff c.source = .ok bufs)
      (fault : t.err ≠ .none) : ConversionEnd c ⟨t.err.code, [], none, t⟩
  | written {t : State} {bufs : List (Role × List Byte)} {fs : List NamedFile}
      (load : loadLayout c.files c.ffwinOff c.source = .ok bufs) (clear : t.err = .none)
      (names : ∀ f ∈ fs, f.1 ∉ c.unwritable) : ConversionEnd c ⟨0, fs, none, t⟩
  | saveError {name : String} {t : State} {bufs : List (Role × List Byte)}
      (load : loadLayout c.files c.ffwinOff c.source = .ok bufs) (clear : t.err = .none)
      (names : name ∈ c.unwritable) : ConversionEnd c ⟨3, [], some (.saveError name), t⟩

theorem conversionEnd_of_convert {c : Conversion} {s : State} {r : ConversionResult} (h : convert c s = .next r) :
    ConversionEnd c r := by
  rcases convert_cases h with ⟨e, he, rfl⟩ | ⟨⟨bufs, hbufs⟩, ⟨t, ht, rfl⟩ | ⟨t, out, ht, hfinish⟩⟩
  · obtain ⟨name, rfl⟩ := loadBuses_error c.files c.ffwinOff _ he
    exact .loadError he rfl
  · exact .blockError hbufs ((faultOutput_eq_true_iff t).1 ht)
  · have hclear := (faultOutput_eq_false_iff t).1 ht
    rcases finishConversion_cases hfinish with ⟨fs, rfl, hnames⟩ | ⟨name, rfl, hname⟩
    · rw [State.exitSignal, hclear]
      exact .written hbufs hclear hnames
    · exact .saveError hbufs hclear hname

/-- Settles O60: clause by clause over the four ways a run ends. -/
theorem conversionExitSignal : Obligations.ConversionExitSignal := by
  intro c s r h
  cases conversionEnd_of_convert h with
  | loadError load clear => simp [load, clear]
  | @blockError t _ load fault => simp [load, fault, errCode_code_eq_zero_iff]
  | written load clear names => simpa [load, clear] using names
  | saveError load clear names => simp [load, clear, names]

end Sys2Proof.Machine
